-- ==== Sys2Proof/Word.lean ====
section
/-! DEFINITION. The word and byte types of the engine (spec 00_scope R6, R7): registers, table counts and bus data are
32 bits unsigned, elements of the bit and file memories are bytes. -/

namespace Sys2Proof

/-- A 32-bit unsigned word: a register, a table count, bus data (R6, R44). -/
abbrev Word := BitVec 32

/-- A byte of the bit memory or the file memory (R35, R36). -/
abbrev Byte := BitVec 8

end Sys2Proof
end

