-- ==== Sys2Proof/Config.lean ====
section
/-! DEFINITION. What an implementation fixes, and the free value: the seven size parameters of R5 with `HOST_BASE`
(R47), their constraints and defaults, and the one uninterpreted constant every unspecified value is drawn from
(R39, R151). -/

namespace Sys2Proof

/-- The size parameters of R5 and the platform's window base of R47. DESIGN CHOICE (log 7): they are carried in
`State` as data that no step changes, so that a statement about every state is a statement about every choice of
parameters. -/
structure Config where
  /-- `SYM_W`, bits in a symbol -/
  symW : Nat
  /-- `M_MAX`, entries in the model table -/
  mMax : Nat
  /-- `CT_MAX`, entries in the code table -/
  ctMax : Nat
  /-- `CW_MAX`, longest codeword in bits -/
  cwMax : Nat
  /-- `S_MAX`, symbols in the symbol memory -/
  sMax : Nat
  /-- `B_MAX`, bytes in the bit memory -/
  bMax : Nat
  /-- `F_MAX`, bytes in the file memory -/
  fMax : Nat
  /-- `HOST_BASE`, where the platform puts the window of R45; "no rule of this spec reads" it (R47) -/
  hostBase : Nat
  deriving DecidableEq, Repr

/-- The defaults of R5. -/
def Config.standard : Config :=
  { symW := 8, mMax := 256, ctMax := 256, cwMax := 32, sMax := 65536, bMax := 262148, fMax := 262149, hostBase := 0 }

/-- The constraints of R5, and "any multiple of 4" for `HOST_BASE` (file 92, Open parameters). -/
abbrev Config.Ok (c : Config) : Prop :=
  (1 ≤ c.symW ∧ c.symW ≤ 32) ∧
  (1 ≤ c.mMax ∧ c.mMax ≤ 256 ∧ c.mMax ≤ 2 ^ c.symW) ∧
  (1 ≤ c.ctMax ∧ c.ctMax ≤ 256 ∧ c.ctMax ≤ 2 ^ c.symW) ∧
  (1 ≤ c.cwMax ∧ c.cwMax ≤ 32) ∧
  (1 ≤ c.sMax ∧ c.sMax ≤ 2 ^ 18) ∧
  (1 ≤ c.bMax ∧ c.bMax ≤ 2 ^ 19) ∧
  (1 ≤ c.fMax ∧ c.fMax ≤ 2 ^ 19) ∧
  c.hostBase % 4 = 0

/-- The free value (R39, R151: "any value of the element's width; a model draws it, and no claim may depend on it").
`Config.freeAt n a` is what draw number `n` leaves in the register or element at host address `a` (R45 gives each
register and element an address of its own, so no two places share a value). It has no body: nothing can be proved
about what it is. A narrow element takes the low bits. -/
opaque Config.freeAt : Nat → Nat → Word

end Sys2Proof
end

