-- ==== Sys2Proof/Syntax.lean ====
section
/-! DEFINITION. The eight commands (R63), the fields of the one command format `C` (R60), the reasons a word is no
command (R64). A command has no operand field: it takes all its operands from registers and memories (R61). -/

namespace Sys2Proof

/-- The commands of R63, one constructor per row of spec/opcode_table.json. -/
inductive Instr where
  /-- `NOP` (R136) -/
  | nop
  /-- `RC_ENC` (R90) -/
  | rcEnc
  /-- `RC_DEC` (R96) -/
  | rcDec
  /-- `BP_ENC` (R111) -/
  | bpEnc
  /-- `BP_DEC` (R112) -/
  | bpDec
  /-- `BS_PACK` (R125) -/
  | bsPack
  /-- `BS_UNPACK` (R126) -/
  | bsUnpack
  /-- `SRESET` (R137) -/
  | sreset
  deriving DecidableEq, Repr

/-- The two fields of a command word in format `C` (R60): bits 31:8 and bits 7:0. -/
structure FormatC where
  rsv : BitVec 24
  op : BitVec 8
  deriving DecidableEq, Repr

/-- Why a command word is illegal (R64). -/
inductive DecodeError where
  /-- one of bits 31:8 is set -/
  | reservedNotZero
  /-- bits 31:8 are 0 and the opcode is above 0x07 -/
  | unassignedOpcode
  deriving DecidableEq, Repr

end Sys2Proof
end

