-- ==== Sys2Proof/WellFormed.lean ====
section
/-! DEFINITION. Well-formedness. A command carries no operand, so every `Instr` is well-formed; what can be
ill-formed is a command word's fields (R60, R64). -/

namespace Sys2Proof

/-- A command has no field that could be out of range (R60: "no register number, no immediate, no mode bit"). -/
def Instr.wf : Instr → Bool
  | .nop | .rcEnc | .rcDec | .bpEnc | .bpDec | .bsPack | .bsUnpack | .sreset => true

/-- The reserved field is 0 (R60). -/
def FormatC.reservedOk (f : FormatC) : Bool := f.rsv == 0#24

/-- The opcode is assigned, 0x00 to 0x07 (R63, R64). -/
def FormatC.opcodeOk (f : FormatC) : Bool := decide (f.op.toNat ≤ 0x07)

/-- The fields of a legal command word (R63, R64). -/
def FormatC.wf (f : FormatC) : Bool := f.reservedOk && f.opcodeOk

end Sys2Proof
end

