-- ==== Sys2Proof/Decode.lean ====
section
/-! DEFINITION. The decoder, total on every 32-bit command word and rejecting by name (R60, R62, R63, R64), and the
encoder written from the same map. DEDUCED (log 9): a command word is one 32-bit bus word and has no byte order (R41, R44, R60). -/

namespace Sys2Proof

/-- The fields of a command word: `rsv` is bits 31:8, `op` is bits 7:0 (R60). -/
def fieldsOf (w : Word) : FormatC := { rsv := w.extractLsb' 8 24, op := w.extractLsb' 0 8 }

/-- The command word with the given fields (R60). -/
def FormatC.word (f : FormatC) : Word := f.rsv ++ f.op

/-- The command an opcode selects (R63). -/
def ofOpcode (op : BitVec 8) : Option Instr :=
  match op.toNat with
  | 0x00 => some .nop
  | 0x01 => some .rcEnc
  | 0x02 => some .rcDec
  | 0x03 => some .bpEnc
  | 0x04 => some .bpDec
  | 0x05 => some .bsPack
  | 0x06 => some .bsUnpack
  | 0x07 => some .sreset
  | _ => none

/-- The opcode of a command (R63). -/
def Instr.opcode : Instr → BitVec 8
  | .nop => 0x00#8
  | .rcEnc => 0x01#8
  | .rcDec => 0x02#8
  | .bpEnc => 0x03#8
  | .bpDec => 0x04#8
  | .bsPack => 0x05#8
  | .bsUnpack => 0x06#8
  | .sreset => 0x07#8

/-- "A command word `w` selects a command exactly when `w` equals the word in the table" (R63); every other word is
illegal (R64). -/
def decode (w : Word) : Except DecodeError Instr :=
  let f := fieldsOf w
  if f.reservedOk then
    match ofOpcode f.op with
    | some i => .ok i
    | none => .error .unassignedOpcode
  else .error .reservedNotZero

/-- The command word of a command (R60, R63). -/
def encode (i : Instr) : Word := FormatC.word { rsv := 0#24, op := i.opcode }

/-- What the decoder reads from the `nbits` low bits of `w`, all higher bits being 0. A command word has 32 bits
(R60), so a longer one is no command. -/
def decodeTableWord (nbits w : Nat) : Option Instr :=
  if nbits ≤ 32 then
    match decode (BitVec.ofNat 32 (w % 2 ^ nbits)) with
    | .ok i => some i
    | .error _ => none
  else none

end Sys2Proof
end

