-- ==== Sys2Proof/Machine/Memory.lean ====
section
/-! DEFINITION. One memory of the engine: a table column, or one of the three data memories (R31, R32, R34 to R36).
It lists the elements written since the last event that made them unspecified; an element that is not listed holds
an unspecified value (R39, R151), namely the free value of the draw it was left by. -/

namespace Sys2Proof.Machine

/-- A memory whose elements are stored in `w` bits. `cells` lists the written elements by index, `base` is the draw
that reset left in every element, and `spoilt` holds the later draws: an entry `(hi, d)` says that draw `d` of a
faulting command (R151) left every element below `hi` unspecified, newest first. -/
structure Memory (w : Nat) where
  cells : List (Nat × BitVec w)
  base : Nat
  spoilt : List (Nat × Nat)
  deriving DecidableEq, Repr

/-- The entry of index `i` in a list of cells. -/
def lookupCell {w : Nat} : List (Nat × BitVec w) → Nat → Option (BitVec w)
  | [], _ => none
  | (j, v) :: rest, i => if i = j then some v else lookupCell rest i

/-- Writing index `i` in a rising list of cells: the list stays rising and holds `i` once. -/
def insertCell {w : Nat} : List (Nat × BitVec w) → Nat → BitVec w → List (Nat × BitVec w)
  | [], i, v => [(i, v)]
  | (j, u) :: rest, i, v =>
    if i < j then (i, v) :: (j, u) :: rest
    else if i = j then (i, v) :: rest
    else (j, u) :: insertCell rest i v

/-- The draw that holds for index `i`: the newest spoilt range that reaches it, else the base draw. -/
def drawBelow : List (Nat × Nat) → Nat → Nat → Nat
  | [], base, _ => base
  | (hi, d) :: rest, base, i => if i < hi then d else drawBelow rest base i

/-- A memory in which every element is unspecified (R39, R170): draw `d`. -/
def Memory.unspecified {w : Nat} (d : Nat) : Memory w := { cells := [], base := d, spoilt := [] }

/-- The written value of element `i`, if it was written since it last became unspecified. -/
def Memory.written {w : Nat} (m : Memory w) (i : Nat) : Option (BitVec w) := lookupCell m.cells i

/-- The draw that an unwritten element `i` takes its value from. -/
def Memory.drawAt {w : Nat} (m : Memory w) (i : Nat) : Nat := drawBelow m.spoilt m.base i

/-- The value of element `i`, for an element of `width` bits whose array starts at host address `addr` (R45): what
was last written, or the free value of its draw (R39: "any value of the element's width ... fixed until the element
is written"). -/
def Memory.read {w : Nat} (m : Memory w) (width addr i : Nat) : BitVec w :=
  match m.written i with
  | some v => v
  | none => BitVec.ofNat w ((Config.freeAt (m.drawAt i) (addr + 4 * i)).toNat % 2 ^ width)

/-- The memory with `v` written to element `i`. -/
def Memory.write {w : Nat} (m : Memory w) (i : Nat) (v : BitVec w) : Memory w :=
  { m with cells := insertCell m.cells i v }

/-- The memory after a draw `d` that leaves every element below `hi` unspecified (R151) and the rest as they are. -/
def Memory.spoil {w : Nat} (m : Memory w) (hi d : Nat) : Memory w :=
  if hi = 0 then m
  else
    { m with
      cells := m.cells.filter (fun p => decide (hi ≤ p.1))
      spoilt := (hi, d) :: m.spoilt.filter (fun p => decide (hi < p.1)) }

/-- The canonical form (log 2) of a memory of `size` elements when the next draw has number `next`: indices strictly
rising and inside the memory, spoilt ranges strictly rising, not empty and inside the memory, every draw one that
was made. -/
abbrev Memory.wf {w : Nat} (m : Memory w) (size next : Nat) : Prop :=
  m.cells.Pairwise (fun p q => p.1 < q.1) ∧ (∀ p ∈ m.cells, p.1 < size) ∧
  m.spoilt.Pairwise (fun p q => p.1 < q.1) ∧ (∀ p ∈ m.spoilt, 0 < p.1 ∧ p.1 ≤ size ∧ p.2 < next) ∧
  m.base < next

/-- Every listed element fits `width` bits (R44, R51: a stored value "must fit the element width"). -/
abbrev Memory.fits {w : Nat} (m : Memory w) (width : Nat) : Prop := ∀ p ∈ m.cells, p.2.toNat < 2 ^ width

end Sys2Proof.Machine
end

