-- ==== Sys2Proof/Machine/State.lean ====
section
/-! DEFINITION. The machine's state as plain data (R10 to R39), the reasons a step of the model could stop (there is
none but an unmodelled instruction), the engine's own faults (R145), the host's moves and responses (R46, R55), and
the state after reset (R39, R170). -/

namespace Sys2Proof.Machine

/-- The nine faults of the engine (R145). Taking one is a next state (R150): it stops no step of the model. -/
inductive Cause where
  /-- 0x01, raised by dispatch (R64) -/
  | illegalCmd
  /-- 0x02, raised by the entry checks (R147) -/
  | badLength
  /-- 0x03, raised by `RC_ENC` and `RC_DEC` (R84) -/
  | modelInvalid
  /-- 0x04, raised by `BP_ENC` and `BP_DEC` (R110) -/
  | tableInvalid
  /-- 0x05, raised by `RC_ENC` and `BP_ENC` (R89, R111) -/
  | symbolMiss
  /-- 0x06, raised by `RC_ENC` (R85) -/
  | rangeCollapse
  /-- 0x07, raised where an output does not fit (R53, R112, R125, R126) -/
  | overflow
  /-- 0x08, raised by `BS_UNPACK` (R126) -/
  | format
  /-- 0x09, written in `RC_DEC`, where it cannot fire (R94, R98) -/
  | desync
  deriving DecidableEq, Repr

/-- `raise F(info)` (R150): the fault and its detail. -/
structure Raise where
  cause : Cause
  info : Word
  deriving DecidableEq, Repr

/-- The reasons a step of the model stops with a fault: none. "Every command is defined on every state of the
engine" (R135), every bus transaction has a response (R46), and an engine fault is a next state (R150). Nobody
raises one, which is safe. -/
inductive Fault where
  deriving DecidableEq, Repr

/-- The reasons the model refuses an instruction. -/
inductive Refusal where
  /-- Raised by a dispatch arm whose instruction has no meaning yet; no arm is such an arm now. Safe: the model stops
  where the hardware goes on. -/
  | notModelled (mnemonic : String)
  deriving DecidableEq, Repr

/-- One move of the host (R55): "a read transaction, a write transaction, and asserting reset". Addresses and data
are 32 bits (R37, R44). -/
inductive HostOp where
  | read (addr : Word)
  | write (addr data : Word)
  | reset
  deriving DecidableEq, Repr

/-- The response to a transaction (R46): `ok` to a write, data to a read that is `ok`, or a bus error. -/
inductive Response where
  | ok
  | data (value : Word)
  | buserr
  deriving DecidableEq, Repr

/-- The registers that store something (R17); `CMD`, `PADCNT`, `BITBYTES` and the flag `TRUNC` store nothing
(R16, R18, R24, R25). -/
structure Regs where
  /-- `STATUS` bit 0 (R16, R19) -/
  done : Bool
  /-- `STATUS` bit 1 (R16, R19) -/
  fault : Bool
  /-- `ERR` bits 7:0 (R20) -/
  err : BitVec 8
  /-- `ERRINFO` (R21) -/
  errinfo : Word
  /-- `SYMCNT` (R22) -/
  symcnt : Word
  /-- `BITLEN` (R23) -/
  bitlen : Word
  /-- `FILELEN` (R26) -/
  filelen : Word
  /-- `TOTAL` (R27) -/
  total : Word
  /-- `MCOUNT` (R28) -/
  mcount : Word
  /-- `CCOUNT` (R28) -/
  ccount : Word
  /-- `RESID` (R29) -/
  resid : Word
  /-- `LOW` (R11) -/
  low : Word
  /-- `HIGH` (R12) -/
  high : Word
  /-- `VALUE` (R13) -/
  value : Word
  /-- `BPTR` (R15) -/
  bptr : Word
  /-- `SIDX` (R15) -/
  sidx : Word
  deriving DecidableEq, Repr

/-- The two tables (three columns each) and the three data memories (R31, R32, R34 to R36). A symbol is stored in 32
bits, of which it uses `SYM_W`. -/
structure Arrays where
  msym : Memory 32
  mfreq : Memory 32
  mcum : Memory 32
  csym : Memory 32
  clen : Memory 6
  cbits : Memory 32
  symmem : Memory 32
  bitmem : Memory 8
  filemem : Memory 8
  deriving DecidableEq, Repr

/-- The whole state. `cfg`, `draws`, `host` and `responses` are the model's own (log 4 to log 7): the parameters, the
number of the next draw of unspecified values, the host's moves the port has not taken yet (oldest first), and the
responses given so far (newest first). -/
structure State where
  cfg : Config
  regs : Regs
  arr : Arrays
  draws : Nat
  host : List HostOp
  responses : List Response
  deriving DecidableEq, Repr

/-- The registers after reset and after `SRESET` (R39, R137). -/
def Regs.reset : Regs :=
  { done := false, fault := false, err := 0, errinfo := 0,
    symcnt := 0, bitlen := 0, filelen := 0, total := 0, mcount := 0, ccount := 0, resid := 0,
    low := 0, high := 0xFFFFFFFF, value := 0, bptr := 0, sidx := 0 }

/-- The tables and memories after reset: every element unspecified, draw `d` (R39, R170). -/
def Arrays.unspecified (d : Nat) : Arrays :=
  { msym := .unspecified d, mfreq := .unspecified d, mcum := .unspecified d,
    csym := .unspecified d, clen := .unspecified d, cbits := .unspecified d,
    symmem := .unspecified d, bitmem := .unspecified d, filemem := .unspecified d }

/-- The machine right after reset (R39, R170, R171), with the default parameters of R5 (DESIGN CHOICE, log 7), no
host move pending and no response given (DESIGN CHOICE, log 5, log 6), and draw 0 made by the reset (DESIGN CHOICE,
log 4). -/
def State.reset : State :=
  { cfg := .standard, regs := .reset, arr := .unspecified 0, draws := 1, host := [], responses := [] }

end Sys2Proof.Machine
end

