-- ==== Sys2Proof/Machine/Flags.lean ====
section
/-! DEFINITION. The flags and the derived registers (R16, R19, R24, R25), the fault codes (R145), and the
names and offsets of the eighteen registers (R17). The engine has no arithmetic condition code (R16). -/

namespace Sys2Proof.Machine

/-- The eighteen registers of R17, in the order of their offsets. -/
inductive Reg where
  | cmd | status | err | errinfo | symcnt | bitlen | padcnt | bitbytes | filelen | total | mcount | ccount | resid
  | low | high | value | bptr | sidx
  deriving DecidableEq, Repr

/-- The byte offset of a register (R17). -/
def Reg.offset : Reg → Nat
  | .cmd => 0x00
  | .status => 0x04
  | .err => 0x08
  | .errinfo => 0x0C
  | .symcnt => 0x10
  | .bitlen => 0x14
  | .padcnt => 0x18
  | .bitbytes => 0x1C
  | .filelen => 0x20
  | .total => 0x24
  | .mcount => 0x28
  | .ccount => 0x2C
  | .resid => 0x30
  | .low => 0x34
  | .high => 0x38
  | .value => 0x3C
  | .bptr => 0x40
  | .sidx => 0x44

/-- The codes of R145. -/
def Cause.code : Cause → BitVec 8
  | .illegalCmd => 0x01
  | .badLength => 0x02
  | .modelInvalid => 0x03
  | .tableInvalid => 0x04
  | .symbolMiss => 0x05
  | .rangeCollapse => 0x06
  | .overflow => 0x07
  | .format => 0x08
  | .desync => 0x09

/-- `TRUNC` "is not stored: it reads 1 exactly when `RESID != 0`" (R16). -/
def Regs.trunc (r : Regs) : Bool := decide (r.resid ≠ 0)

/-- The word a read of `STATUS` returns: bit 0 `DONE`, bit 1 `FAULT`, bit 2 `TRUNC`, bits 31:3 zero (R19). -/
def Regs.status (r : Regs) : Word :=
  BitVec.ofNat 32 (r.done.toNat + 2 * r.fault.toNat + 4 * r.trunc.toNat)

/-- `PADCNT`: `(8 - (BITLEN mod 8)) mod 8` (R24). -/
def padOf (bitlen : Nat) : Nat := (8 - bitlen % 8) % 8

/-- `BITBYTES`: `(BITLEN + 7) div 8`, "computed without overflow" (R25). -/
def bytesOf (bitlen : Nat) : Nat := (bitlen + 7) / 8

/-- The word a read of `PADCNT` returns (R24). -/
def Regs.padcnt (r : Regs) : Word := BitVec.ofNat 32 (padOf r.bitlen.toNat)

/-- The word a read of `BITBYTES` returns (R25). -/
def Regs.bitbytes (r : Regs) : Word := BitVec.ofNat 32 (bytesOf r.bitlen.toNat)

end Sys2Proof.Machine
end

