-- ==== Sys2Proof/Machine/Ops.lean ====
section
/-! DEFINITION. The shared operations: the arrays and their geometry (R45), the engine's accesses (R51 to R53), the
loops (R8), dispatch of a command (R135), taking a fault (R150, R151), leaving it (R137, R153), and reset (R170). -/

namespace Sys2Proof.Machine

/-- The arrays of R45. -/
inductive Arr where
  | msym | mfreq | mcum | csym | clen | cbits | symmem | bitmem | filemem
  deriving DecidableEq, Repr

/-- The base address of an array (R45). -/
def Arr.base : Arr → Nat
  | .msym => 0x00001000
  | .mfreq => 0x00001400
  | .mcum => 0x00001800
  | .csym => 0x00002000
  | .clen => 0x00002400
  | .cbits => 0x00002800
  | .symmem => 0x00100000
  | .bitmem => 0x00200000
  | .filemem => 0x00400000

/-- The last address of an array's window (R45). -/
def Arr.windowEnd : Arr → Nat
  | .msym => 0x000013FF
  | .mfreq => 0x000017FF
  | .mcum => 0x00001BFF
  | .csym => 0x000023FF
  | .clen => 0x000027FF
  | .cbits => 0x00002BFF
  | .symmem => 0x001FFFFF
  | .bitmem => 0x003FFFFF
  | .filemem => 0x005FFFFF

/-- The number of elements of an array (R45). -/
def Arr.size (c : Config) : Arr → Nat
  | .msym | .mfreq | .mcum => c.mMax
  | .csym | .clen | .cbits => c.ctMax
  | .symmem => c.sMax
  | .bitmem => c.bMax
  | .filemem => c.fMax

/-- The width of an array's elements in bits (R45). -/
def Arr.width (c : Config) : Arr → Nat
  | .msym | .csym | .symmem => c.symW
  | .mfreq | .mcum | .cbits => 32
  | .clen => 6
  | .bitmem | .filemem => 8

/-- `MemRead(NAME, i)` (R51), zero-extended to 32 bits. -/
def memRead (s : State) (a : Arr) (i : Nat) : Word :=
  match a with
  | .msym => s.arr.msym.read (Arr.width s.cfg .msym) (Arr.base .msym) i
  | .mfreq => s.arr.mfreq.read (Arr.width s.cfg .mfreq) (Arr.base .mfreq) i
  | .mcum => s.arr.mcum.read (Arr.width s.cfg .mcum) (Arr.base .mcum) i
  | .csym => s.arr.csym.read (Arr.width s.cfg .csym) (Arr.base .csym) i
  | .clen => (s.arr.clen.read (Arr.width s.cfg .clen) (Arr.base .clen) i).setWidth 32
  | .cbits => s.arr.cbits.read (Arr.width s.cfg .cbits) (Arr.base .cbits) i
  | .symmem => s.arr.symmem.read (Arr.width s.cfg .symmem) (Arr.base .symmem) i
  | .bitmem => (s.arr.bitmem.read (Arr.width s.cfg .bitmem) (Arr.base .bitmem) i).setWidth 32
  | .filemem => (s.arr.filemem.read (Arr.width s.cfg .filemem) (Arr.base .filemem) i).setWidth 32

/-- `MemWrite(NAME, i, v)` (R51); `v` must fit the element. -/
def memWrite (s : State) (a : Arr) (i : Nat) (v : Word) : State :=
  match a with
  | .msym => { s with arr.msym := s.arr.msym.write i v }
  | .mfreq => { s with arr.mfreq := s.arr.mfreq.write i v }
  | .mcum => { s with arr.mcum := s.arr.mcum.write i v }
  | .csym => { s with arr.csym := s.arr.csym.write i v }
  | .clen => { s with arr.clen := s.arr.clen.write i (v.setWidth 6) }
  | .cbits => { s with arr.cbits := s.arr.cbits.write i v }
  | .symmem => { s with arr.symmem := s.arr.symmem.write i v }
  | .bitmem => { s with arr.bitmem := s.arr.bitmem.write i (v.setWidth 8) }
  | .filemem => { s with arr.filemem := s.arr.filemem.write i (v.setWidth 8) }

/-! ### Writing registers

One named update per register or pair of registers that the meanings write together; Laws/State.lean says what each
leaves of every field. -/

/-- `DONE <- b` (R16). -/
def State.setDone (s : State) (b : Bool) : State := { s with regs := { s.regs with done := b } }

/-- `LOW <- v` (R11). -/
def State.setLow (s : State) (v : Word) : State := { s with regs := { s.regs with low := v } }

/-- `LOW <- lo ; HIGH <- hi` (R11, R12). -/
def State.setBounds (s : State) (lo hi : Word) : State := { s with regs := { s.regs with low := lo, high := hi } }

/-- `VALUE <- v ; BPTR <- p` (R13, R15). -/
def State.setWindow (s : State) (v p : Word) : State := { s with regs := { s.regs with value := v, bptr := p } }

/-- `BPTR <- p` (R15). -/
def State.setBptr (s : State) (p : Word) : State := { s with regs := { s.regs with bptr := p } }

/-- `SIDX <- v` (R15). -/
def State.setSidx (s : State) (v : Word) : State := { s with regs := { s.regs with sidx := v } }

/-- `BITLEN <- v` (R23). -/
def State.setBitlen (s : State) (v : Word) : State := { s with regs := { s.regs with bitlen := v } }

/-- `FILELEN <- v` (R26). -/
def State.setFilelen (s : State) (v : Word) : State := { s with regs := { s.regs with filelen := v } }

/-- `SYMCNT <- n ; RESID <- r` (R22, R29). -/
def State.setTail (s : State) (n r : Word) : State := { s with regs := { s.regs with symcnt := n, resid := r } }

/-! ### The engine's accesses and loops -/

/-- `trunc_32` (R7). -/
def trunc32 (n : Nat) : Word := BitVec.ofNat 32 n

/-- `val(q)`: the number a bit sequence spells, first bit most significant; 0 for the empty sequence (R7). -/
def val (q : List Bool) : Nat := q.foldl (fun n b => 2 * n + b.toNat) 0

/-- `for k in a .. a+n-1` (R8): the body for each `k` in order; a raise ends the loop. -/
def forLoop {α : Type} (body : Nat → α → Except Raise α) : Nat → Nat → α → Except Raise α
  | 0, _, x => .ok x
  | n + 1, k, x =>
    match body k x with
    | .ok y => forLoop body n (k + 1) y
    | .error r => .error r

/-- `getbit(p)` (R52): bit `p` of the bit sequence, 0 at or after its end. -/
def getbit (s : State) (p : Nat) : Bool :=
  if p < s.regs.bitlen.toNat then (memRead s .bitmem (p / 8)).getLsbD (7 - p % 8) else false

/-- The byte of the bit memory after its bit `7 - r` has become `b`: all other bits 0 when the byte is opened
(`r = 0`), unchanged otherwise (R53). -/
def putBit (old : Word) (r : Nat) (b : Bool) : Word :=
  if r = 0 then trunc32 (128 * b.toNat)
  else (old &&& ~~~(1#32 <<< (7 - r))) ||| (if b then 1#32 <<< (7 - r) else 0#32)

/-- `emit(b)` (R53): append bit `b` to the bit sequence. -/
def emit (b : Bool) (s : State) : Except Raise State :=
  let p := s.regs.bitlen.toNat
  if 8 * s.cfg.bMax ≤ p then .error { cause := .overflow, info := 0 }
  else
    let s' := memWrite s .bitmem (p / 8) (putBit (memRead s .bitmem (p / 8)) (p % 8) b)
    .ok (s'.setBitlen (s.regs.bitlen + 1))

/-- `SYMCNT <= S_MAX` (R147). -/
def checkSymcnt (s : State) : Except Raise Unit :=
  if s.cfg.sMax < s.regs.symcnt.toNat then .error { cause := .badLength, info := 0 } else .ok ()

/-- `BITLEN <= 8 * B_MAX` (R147). -/
def checkBitlen (s : State) : Except Raise Unit :=
  if 8 * s.cfg.bMax < s.regs.bitlen.toNat then .error { cause := .badLength, info := 1 } else .ok ()

/-- `FILELEN <= F_MAX` (R147). -/
def checkFilelen (s : State) : Except Raise Unit :=
  if s.cfg.fMax < s.regs.filelen.toNat then .error { cause := .badLength, info := 2 } else .ok ()

/-- Fault entry, `raise F(info)` (R150): "Nothing is saved anywhere, no mode changes, control goes nowhere". `DONE`
stays as dispatch left it, 0. -/
def faultEntry (r : Raise) (s : State) : State :=
  { s with regs := { s.regs with fault := true, err := r.cause.code, errinfo := r.info } }

/-- Leaving the fault state (R153, R137): every register at its reset value, the tables and memories as they are.
This is the whole effect of `SRESET`; a reset does the same to the registers (R39). -/
def resetRegs (s : State) : State := { s with regs := .reset }

/-- Reset (R170): the registers at their reset values, every element of the tables and memories unspecified, by a
fresh draw. -/
def hardReset (s : State) : State :=
  { resetRegs s with arr := .unspecified s.draws, draws := s.draws + 1 }

/-- Dispatch of a legal command other than `SRESET` (R135). While `FAULT` is 1 it is ignored. Otherwise `DONE` is
cleared and the body runs: it completes and `DONE` is set, or it raises and the fault is entered, with the command's
outputs left unspecified by `spoil` whether or not the body had reached them (R151). -/
def runCommand (body : State → Except Raise State) (spoil : State → State) (s : State) : State :=
  if s.regs.fault then s
  else
    match body (s.setDone false) with
    | .ok t => t.setDone true
    | .error r => faultEntry r (spoil (s.setDone false))

/-- An illegal command word (R64, R135): it raises `ILLEGAL_CMD` with the word, and its set of outputs is empty (R151). -/
def illegalCommand (w : Word) (s : State) : State :=
  runCommand (fun _ => .error { cause := .illegalCmd, info := w }) (fun t => t) s

/-- The response to a transaction (R46), put before the earlier ones. -/
def State.respond (s : State) (r : Response) : State := { s with responses := r :: s.responses }

end Sys2Proof.Machine
end

