-- ==== Sys2Proof/Machine/Bus.lean ====
section
/-! DEFINITION. The host interface: the register block (R17 to R29), the address map (R45), read and write
transactions (R42, R44, R46), and taking the host's next move (R48, R55). -/

namespace Sys2Proof.Machine

/-- What an address of the window names (R45). -/
inductive Target where
  | reg (r : Reg)
  | elem (a : Arr) (i : Nat)
  deriving DecidableEq, Repr

/-- The registers in the order of their offsets (R17). -/
def Reg.all : List Reg :=
  [.cmd, .status, .err, .errinfo, .symcnt, .bitlen, .padcnt, .bitbytes, .filelen, .total, .mcount, .ccount, .resid,
   .low, .high, .value, .bptr, .sidx]

/-- The arrays in the order of their bases (R45). -/
def Arr.all : List Arr := [.msym, .mfreq, .mcum, .csym, .clen, .cbits, .symmem, .bitmem, .filemem]

/-- Address `addr` lies in the array's window and below the array's size (R45). -/
def Arr.holds (c : Config) (a : Arr) (addr : Nat) : Bool :=
  decide (a.base ≤ addr) && decide (addr ≤ a.windowEnd) && decide ((addr - a.base) / 4 < a.size c)

/-- What a host address names, if it is aligned and mapped (R42, R45). -/
def locate (c : Config) (addr : Word) : Option Target :=
  if addr.toNat % 4 ≠ 0 then none
  else
    match Reg.all.find? (fun r => r.offset == addr.toNat) with
    | some r => some (.reg r)
    | none =>
      match Arr.all.find? (fun a => a.holds c addr.toNat) with
      | some a => some (.elem a ((addr.toNat - a.base) / 4))
      | none => none

/-- The word a host read of a register returns (R17). `CMD` reads 0 (R18); the derived registers are computed (R24,
R25). -/
def readReg (r : Regs) : Reg → Word
  | .cmd => 0
  | .status => r.status
  | .err => r.err.setWidth 32
  | .errinfo => r.errinfo
  | .symcnt => r.symcnt
  | .bitlen => r.bitlen
  | .padcnt => r.padcnt
  | .bitbytes => r.bitbytes
  | .filelen => r.filelen
  | .total => r.total
  | .mcount => r.mcount
  | .ccount => r.ccount
  | .resid => r.resid
  | .low => r.low
  | .high => r.high
  | .value => r.value
  | .bptr => r.bptr
  | .sidx => r.sidx

/-- The registers after a host write to one that stores it, and nothing for a read-only register (R17). A write to
`CMD` is no store: it issues a command (R18), which `step` does before it comes here. -/
def writeReg (r : Regs) (v : Word) : Reg → Option Regs
  | .cmd => some r
  | .symcnt => some { r with symcnt := v }
  | .bitlen => some { r with bitlen := v }
  | .filelen => some { r with filelen := v }
  | .total => some { r with total := v }
  | .mcount => some { r with mcount := v }
  | .ccount => some { r with ccount := v }
  | .status | .err | .errinfo | .padcnt | .bitbytes | .resid | .low | .high | .value | .bptr | .sidx => none

/-- The response to a host read (R44, R46); it changes no state. -/
def hostRead (s : State) (addr : Word) : Response :=
  match locate s.cfg addr with
  | none => .buserr
  | some (.reg r) => .data (readReg s.regs r)
  | some (.elem a i) => .data (memRead s a i)

/-- A host write other than to `CMD`, with its response (R44, R46): data that does not fit the element is refused. -/
def hostWrite (s : State) (addr data : Word) : State :=
  match locate s.cfg addr with
  | none => s.respond .buserr
  | some (.reg r) =>
    match writeReg s.regs data r with
    | some regs => State.respond { s with regs := regs } .ok
    | none => s.respond .buserr
  | some (.elem a i) =>
    if data.toNat < 2 ^ a.width s.cfg then (memWrite s a i data).respond .ok
    else s.respond .buserr

/-- The host's next move and the state without it (R48); none when the host has sent nothing more. -/
def fetch (s : State) : Option (HostOp × State) :=
  match s.host with
  | [] => none
  | op :: rest => some (op, { s with host := rest })

/-- The command word a move issues: a write to `CMD` (R18). -/
def commandWord (c : Config) : HostOp → Option Word
  | .write addr data => if locate c addr = some (.reg .cmd) then some data else none
  | .read _ => none
  | .reset => none

/-- A move that issues no command (R46, R55, R170). A reset is no transaction and gets no response. -/
def plainMove (op : HostOp) (s : State) : State :=
  match op with
  | .read addr => s.respond (hostRead s addr)
  | .write addr data => hostWrite s addr data
  | .reset => hardReset s

/-- The response `ok` to the `CMD` write, after its command has ended (R43, R135). -/
def answerOk (o : Host.Outcome State Fault Refusal) : Host.Outcome State Fault Refusal :=
  match o with
  | .next t => .next (t.respond .ok)
  | .fault f => .fault f
  | .refused r => .refused r

/-- The host's moves with a write of the command word put in front (R18, R55). -/
def putCommand (nbits w : Nat) (s : State) : State :=
  { s with host := .write 0 (BitVec.ofNat 32 (w % 2 ^ nbits)) :: s.host }

end Sys2Proof.Machine
end

