-- ==== Sys2Proof/Machine/Operands.lean ====
section
/-! DEFINITION. The implicit operands of the commands (R61): the model table and `ModelOk` (R31), the code table and
`CodeOk` (R32), the lookups in both (R89, R94, R111, R112), and what a faulting command leaves unspecified (R151). -/

namespace Sys2Proof.Machine

/-- `MSYM[i]` as a number (R31). -/
def msymAt (s : State) (i : Nat) : Nat := (memRead s .msym i).toNat

/-- `MFREQ[i]` as a number (R31). -/
def mfreqAt (s : State) (i : Nat) : Nat := (memRead s .mfreq i).toNat

/-- `MCUM[i]` as a number (R31). -/
def mcumAt (s : State) (i : Nat) : Nat := (memRead s .mcum i).toNat

/-- `ModelOk` (R31), clauses (1) to (7) in order, sums taken exactly. -/
abbrev ModelOk (s : State) : Prop :=
  (1 ≤ s.regs.mcount.toNat ∧ s.regs.mcount.toNat ≤ s.cfg.mMax) ∧
  s.regs.total.toNat ≠ 0 ∧
  (∀ i, i < s.regs.mcount.toNat → 1 ≤ mfreqAt s i) ∧
  (∀ i, i < s.regs.mcount.toNat - 1 → msymAt s i < msymAt s (i + 1)) ∧
  mcumAt s 0 = 0 ∧
  (∀ i, i < s.regs.mcount.toNat - 1 → mcumAt s (i + 1) = mcumAt s i + mfreqAt s i) ∧
  mcumAt s (s.regs.mcount.toNat - 1) + mfreqAt s (s.regs.mcount.toNat - 1) = s.regs.total.toNat

/-- The model check (R84). -/
def checkModel (s : State) : Except Raise Unit :=
  if ModelOk s then .ok () else .error { cause := .modelInvalid, info := 0 }

/-- The model entry of symbol `sym`, if there is one: the first `i < MCOUNT` with `MSYM[i] = sym` (R89); under
`ModelOk` there is at most one. -/
def modelEntry (s : State) (sym : Word) : Option Nat :=
  (List.range s.regs.mcount.toNat).find? (fun i => memRead s .msym i == sym)

/-- The model entry whose interval `[MCUM[i], MCUM[i] + MFREQ[i])` holds `scaled`, scanning upwards (R94). -/
def modelShare (s : State) (scaled : Nat) : Option Nat :=
  (List.range s.regs.mcount.toNat).find?
    (fun i => decide (mcumAt s i ≤ scaled) && decide (scaled < mcumAt s i + mfreqAt s i))

/-- The length of the codeword of entry `j` (R32). -/
def clenAt (s : State) (j : Nat) : Nat := (memRead s .clen j).toNat

/-- `CBITS[j]` as a number (R32). -/
def cbitsAt (s : State) (j : Nat) : Nat := (memRead s .cbits j).toNat

/-- The codeword of entry `j` as a bit sequence: its first bit is `CBITS[j][CLEN[j]-1]`, its last `CBITS[j][0]`
(R32, R67). -/
def codeword (s : State) (j : Nat) : List Bool :=
  (List.range (clenAt s j)).map (fun t => (memRead s .cbits j).getLsbD (clenAt s j - 1 - t))

/-- `CodeOk` (R32), clauses (1) to (5) in order. -/
abbrev CodeOk (s : State) : Prop :=
  s.regs.ccount.toNat ≤ s.cfg.ctMax ∧
  (∀ j, j < s.regs.ccount.toNat → clenAt s j ≤ s.cfg.cwMax) ∧
  (∀ j, j < s.regs.ccount.toNat → cbitsAt s j < 2 ^ clenAt s j) ∧
  (∀ j', j' < s.regs.ccount.toNat → ∀ j, j < j' → memRead s .csym j ≠ memRead s .csym j') ∧
  (∀ j, j < s.regs.ccount.toNat → ∀ j', j' < s.regs.ccount.toNat → j ≠ j' → ¬ codeword s j <+: codeword s j')

/-- The table check (R110). -/
def checkTable (s : State) : Except Raise Unit :=
  if CodeOk s then .ok () else .error { cause := .tableInvalid, info := 0 }

/-- The code table entry of symbol `sym`, if there is one: the first `j < CCOUNT` with `CSYM[j] = sym` (R111); under
`CodeOk` there is at most one (R113). -/
def codeEntry (s : State) (sym : Word) : Option Nat :=
  (List.range s.regs.ccount.toNat).find? (fun j => memRead s .csym j == sym)

/-- The entry whose codeword the buffer equals, if there is one: `CLEN[j] = |BUF|` and `CBITS[j] = val(BUF)` (R112);
under `CodeOk` there is at most one (R113). -/
def codeMatch (s : State) (buf : List Bool) : Option Nat :=
  (List.range s.regs.ccount.toNat).find?
    (fun j => decide (clenAt s j = buf.length) && decide (cbitsAt s j = val buf))

/-- The unspecified value draw `d` leaves in a register (R151). -/
def drawn (d : Nat) (r : Reg) : Word := Config.freeAt d r.offset

/-- What a faulting `RC_ENC` leaves: `BITLEN`, `BITMEM`, `LOW`, `HIGH`, `SIDX` unspecified (R151, R90). -/
def spoilRcEnc (s : State) : State :=
  { s with
    draws := s.draws + 1
    arr := { s.arr with bitmem := .unspecified s.draws }
    regs :=
      { s.regs with
        bitlen := drawn s.draws .bitlen
        low := drawn s.draws .low
        high := drawn s.draws .high
        sidx := drawn s.draws .sidx } }

/-- What a faulting `RC_DEC` leaves: `SYMMEM[0 .. SYMCNT)`, `LOW`, `HIGH`, `VALUE`, `BPTR`, `SIDX` unspecified
(R151, R96). -/
def spoilRcDec (s : State) : State :=
  { s with
    draws := s.draws + 1
    arr := { s.arr with symmem := s.arr.symmem.spoil (min s.regs.symcnt.toNat s.cfg.sMax) s.draws }
    regs :=
      { s.regs with
        low := drawn s.draws .low
        high := drawn s.draws .high
        value := drawn s.draws .value
        bptr := drawn s.draws .bptr
        sidx := drawn s.draws .sidx } }

/-- What a faulting `BP_ENC` leaves: `BITLEN`, `BITMEM`, `SIDX` unspecified (R151, R111). -/
def spoilBpEnc (s : State) : State :=
  { s with
    draws := s.draws + 1
    arr := { s.arr with bitmem := .unspecified s.draws }
    regs :=
      { s.regs with
        bitlen := drawn s.draws .bitlen
        sidx := drawn s.draws .sidx } }

/-- What a faulting `BP_DEC` leaves: `SYMMEM`, `SYMCNT`, `RESID`, `BPTR`, `SIDX` unspecified (R151, R112); `TRUNC`
follows `RESID`. -/
def spoilBpDec (s : State) : State :=
  { s with
    draws := s.draws + 1
    arr := { s.arr with symmem := .unspecified s.draws }
    regs :=
      { s.regs with
        symcnt := drawn s.draws .symcnt
        resid := drawn s.draws .resid
        bptr := drawn s.draws .bptr
        sidx := drawn s.draws .sidx } }

/-- What a faulting `BS_PACK` leaves: `FILEMEM[0 .. 1 + BITBYTES)` and `FILELEN` unspecified (R151, R125). -/
def spoilBsPack (s : State) : State :=
  { s with
    draws := s.draws + 1
    arr := { s.arr with filemem := s.arr.filemem.spoil (min (1 + bytesOf s.regs.bitlen.toNat) s.cfg.fMax) s.draws }
    regs :=
      { s.regs with
        filelen := drawn s.draws .filelen } }

/-- What a faulting `BS_UNPACK` leaves: `BITMEM[0 .. FILELEN - 1)` and `BITLEN` unspecified (R151, R126). -/
def spoilBsUnpack (s : State) : State :=
  { s with
    draws := s.draws + 1
    arr := { s.arr with bitmem := s.arr.bitmem.spoil (min (s.regs.filelen.toNat - 1) s.cfg.bMax) s.draws }
    regs :=
      { s.regs with
        bitlen := drawn s.draws .bitlen } }

end Sys2Proof.Machine
end

