-- ==== Sys2Proof/Machine/Bitstream.lean ====
section
/-! DEFINITION. The bitstream file: the meanings of `BS_PACK` (R125) and `BS_UNPACK` (R126). -/

namespace Sys2Proof.Machine

/-- The last byte of a sequence with its `8 - r` pad bits cleared, for `r` not 0 (R125). -/
def clearPad (y : Word) (r : Nat) : Word := trunc32 (y.toNat / 2 ^ (8 - r) * 2 ^ (8 - r))

/-- The body of the copy loop of `BS_PACK` (R125); `n` is the number of payload bytes and `r` is `BITLEN mod 8`. -/
def packByte (n r b : Nat) (s : State) : Except Raise State :=
  let y := memRead s .bitmem b
  .ok (memWrite s .filemem (1 + b) (if b = n - 1 ∧ r ≠ 0 then clearPad y r else y))

/-- `BS_PACK` (R125). -/
def bsPackBody (s : State) : Except Raise State := do
  checkBitlen s
  let n := bytesOf s.regs.bitlen.toNat
  let r := s.regs.bitlen.toNat % 8
  if s.cfg.fMax < 1 + n then .error { cause := .overflow, info := 0 }
  else do
    let s0 := memWrite s .filemem 0 (trunc32 ((8 - r) % 8))
    let s1 ← forLoop (packByte n r) n 0 s0
    .ok (s1.setFilelen (BitVec.ofNat 32 (1 + n)))

/-- The body of the copy loop of `BS_UNPACK` (R126). -/
def unpackByte (b : Nat) (s : State) : Except Raise State :=
  .ok (memWrite s .bitmem b (memRead s .filemem (1 + b)))

/-- `BS_UNPACK` (R126). -/
def bsUnpackBody (s : State) : Except Raise State := do
  checkFilelen s
  if s.regs.filelen.toNat = 0 then .ok (s.setBitlen 0)
  else
    let pad := memRead s .filemem 0
    let n := s.regs.filelen.toNat - 1
    if 7 < pad.toNat then .error { cause := .format, info := pad }
    else if n = 0 ∧ 0 < pad.toNat then .error { cause := .format, info := pad }
    else if s.cfg.bMax < n then .error { cause := .overflow, info := 0 }
    else do
      let s1 ← forLoop unpackByte n 0 s
      .ok (s1.setBitlen (BitVec.ofNat 32 (8 * n - pad.toNat)))

/-- The meaning of `BS_PACK` (R125, R135, R151). -/
def execBsPack (s : State) : Host.Outcome State Fault Refusal := .next (runCommand bsPackBody spoilBsPack s)

/-- The meaning of `BS_UNPACK` (R126, R135, R151). -/
def execBsUnpack (s : State) : Host.Outcome State Fault Refusal := .next (runCommand bsUnpackBody spoilBsUnpack s)

end Sys2Proof.Machine
end

