-- ==== Sys2Proof/Machine/Control.lean ====
section
/-! DEFINITION. The commands that code nothing: the meanings of `NOP` (R136) and `SRESET` (R137). -/

namespace Sys2Proof.Machine

/-- The meaning of `NOP` (R136): it completes. -/
def execNop (s : State) : Host.Outcome State Fault Refusal := .next (runCommand (fun t => .ok t) (fun t => t) s)

/-- The meaning of `SRESET` (R137): taken whatever `FAULT` is (R135). -/
def execSreset (s : State) : Host.Outcome State Fault Refusal := .next (resetRegs s)

end Sys2Proof.Machine
end

