-- ==== Sys2Proof/Machine/RangeCoder.lean ====
section
/-! DEFINITION. The range coder: the micro-steps of R85 to R89 and R93 to R95 on exact naturals (R80 to R83), and the
meanings of `RC_ENC` (R90, R91) and `RC_DEC` (R96, R97). -/

namespace Sys2Proof.Machine

/-- `range = HIGH - LOW + 1`, 33 bits wide (R81); computed where `LOW <= HIGH` holds (log 12). -/
def rangeOf (s : State) : Nat := s.regs.high.toNat - s.regs.low.toNat + 1

/-- `NARROW(i, k)` (R85). -/
def narrow (i k : Nat) (s : State) : Except Raise State :=
  let range := rangeOf s
  let loOff := range * mcumAt s i / s.regs.total.toNat
  let hiOff := range * (mcumAt s i + mfreqAt s i) / s.regs.total.toNat
  if hiOff = loOff then .error { cause := .rangeCollapse, info := BitVec.ofNat 32 k }
  else
    .ok (s.setBounds (BitVec.ofNat 32 (s.regs.low.toNat + loOff)) (BitVec.ofNat 32 (s.regs.low.toNat + hiOff - 1)))

/-- One shift of both bounds (R86, R95): bit 0 of `LOW` becomes 0, bit 0 of `HIGH` becomes 1. -/
def shiftBounds (s : State) : State :=
  s.setBounds (trunc32 (2 * s.regs.low.toNat)) (trunc32 (2 * s.regs.high.toNat) + 1)

/-- The test of the renormalization loops: `LOW[31] = HIGH[31]` (R86, R95). -/
def topBitsAgree (s : State) : Bool := s.regs.low.getLsbD 31 == s.regs.high.getLsbD 31

/-- `RENORM_ENC` (R86). The first argument bounds the iterations; the loop runs at most 32 times on any register
contents (R87), so 32 is exact (log 11). -/
def renormEnc : Nat → State → Except Raise State
  | 0, s => .ok s
  | n + 1, s =>
    if topBitsAgree s then
      match emit (s.regs.low.getLsbD 31) s with
      | .ok t => renormEnc n (shiftBounds t)
      | .error r => .error r
    else .ok s

/-- One iteration of `FLUSH` (R88). -/
def flushBit (_ : Nat) (s : State) : Except Raise State :=
  match emit (s.regs.low.getLsbD 31) s with
  | .ok t => .ok (t.setLow (trunc32 (2 * t.regs.low.toNat)))
  | .error r => .error r

/-- `FLUSH` (R88): the 32 bits of `LOW`, bit 31 first. -/
def flush (s : State) : Except Raise State := forLoop flushBit 32 0 s

/-- `LOOKUP(s, k)` (R89). -/
def lookupModel (sym : Word) (k : Nat) (s : State) : Except Raise Nat :=
  match modelEntry s sym with
  | some i => .ok i
  | none => .error { cause := .symbolMiss, info := BitVec.ofNat 32 k }

/-- The body of the symbol loop of `RC_ENC` (R90). -/
def encodeSymbol (k : Nat) (s : State) : Except Raise State := do
  let i ← lookupModel (memRead s .symmem k) k s
  let s1 ← narrow i k s
  let s2 ← renormEnc 32 s1
  .ok (s2.setSidx (BitVec.ofNat 32 (k + 1)))

/-- The bounds at the start of a range command (R90, R96), with `SIDX` cleared. -/
def startBounds (s : State) : State :=
  (s.setBounds 0 0xFFFFFFFF).setSidx 0

/-- `RC_ENC` (R90). -/
def rcEncBody (s : State) : Except Raise State := do
  checkSymcnt s
  let s0 := (startBounds s).setBitlen 0
  if s0.regs.symcnt.toNat = 0 then .ok s0
  else do
    checkModel s0
    let s1 ← forLoop encodeSymbol s0.regs.symcnt.toNat 0 s0
    flush s1

/-- `DEC_INIT` (R93): bit `p` of the sequence becomes bit `31 - p` of `VALUE`; `BPTR` becomes 32. -/
def decInit (s : State) : State :=
  s.setWindow (trunc32 (val ((List.range 32).map (getbit s)))) 32

/-- `scaled` of R94. -/
def scaledOf (s : State) : Nat :=
  ((s.regs.value.toNat - s.regs.low.toNat + 1) * s.regs.total.toNat - 1) / rangeOf s

/-- `DEC_SELECT(k)` (R94). -/
def decSelect (k : Nat) (s : State) : Except Raise Nat :=
  if s.regs.value.toNat < s.regs.low.toNat ∨ s.regs.high.toNat < s.regs.value.toNat then
    .error { cause := .desync, info := BitVec.ofNat 32 k }
  else
    match modelShare s (scaledOf s) with
    | some i => .ok i
    | none => .error { cause := .desync, info := BitVec.ofNat 32 k }

/-- `RENORM_DEC` (R95), with the bound of R87 on its iterations (log 11). -/
def renormDec : Nat → State → State
  | 0, s => s
  | n + 1, s =>
    if topBitsAgree s then
      renormDec n
        ((shiftBounds s).setWindow
          (trunc32 (2 * s.regs.value.toNat) + BitVec.ofNat 32 (getbit s s.regs.bptr.toNat).toNat)
          (s.regs.bptr + 1))
    else s

/-- The body of the symbol loop of `RC_DEC` (R96). -/
def decodeSymbol (k : Nat) (s : State) : Except Raise State := do
  let i ← decSelect k s
  let s1 ← narrow i k s
  let s2 := memWrite s1 .symmem k (memRead s1 .msym i)
  let s3 := renormDec 32 s2
  .ok (s3.setSidx (BitVec.ofNat 32 (k + 1)))

/-- `RC_DEC` (R96). -/
def rcDecBody (s : State) : Except Raise State := do
  checkSymcnt s
  checkBitlen s
  let s0 := decInit (startBounds s)
  if s0.regs.symcnt.toNat = 0 then .ok s0
  else do
    checkModel s0
    forLoop decodeSymbol s0.regs.symcnt.toNat 0 s0

/-- The meaning of `RC_ENC` (R90, R91, R135, R151). -/
def execRcEnc (s : State) : Host.Outcome State Fault Refusal := .next (runCommand rcEncBody spoilRcEnc s)

/-- The meaning of `RC_DEC` (R96, R97, R135, R151). -/
def execRcDec (s : State) : Host.Outcome State Fault Refusal := .next (runCommand rcDecBody spoilRcDec s)

end Sys2Proof.Machine
end

