-- ==== Sys2Proof/Machine/TableCoder.lean ====
section
/-! DEFINITION. The table coder under a fixed code table: the meanings of `BP_ENC` (R111) and `BP_DEC` (R112, R114). -/

namespace Sys2Proof.Machine

/-- One iteration of the codeword loop of `BP_ENC` (R111): bit `CLEN[j] - 1 - t` of `CBITS[j]`. -/
def emitCodeBit (j t : Nat) (s : State) : Except Raise State :=
  emit ((memRead s .cbits j).getLsbD (clenAt s j - 1 - t)) s

/-- The body of the symbol loop of `BP_ENC` (R111). -/
def packSymbol (k : Nat) (s : State) : Except Raise State :=
  match codeEntry s (memRead s .symmem k) with
  | none => .error { cause := .symbolMiss, info := BitVec.ofNat 32 k }
  | some j => do
    let s1 ← forLoop (emitCodeBit j) (clenAt s j) 0 s
    .ok (s1.setSidx (BitVec.ofNat 32 (k + 1)))

/-- `BP_ENC` (R111). -/
def bpEncBody (s : State) : Except Raise State := do
  checkSymcnt s
  let s0 := (s.setSidx 0).setBitlen 0
  checkTable s0
  forLoop packSymbol s0.regs.symcnt.toNat 0 s0

/-- The body of the bit loop of `BP_DEC` (R112). The pair is the state and the match buffer `BUF` (R38), which is
compared after each bit is appended and at no other time. -/
def unpackBit (p : Nat) (x : State × List Bool) : Except Raise (State × List Bool) :=
  let buf := x.2 ++ [getbit x.1 p]
  let s := x.1.setBptr (BitVec.ofNat 32 (p + 1))
  match codeMatch s buf with
  | none => .ok (s, buf)
  | some j =>
    if s.cfg.sMax ≤ s.regs.sidx.toNat then .error { cause := .overflow, info := 0 }
    else
      let t := memWrite s .symmem s.regs.sidx.toNat (memRead s .csym j)
      .ok (t.setSidx (s.regs.sidx + 1), [])

/-- `BP_DEC` (R112). -/
def bpDecBody (s : State) : Except Raise State := do
  checkBitlen s
  let s0 := (s.setSidx 0).setBptr 0
  checkTable s0
  let x ← forLoop unpackBit s0.regs.bitlen.toNat 0 (s0, [])
  .ok (x.1.setTail x.1.regs.sidx (BitVec.ofNat 32 x.2.length))

/-- The meaning of `BP_ENC` (R111, R135, R151). -/
def execBpEnc (s : State) : Host.Outcome State Fault Refusal := .next (runCommand bpEncBody spoilBpEnc s)

/-- The meaning of `BP_DEC` (R112, R114, R135, R151). -/
def execBpDec (s : State) : Host.Outcome State Fault Refusal := .next (runCommand bpDecBody spoilBpDec s)

end Sys2Proof.Machine
end

