-- ==== Sys2Proof/Machine/Dispatch.lean ====
section
/-! DEFINITION. One arm per command: what the host's write of the command's word to `CMD` does (R63, R135). -/

namespace Sys2Proof.Machine

def exec (i : Instr) (s : State) : Host.Outcome State Fault Refusal :=
  match i with
  | .nop => Sys2Proof.Machine.execNop s
  | .rcEnc => Sys2Proof.Machine.execRcEnc s
  | .rcDec => Sys2Proof.Machine.execRcDec s
  | .bpEnc => Sys2Proof.Machine.execBpEnc s
  | .bpDec => Sys2Proof.Machine.execBpDec s
  | .bsPack => Sys2Proof.Machine.execBsPack s
  | .bsUnpack => Sys2Proof.Machine.execBsUnpack s
  | .sreset => Sys2Proof.Machine.execSreset s

end Sys2Proof.Machine
end

