-- ==== Sys2Proof/Machine/Step.lean ====
section
/-! DEFINITION. One step: the port takes the host's next move and it has its full effect (R43, R48). With no move
left the engine is idle and keeps its state (R162). -/

namespace Sys2Proof.Machine

/-- One host move. A write to `CMD` issues its word (R18, R135): the command it selects runs, or the word is illegal;
either way the response is `ok`, after the command has ended. -/
def step (s : State) : Host.Outcome State Fault Refusal :=
  match fetch s with
  | none => .next s
  | some (op, s1) =>
    match commandWord s1.cfg op with
    | none => .next (plainMove op s1)
    | some w =>
      match decode w with
      | .ok i => answerOk (exec i s1)
      | .error _ => .next ((illegalCommand w s1).respond .ok)

/-- `s` with a write of the command word `w` (its bits above `nbits` zero) to `CMD` as the host's next move. -/
def State.withFetchWord (s : State) (nbits w : Nat) : State := putCommand nbits w s

end Sys2Proof.Machine
end

