-- ==== Sys2Proof/Machine/Script.lean ====
section
/-! DEFINITION. Host scripts (R70, R71): the transactions a line stands for, and the expansions of the
pseudo-instructions. A script is "a straight list of transactions" (R72). -/

namespace Sys2Proof.Machine

/-- The address of a register (R45, R70). -/
def Reg.addr (r : Reg) : Word := BitVec.ofNat 32 r.offset

/-- The address of element `i` of an array: "the array base plus 4 times the index" (R70). -/
def Arr.addr (a : Arr) (i : Nat) : Word := BitVec.ofNat 32 (a.base + 4 * i)

/-- `WR <register>, v` (R70). -/
def wrReg (r : Reg) (v : Nat) : HostOp := .write r.addr (BitVec.ofNat 32 v)

/-- `WR NAME[i], v` (R70). -/
def wrElem (a : Arr) (i v : Nat) : HostOp := .write (a.addr i) (BitVec.ofNat 32 v)

/-- `RD <register>` (R70). -/
def rdReg (r : Reg) : HostOp := .read r.addr

/-- `RD NAME[i]` (R70). -/
def rdElem (a : Arr) (i : Nat) : HostOp := .read (a.addr i)

/-- `CMD <mnemonic>` (R71). -/
def cmdOp (i : Instr) : HostOp := .write Reg.cmd.addr (encode i)

/-- Writes of the numbers `vs` to an array from index `k` on. -/
def wrFrom (a : Arr) : Nat → List Nat → List HostOp
  | _, [] => []
  | k, v :: vs => wrElem a k v :: wrFrom a (k + 1) vs

/-- `LDSYM` (R71), the text given by its codes. -/
def ldsym (codes : List Nat) : List HostOp := wrFrom .symmem 0 codes ++ [wrReg .symcnt codes.length]

/-- The writes of model entries from index `i` on, each (symbol, frequency, cumulative count). -/
def modelEntries : Nat → List (Nat × Nat × Nat) → List HostOp
  | _, [] => []
  | i, (s, f, c) :: rest => wrElem .msym i s :: wrElem .mfreq i f :: wrElem .mcum i c :: modelEntries (i + 1) rest

/-- `LDMODEL` (R71). -/
def ldmodel (entries : List (Nat × Nat × Nat)) (total : Nat) : List HostOp :=
  modelEntries 0 entries ++ [wrReg .mcount entries.length, wrReg .total total]

/-- The writes of code table entries from index `j` on, each (symbol, bit string). -/
def codeEntries : Nat → List (Nat × List Bool) → List HostOp
  | _, [] => []
  | j, (s, b) :: rest =>
    wrElem .csym j s :: wrElem .clen j b.length :: wrElem .cbits j (val b) :: codeEntries (j + 1) rest

/-- `LDCODE` (R71). -/
def ldcode (entries : List (Nat × List Bool)) : List HostOp :=
  codeEntries 0 entries ++ [wrReg .ccount entries.length]

/-- `LDBITS` (R71). -/
def ldbits (bytes : List Nat) (len : Nat) : List HostOp := wrFrom .bitmem 0 bytes ++ [wrReg .bitlen len]

/-- `LDFILE` (R71). -/
def ldfile (bytes : List Nat) : List HostOp := wrFrom .filemem 0 bytes ++ [wrReg .filelen bytes.length]

end Sys2Proof.Machine
end

