-- ==== Sys2Proof/Safety.lean ====
section
/-! DEFINITION. The terms claims are stated in: the invariant of the machine, what a memory or a file stands for as a
bit sequence (R65, R66), and the codings as functions on lists and exact naturals, with no memory, no registers and
no fixed widths, against which the commands are compared. No meaning uses anything of this file. -/

namespace Sys2Proof.Machine

/-! ### The invariant -/

/-- The flags, `ERR` and `ERRINFO` agree (R16, R20, R21, R145, R150): no code without `FAULT`; with `FAULT` a code of
R145, and `DONE` 0. -/
abbrev StatusOk (r : Regs) : Prop :=
  (r.fault = false → r.err = 0 ∧ r.errinfo = 0) ∧
  (r.fault = true → r.done = false ∧ 1 ≤ r.err.toNat ∧ r.err.toNat ≤ 9)

/-- Every table and memory has its canonical form and its elements fit their widths (R31, R32, R34 to R36, R45, R51). -/
abbrev ArraysOk (c : Config) (a : Arrays) (draws : Nat) : Prop :=
  (a.msym.wf (Arr.size c .msym) draws ∧ a.msym.fits c.symW) ∧
  a.mfreq.wf (Arr.size c .mfreq) draws ∧
  a.mcum.wf (Arr.size c .mcum) draws ∧
  (a.csym.wf (Arr.size c .csym) draws ∧ a.csym.fits c.symW) ∧
  a.clen.wf (Arr.size c .clen) draws ∧
  a.cbits.wf (Arr.size c .cbits) draws ∧
  (a.symmem.wf (Arr.size c .symmem) draws ∧ a.symmem.fits c.symW) ∧
  a.bitmem.wf (Arr.size c .bitmem) draws ∧
  a.filemem.wf (Arr.size c .filemem) draws

/-- What every step keeps: legal parameters, canonical memories holding nothing outside their arrays or wider than
their elements, and flags that agree. -/
abbrev Inv (s : State) : Prop := s.cfg.Ok ∧ ArraysOk s.cfg s.arr s.draws ∧ StatusOk s.regs

/-! ### What memories stand for -/

/-- The bit sequence: bits 0 to `BITLEN - 1` of the bit memory (R23, R65). -/
def bitSeq (s : State) : List Bool := (List.range s.regs.bitlen.toNat).map (getbit s)

/-- Bit `p` of the payload of the file memory, whatever `FILELEN` is (R66). -/
def fileBit (s : State) (p : Nat) : Bool := (memRead s .filemem (1 + p / 8)).getLsbD (7 - p % 8)

/-- The bit sequence a file image stands for: `8 * (FILELEN - 1) - pad` payload bits, none for the empty file (R66). -/
def fileSeq (s : State) : List Bool :=
  if s.regs.filelen.toNat = 0 then []
  else (List.range (8 * (s.regs.filelen.toNat - 1) - (memRead s .filemem 0).toNat)).map (fileBit s)

/-- A number as `w` bits, most significant first. -/
def natBits (w n : Nat) : List Bool := (List.range w).map (fun t => n.testBit (w - 1 - t))

/-- Array `a` reads the same in both states. -/
abbrev SameArray (a : Arr) (s t : State) : Prop := ∀ i, memRead t a i = memRead s a i

/-- Array `a` reads the same in both states from index `n` on. -/
abbrev SameFrom (a : Arr) (n : Nat) (s t : State) : Prop := ∀ i, n ≤ i → memRead t a i = memRead s a i

/-! ### The range coder on exact numbers -/

/-- The share `[cum, cum + freq)` of `total` of the interval `[b.1, b.2]`; none when it is empty (R85). -/
def refNarrow (total : Nat) (share : Nat × Nat) (b : Nat × Nat) : Option (Nat × Nat) :=
  let width := b.2 + 1 - b.1
  let below := width * share.1 / total
  let upto := width * (share.1 + share.2) / total
  if upto ≤ below then none else some (b.1 + below, b.1 + (upto - 1))

/-- Doubling the interval while it lies in one half of the range, with the bits that leave (R86). -/
def refRenorm : Nat → Nat × Nat → List Bool × (Nat × Nat)
  | 0, b => ([], b)
  | n + 1, (lo, hi) =>
    if hi < 2 ^ 31 then
      let r := refRenorm n (2 * lo, 2 * hi + 1)
      (false :: r.1, r.2)
    else if 2 ^ 31 ≤ lo then
      let r := refRenorm n (2 * (lo - 2 ^ 31), 2 * (hi - 2 ^ 31) + 1)
      (true :: r.1, r.2)
    else ([], (lo, hi))

/-- Coding a list of shares from the interval `b`: the bits that leave and the last interval; none on a collapse
(R90). -/
def refEncode (total : Nat) : List (Nat × Nat) → Nat × Nat → Option (List Bool × (Nat × Nat))
  | [], b => some ([], b)
  | share :: rest, b =>
    match refNarrow total share b with
    | none => none
    | some b1 =>
      let r := refRenorm 32 b1
      match refEncode total rest r.2 with
      | none => none
      | some (bits, b2) => some (r.1 ++ bits, b2)

/-- `shares` are the model's shares of the first symbols of the symbol memory, each of which is in the model (R89). -/
abbrev SharesOf (s : State) (shares : List (Nat × Nat)) : Prop :=
  shares.length ≤ s.regs.symcnt.toNat ∧
  ∀ k, k < shares.length → ∃ i, i < s.regs.mcount.toNat ∧
    memRead s .msym i = memRead s .symmem k ∧ shares[k]? = some (mcumAt s i, mfreqAt s i)

/-- The symbol at index `k` is in the model (R89). -/
abbrev InModel (s : State) (k : Nat) : Prop :=
  ∃ i, i < s.regs.mcount.toNat ∧ memRead s .msym i = memRead s .symmem k

/-- The shares of the model entries in use, in order (R31). -/
def modelShares (s : State) : List (Nat × Nat) :=
  (List.range s.regs.mcount.toNat).map (fun i => (mcumAt s i, mfreqAt s i))

/-- The number spelt by the 32 bits of `q` from position `n` on, where `q` is followed by zeros (R93, R95). -/
def windowAt (q : List Bool) (n : Nat) : Nat := val ((List.range 32).map (fun p => q.getD (n + p) false))

/-- Decoding a number of symbols from the sequence `q` followed by zeros: the indices of the entries that are selected,
the last interval and the number of bits shifted out, from the interval `b` with `n` bits shifted out; none where no
entry holds the window or its share is empty (R94 to R96). -/
def refDecode (total : Nat) (shares : List (Nat × Nat)) (q : List Bool) :
    Nat → Nat × Nat → Nat → Option (List Nat × (Nat × Nat) × Nat)
  | 0, b, n => some ([], b, n)
  | k + 1, b, n =>
    let scaled := ((windowAt q n + 1 - b.1) * total - 1) / (b.2 + 1 - b.1)
    match shares.findIdx? (fun share => decide (share.1 ≤ scaled) && decide (scaled < share.1 + share.2)) with
    | none => none
    | some i =>
      match refNarrow total (shares.getD i (0, 0)) b with
      | none => none
      | some b1 =>
        let r := refRenorm 32 b1
        match refDecode total shares q k r.2 (n + r.1.length) with
        | none => none
        | some (picked, b2, n2) => some (i :: picked, b2, n2)

/-! ### The table coder on lists -/

/-- The entry of the code table whose symbol is `sym` (R111). -/
abbrev CodesSymbol (s : State) (sym : Word) (j : Nat) : Prop :=
  j < s.regs.ccount.toNat ∧ memRead s .csym j = sym

/-- The symbol of the code table whose codeword is `q`, if there is one (R112). -/
def symbolOf (s : State) (q : List Bool) : Option Word :=
  ((List.range s.regs.ccount.toNat).find? (fun j => decide (codeword s j = q))).map (memRead s .csym)

/-- Greedy prefix matching (R112): the symbols whose codewords complete, in order, and the number of bits left over.
The second argument is the buffer. -/
def refGreedy (m : List Bool → Option Word) : List Bool → List Bool → List Word × Nat
  | buf, [] => ([], buf.length)
  | buf, b :: rest =>
    match m (buf ++ [b]) with
    | some sym =>
      let r := refGreedy m [] rest
      (sym :: r.1, r.2)
    | none => refGreedy m (buf ++ [b]) rest

/-! ### The bus -/

/-- The rows of R45's table below the register block, written out: base, elements, width of an element in bits. -/
def windows (c : Config) : List (Nat × Nat × Nat) :=
  [(0x00001000, c.mMax, c.symW), (0x00001400, c.mMax, 32), (0x00001800, c.mMax, 32),
   (0x00002000, c.ctMax, c.symW), (0x00002400, c.ctMax, 6), (0x00002800, c.ctMax, 32),
   (0x00100000, c.sMax, c.symW), (0x00200000, c.bMax, 8), (0x00400000, c.fMax, 8)]

/-- The offsets of R17's read-only rows, written out. -/
def readOnly : List Nat := [0x04, 0x08, 0x0C, 0x18, 0x1C, 0x30, 0x34, 0x38, 0x3C, 0x40, 0x44]

/-- The address is mapped (R17, R45): a register's offset or the aligned word of an element of an array. -/
abbrev Mapped (c : Config) (addr : Nat) : Prop :=
  (addr % 4 = 0 ∧ addr ≤ 0x44) ∨ ∃ row ∈ windows c, ∃ i, i < row.2.1 ∧ addr = row.1 + 4 * i

/-- A write gets `buserr` (R46): misaligned, unmapped, to a read-only register, or wider than the element. -/
abbrev WriteRefused (c : Config) (addr data : Nat) : Prop :=
  addr % 4 ≠ 0 ∨ ¬ Mapped c addr ∨ addr ∈ readOnly ∨
  ∃ row ∈ windows c, ∃ i, i < row.2.1 ∧ addr = row.1 + 4 * i ∧ 2 ^ row.2.2 ≤ data

/-! ### How a command ended -/

/-- The state shows a command that completed (R16, R135). -/
abbrev Completed (t : State) : Prop := t.regs.done = true ∧ t.regs.fault = false

/-- The state shows the fault `c` with detail `info` just entered (R150). -/
abbrev Raised (t : State) (c : Cause) (info : Word) : Prop :=
  t.regs.done = false ∧ t.regs.fault = true ∧ t.regs.err = c.code ∧ t.regs.errinfo = info

/-- Command `i` taken in state `s` enters the fault `c` with detail `info`. -/
abbrev Raises (i : Instr) (s : State) (c : Cause) (info : Word) : Prop :=
  ∃ t, exec i s = .next t ∧ Raised t c info

end Sys2Proof.Machine
end

