-- ==== Sys2Proof/Certificates/Slice0/Obligations.lean ====
section
/-! DEFINITION. The statements for the provers, each with the rules of spec/ it formalises. "Completed" and "Raised" are
those of Safety.lean. Where a statement needs `s.cfg.Ok`, that is the constraint R5 puts on the parameters. -/

open Sys2Proof Sys2Proof.Machine

/-! ### Command words and dispatch -/

/-- R63: the opcode map, word by word. -/
def Obligations.DecodeAcceptsExactlyTheOpcodeMap : Prop :=
  ∀ w : Word,
    (decode w = .ok .nop ↔ w = 0x00000000#32) ∧ (decode w = .ok .rcEnc ↔ w = 0x00000001#32) ∧
    (decode w = .ok .rcDec ↔ w = 0x00000002#32) ∧ (decode w = .ok .bpEnc ↔ w = 0x00000003#32) ∧
    (decode w = .ok .bpDec ↔ w = 0x00000004#32) ∧ (decode w = .ok .bsPack ↔ w = 0x00000005#32) ∧
    (decode w = .ok .bsUnpack ↔ w = 0x00000006#32) ∧ (decode w = .ok .sreset ↔ w = 0x00000007#32)

/-- R60, R63: decoding the word of a command gives the command back. -/
def Obligations.EncodedCommandsDecodeBack : Prop := ∀ i : Instr, i.wf = true ∧ decode (encode i) = .ok i

/-- R63: words of the opcode map, as the opcode table numbers them, decode to their commands. -/
def Obligations.SpelledWordsDecode : Prop :=
  decodeTableWord 32 0x00000001 = some .rcEnc ∧ decodeTableWord 32 0x00000004 = some .bpDec ∧
  decodeTableWord 32 0x00000005 = some .bsPack ∧ decodeTableWord 32 0x00000007 = some .sreset ∧
  decodeTableWord 32 0x00000107 = none ∧ decodeTableWord 32 0x00000008 = none

/-- R64 (with the reserved field of R60): an illegal word raises `ILLEGAL_CMD` with the word in `ERRINFO` and changes
nothing else; while `FAULT` is 1 it is ignored. -/
def Obligations.IllegalWordsRaiseIllegalCmd : Prop :=
  ∀ (s : State) (w : Word) (rest : List HostOp), s.host = .write 0 w :: rest →
    (w.extractLsb' 8 24 ≠ 0 ∨ 0x07 < (w.extractLsb' 0 8).toNat) →
    (s.regs.fault = false → step s = .next
      { s with
        host := rest
        responses := .ok :: s.responses
        regs := { s.regs with done := false, fault := true, err := 0x01, errinfo := w } }) ∧
    (s.regs.fault = true → step s = .next { s with host := rest, responses := .ok :: s.responses })

/-- R18, R135: a `CMD` write of a word that decodes to `i` is `exec i` on the state without that move, answered `ok`
once the command has ended, a fault included. -/
def Obligations.StepRunsTheDecodedCommand : Prop :=
  ∀ (s : State) (w : Word) (rest : List HostOp) (i : Instr), s.host = .write 0 w :: rest → decode w = .ok i →
    ∃ t, exec i { s with host := rest } = .next t ∧
      step s = .next { t with responses := .ok :: t.responses }

/-- R135, R46, R170, R162: no state stops the engine, whatever the host's next move is: a command, a read, a write, a
reset. That with no move left there is an idle step is the model's choice (log 5, DESIGN CHOICE), and that the model has
no stop at all is read from these rules (log 14, DEDUCED). -/
def Obligations.EveryStepAnswersANextState : Prop := ∀ s : State, ∃ t, step s = .next t

/-- R135: while `FAULT` is 1 every command but `SRESET` is ignored; it changes no state, not even `DONE`. -/
def Obligations.FaultIgnoresEveryCommandButSreset : Prop :=
  ∀ (s : State) (i : Instr), s.regs.fault = true → i ≠ .sreset → exec i s = .next s

/-- R16, R135, R149, R150: a command other than `SRESET` taken with `FAULT` 0 either completes, with `DONE` set and
`ERR` and `ERRINFO` as they were, or enters one fault, with `DONE` 0; a command that runs never raises
`ILLEGAL_CMD`. -/
def Obligations.CommandsCompleteOrFault : Prop :=
  ∀ (s : State) (i : Instr), s.regs.fault = false → i ≠ .sreset →
    ∃ t, exec i s = .next t ∧
      ((Completed t ∧ t.regs.err = s.regs.err ∧ t.regs.errinfo = s.regs.errinfo ∧ t.draws = s.draws) ∨
        ∃ c info, Raised t c info ∧ c ≠ .illegalCmd)

/-- R136: `NOP` sets `DONE` and does nothing else; while `FAULT` is 1 it is ignored. -/
def Obligations.NopSetsDoneOnly : Prop :=
  ∀ s : State,
    (s.regs.fault = false → exec .nop s = .next { s with regs := { s.regs with done := true } }) ∧
    (s.regs.fault = true → exec .nop s = .next s)

/-- R137: `SRESET` puts every register at its reset value and leaves the tables and memories, whatever `FAULT` is. -/
def Obligations.SresetRestoresEveryRegister : Prop :=
  ∀ s : State, exec .sreset s = .next
    { s with
      regs :=
        { done := false, fault := false, err := 0, errinfo := 0, symcnt := 0, bitlen := 0, filelen := 0, total := 0,
          mcount := 0, ccount := 0, resid := 0, low := 0, high := 0xFFFFFFFF, value := 0, bptr := 0, sidx := 0 } }

/-! ### Reset, and the engine at rest -/

/-- R39: what every register reads after reset. -/
def Obligations.ResetLeavesTheTabledValues : Prop :=
  (∀ r : Reg, readReg State.reset.regs r = if r = .high then 0xFFFFFFFF#32 else 0#32) ∧
  (∀ (a : Arr) (i : Nat), ∃ d, memRead State.reset a i =
    BitVec.ofNat 32 ((Config.freeAt d (a.base + 4 * i)).toNat % 2 ^ a.width State.reset.cfg))

/-- R170: reset puts every register at its reset value, and every element at a value drawn afresh: its draw is numbered
`s.draws`, which no earlier draw was. -/
def Obligations.ResetDrawsTheMemoriesAfresh : Prop :=
  ∀ (s : State) (rest : List HostOp), s.host = .reset :: rest → s.cfg.Ok →
    ∃ t, step s = .next t ∧ t.regs = Regs.reset ∧ t.cfg = s.cfg ∧ t.host = rest ∧ t.responses = s.responses ∧
      t.draws = s.draws + 1 ∧
      ∀ (a : Arr) (i : Nat),
        memRead t a i = BitVec.ofNat 32 ((Config.freeAt s.draws (a.base + 4 * i)).toNat % 2 ^ a.width s.cfg)

/-- R162: with no move of the host left, the engine keeps all its state (how a step then looks is the model's choice,
log 5). -/
def Obligations.IdleEngineKeepsItsState : Prop := ∀ s : State, s.host = [] → step s = .next s

/-- R171: straight after reset every command completes, each coding command as its empty-input case. -/
def Obligations.CommandsCompleteRightAfterReset : Prop :=
  ∀ s : State, s.regs = Regs.reset → s.cfg.Ok →
    (∀ i, i ≠ .sreset → ∃ t, exec i s = .next t ∧ Completed t ∧ t.regs.bitlen = 0 ∧ t.regs.symcnt = 0 ∧
      SameArray .symmem s t ∧ SameArray .bitmem s t) ∧
    exec .sreset s = .next s ∧
    ∃ t, exec .bsPack s = .next t ∧ t.regs.filelen = 1 ∧ memRead t .filemem 0 = 0

/-! ### The bus -/

/-- R46 (with R42, R44, R45, R17): which writes get `buserr` and change nothing; every other write gets `ok`. -/
def Obligations.WritesAreRefusedExactly : Prop :=
  ∀ (s : State) (addr data : Word) (rest : List HostOp), s.cfg.Ok → s.host = .write addr data :: rest →
    (WriteRefused s.cfg addr.toNat data.toNat →
      step s = .next { s with host := rest, responses := .buserr :: s.responses }) ∧
    (¬ WriteRefused s.cfg addr.toNat data.toNat →
      ∃ t, step s = .next t ∧ t.responses = .ok :: s.responses ∧ t.host = rest)

/-- R44, R46: a misaligned or unmapped read gets `buserr`; every other returns, at the offsets R17 gives, the register's
field (`CMD` reads 0, R18; `STATUS` as R19 lays it out; `ERR` is zero-extended, R20; `PADCNT` and `BITBYTES` are computed,
R24, R25), and at the bases R45 gives, the zero-extended element. No read changes any state of the engine. -/
def Obligations.ReadsReturnDataAndChangeNothing : Prop :=
  ∀ (s : State) (addr : Word) (rest : List HostOp), s.cfg.Ok → s.host = .read addr :: rest →
    let returns (v : Word) : Prop := step s = .next { s with host := rest, responses := .data v :: s.responses }
    ((addr.toNat % 4 ≠ 0 ∨ ¬ Mapped s.cfg addr.toNat) →
      step s = .next { s with host := rest, responses := .buserr :: s.responses }) ∧
    (addr = 0x00 → returns 0) ∧
    (addr = 0x04 → returns (BitVec.ofNat 32
      (s.regs.done.toNat + 2 * s.regs.fault.toNat + 4 * (decide (s.regs.resid ≠ 0)).toNat))) ∧
    (addr = 0x08 → returns (BitVec.ofNat 32 s.regs.err.toNat)) ∧
    (addr = 0x0C → returns s.regs.errinfo) ∧
    (addr = 0x10 → returns s.regs.symcnt) ∧
    (addr = 0x14 → returns s.regs.bitlen) ∧
    (addr = 0x18 → returns (BitVec.ofNat 32 ((8 - s.regs.bitlen.toNat % 8) % 8))) ∧
    (addr = 0x1C → returns (BitVec.ofNat 32 ((s.regs.bitlen.toNat + 7) / 8))) ∧
    (addr = 0x20 → returns s.regs.filelen) ∧
    (addr = 0x24 → returns s.regs.total) ∧
    (addr = 0x28 → returns s.regs.mcount) ∧
    (addr = 0x2C → returns s.regs.ccount) ∧
    (addr = 0x30 → returns s.regs.resid) ∧
    (addr = 0x34 → returns s.regs.low) ∧
    (addr = 0x38 → returns s.regs.high) ∧
    (addr = 0x3C → returns s.regs.value) ∧
    (addr = 0x40 → returns s.regs.bptr) ∧
    (addr = 0x44 → returns s.regs.sidx) ∧
    (∀ i, i < s.cfg.mMax → addr.toNat = 0x00001000 + 4 * i → returns (memRead s .msym i)) ∧
    (∀ i, i < s.cfg.mMax → addr.toNat = 0x00001400 + 4 * i → returns (memRead s .mfreq i)) ∧
    (∀ i, i < s.cfg.mMax → addr.toNat = 0x00001800 + 4 * i → returns (memRead s .mcum i)) ∧
    (∀ i, i < s.cfg.ctMax → addr.toNat = 0x00002000 + 4 * i → returns (memRead s .csym i)) ∧
    (∀ i, i < s.cfg.ctMax → addr.toNat = 0x00002400 + 4 * i → returns (memRead s .clen i)) ∧
    (∀ i, i < s.cfg.ctMax → addr.toNat = 0x00002800 + 4 * i → returns (memRead s .cbits i)) ∧
    (∀ i, i < s.cfg.sMax → addr.toNat = 0x00100000 + 4 * i → returns (memRead s .symmem i)) ∧
    (∀ i, i < s.cfg.bMax → addr.toNat = 0x00200000 + 4 * i → returns (memRead s .bitmem i)) ∧
    (∀ i, i < s.cfg.fMax → addr.toNat = 0x00400000 + 4 * i → returns (memRead s .filemem i))

/-- R44, R45, R48: a write of data that fits stores it in its element, where it is read back, and changes no other
element and no register. -/
def Obligations.WrittenElementsReadBack : Prop :=
  ∀ (s : State) (a : Arr) (i : Nat) (addr data : Word) (rest : List HostOp), s.cfg.Ok →
    i < a.size s.cfg → addr.toNat = a.base + 4 * i → data.toNat < 2 ^ a.width s.cfg →
    s.host = .write addr data :: rest →
    ∃ t, step s = .next t ∧ memRead t a i = data ∧ t.regs = s.regs ∧ t.cfg = s.cfg ∧
      ∀ (b : Arr) (j : Nat), (b ≠ a ∨ j ≠ i) → memRead t b j = memRead s b j

/-- R17: a write to each of the six `RW` registers stores any 32-bit value there and changes nothing else. -/
def Obligations.WritableRegistersStore : Prop :=
  ∀ (s : State) (addr v : Word) (rest : List HostOp), s.host = .write addr v :: rest →
    let after (r : Regs) : Host.Outcome State Fault Refusal :=
      .next { s with host := rest, responses := .ok :: s.responses, regs := r }
    (addr = 0x10 → step s = after { s.regs with symcnt := v }) ∧
    (addr = 0x14 → step s = after { s.regs with bitlen := v }) ∧
    (addr = 0x20 → step s = after { s.regs with filelen := v }) ∧
    (addr = 0x24 → step s = after { s.regs with total := v }) ∧
    (addr = 0x28 → step s = after { s.regs with mcount := v }) ∧
    (addr = 0x2C → step s = after { s.regs with ccount := v })

/-- R19 (with R16 for `TRUNC`): the fields of `STATUS`. -/
def Obligations.StatusWordFields : Prop :=
  ∀ r : Regs, (readReg r .status).getLsbD 0 = r.done ∧ (readReg r .status).getLsbD 1 = r.fault ∧
    (readReg r .status).getLsbD 2 = decide (r.resid ≠ 0) ∧
    ∀ j, 3 ≤ j → (readReg r .status).getLsbD j = false

/-- R24, R25: the derived registers. -/
def Obligations.DerivedCountsFollowBitlen : Prop :=
  ∀ r : Regs, (readReg r .padcnt).toNat = (8 - r.bitlen.toNat % 8) % 8 ∧
    (readReg r .bitbytes).toNat = (r.bitlen.toNat + 7) / 8 ∧ (readReg r .bitbytes).toNat ≤ 2 ^ 29

/-! ### Entry checks and table checks -/

/-- R147: which counts each command checks, in which order, with which detail. -/
def Obligations.EntryChecksRaiseBadLength : Prop :=
  ∀ s : State, s.regs.fault = false →
    (∀ i, i = .rcEnc ∨ i = .bpEnc →
      ((s.cfg.sMax < s.regs.symcnt.toNat → Raises i s .badLength 0) ∧
        (s.regs.symcnt.toNat ≤ s.cfg.sMax → ∀ info, ¬ Raises i s .badLength info))) ∧
    (s.cfg.sMax < s.regs.symcnt.toNat → Raises .rcDec s .badLength 0) ∧
    (s.regs.symcnt.toNat ≤ s.cfg.sMax → 8 * s.cfg.bMax < s.regs.bitlen.toNat → Raises .rcDec s .badLength 1) ∧
    (s.regs.symcnt.toNat ≤ s.cfg.sMax → s.regs.bitlen.toNat ≤ 8 * s.cfg.bMax →
      ∀ info, ¬ Raises .rcDec s .badLength info) ∧
    (∀ i, i = .bpDec ∨ i = .bsPack →
      ((8 * s.cfg.bMax < s.regs.bitlen.toNat → Raises i s .badLength 1) ∧
        (s.regs.bitlen.toNat ≤ 8 * s.cfg.bMax → ∀ info, ¬ Raises i s .badLength info))) ∧
    (s.cfg.fMax < s.regs.filelen.toNat → Raises .bsUnpack s .badLength 2) ∧
    (s.regs.filelen.toNat ≤ s.cfg.fMax → ∀ info, ¬ Raises .bsUnpack s .badLength info)

/-- R84: the model is checked after the lengths and when `SYMCNT >= 1`; with `SYMCNT = 0` the command completes
whatever the model is. -/
def Obligations.ModelCheckGuardsTheRangeCommands : Prop :=
  ∀ s : State, s.regs.fault = false → s.regs.symcnt.toNat ≤ s.cfg.sMax →
    ∀ i, (i = .rcEnc ∨ (i = .rcDec ∧ s.regs.bitlen.toNat ≤ 8 * s.cfg.bMax)) →
      (1 ≤ s.regs.symcnt.toNat → ¬ ModelOk s → Raises i s .modelInvalid 0) ∧
      (1 ≤ s.regs.symcnt.toNat → ModelOk s → ∀ info, ¬ Raises i s .modelInvalid info) ∧
      (s.regs.symcnt.toNat = 0 → ∃ t, exec i s = .next t ∧ Completed t)

/-- R110: the table is checked after the length, for every count, 0 included. -/
def Obligations.TableCheckGuardsTheTableCommands : Prop :=
  ∀ s : State, s.regs.fault = false →
    ∀ i, ((i = .bpEnc ∧ s.regs.symcnt.toNat ≤ s.cfg.sMax) ∨ (i = .bpDec ∧ s.regs.bitlen.toNat ≤ 8 * s.cfg.bMax)) →
      (¬ CodeOk s → Raises i s .tableInvalid 0) ∧ (CodeOk s → ∀ info, ¬ Raises i s .tableInvalid info) ∧
      (s.regs.ccount = 0 → CodeOk s)

/-- R145, column "Raised by", and R96: which faults each command can enter. -/
def Obligations.EachCommandRaisesItsOwnFaults : Prop :=
  ∀ (s : State) (c : Cause) (info : Word), s.regs.fault = false →
    (Raises .rcEnc s c info →
      c = .badLength ∨ c = .modelInvalid ∨ c = .symbolMiss ∨ c = .rangeCollapse ∨ c = .overflow) ∧
    (Raises .rcDec s c info → c = .badLength ∨ c = .modelInvalid ∨ c = .rangeCollapse ∨ c = .desync) ∧
    (Raises .bpEnc s c info → c = .badLength ∨ c = .tableInvalid ∨ c = .symbolMiss ∨ c = .overflow) ∧
    (Raises .bpDec s c info → c = .badLength ∨ c = .tableInvalid ∨ c = .overflow) ∧
    (Raises .bsPack s c info → c = .badLength ∨ c = .overflow) ∧
    (Raises .bsUnpack s c info → c = .badLength ∨ c = .format ∨ c = .overflow) ∧
    ¬ Raises .nop s c info

/-! ### The micro-steps of the range coder -/

/-- R85: the new bounds, both from the old `LOW`; the collapse; the facts a model can rely on; no collapse while
`range >= TOTAL`. -/
def Obligations.NarrowTakesTheShare : Prop :=
  ∀ (s : State) (i k : Nat), ModelOk s → s.regs.low.toNat ≤ s.regs.high.toNat → i < s.regs.mcount.toNat →
    let range := s.regs.high.toNat - s.regs.low.toNat + 1
    let lo := range * mcumAt s i / s.regs.total.toNat
    let hi := range * (mcumAt s i + mfreqAt s i) / s.regs.total.toNat
    lo ≤ hi ∧ hi ≤ range ∧
    (hi = lo → narrow i k s = .error { cause := .rangeCollapse, info := BitVec.ofNat 32 k }) ∧
    (s.regs.total.toNat ≤ range → hi ≠ lo) ∧
    (hi ≠ lo → ∃ t, narrow i k s = .ok t ∧ t.regs.low.toNat = s.regs.low.toNat + lo ∧
      t.regs.high.toNat + 1 = s.regs.low.toNat + hi ∧
      s.regs.low.toNat ≤ t.regs.low.toNat ∧ t.regs.low.toNat ≤ t.regs.high.toNat ∧
      t.regs.high.toNat ≤ s.regs.high.toNat ∧
      t = { s with regs := { s.regs with low := t.regs.low, high := t.regs.high } })

/-- R87: both renormalization loops end within 32 iterations on any register contents, with the top bits different;
bounds in order stay in order; the loop runs 32 times exactly when the bounds are equal. -/
def Obligations.RenormalizationEndsWithinThirtyTwo : Prop :=
  ∀ (s : State) (n : Nat),
    renormEnc (32 + n) s = renormEnc 32 s ∧ renormDec (32 + n) s = renormDec 32 s ∧
    (∀ t, renormEnc 32 s = .ok t → t.regs.low.getLsbD 31 ≠ t.regs.high.getLsbD 31 ∧
      (s.regs.low.toNat ≤ s.regs.high.toNat → t.regs.low.toNat < 2 ^ 31 ∧ 2 ^ 31 ≤ t.regs.high.toNat)) ∧
    ((renormDec 32 s).regs.low.getLsbD 31 ≠ (renormDec 32 s).regs.high.getLsbD 31) ∧
    (s.regs.low.toNat ≤ s.regs.high.toNat →
      (renormDec 32 s).regs.low.toNat < 2 ^ 31 ∧ 2 ^ 31 ≤ (renormDec 32 s).regs.high.toNat) ∧
    ((renormDec 32 s).regs.bptr = s.regs.bptr + 32 ↔ s.regs.low = s.regs.high)

/-- R88: the flush emits the 32 bits of `LOW`, bit 31 first, leaves `LOW` 0 and neither reads nor writes `HIGH`; it
raises `OVERFLOW` when they do not fit. -/
def Obligations.FlushAppendsLow : Prop :=
  ∀ s : State, s.cfg.bMax ≤ 2 ^ 19 →
    (s.regs.bitlen.toNat + 32 ≤ 8 * s.cfg.bMax →
      ∃ t, flush s = .ok t ∧ bitSeq t = bitSeq s ++ natBits 32 s.regs.low.toNat ∧
        t.regs = { s.regs with low := 0, bitlen := s.regs.bitlen + 32 } ∧
        ∀ h : Word, flush (s.setBounds s.regs.low h) = .ok (t.setBounds t.regs.low h)) ∧
    (8 * s.cfg.bMax < s.regs.bitlen.toNat + 32 → flush s = .error { cause := .overflow, info := 0 })

/-- R93: bit `p` of the sequence becomes bit `31 - p` of `VALUE`, positions at or after `BITLEN` read 0, and `BPTR`
becomes 32. -/
def Obligations.DecInitLoadsTheWindow : Prop :=
  ∀ s : State, (∀ p, p < 32 → (decInit s).regs.value.getLsbD (31 - p) = getbit s p) ∧
    (∀ p, p < 32 → s.regs.bitlen.toNat ≤ p → (decInit s).regs.value.getLsbD (31 - p) = false) ∧
    decInit s = { s with regs := { s.regs with value := (decInit s).regs.value, bptr := 32 } }

/-- R94, R98 (2): with the window inside the bounds and a valid model, `scaled` is below `TOTAL` and `DEC_SELECT` finds
the one entry whose interval holds it. -/
def Obligations.DecSelectFindsTheOneEntry : Prop :=
  ∀ (s : State) (k : Nat), ModelOk s → s.regs.low.toNat ≤ s.regs.value.toNat →
    s.regs.value.toNat ≤ s.regs.high.toNat →
    let scaled := ((s.regs.value.toNat - s.regs.low.toNat + 1) * s.regs.total.toNat - 1) /
      (s.regs.high.toNat - s.regs.low.toNat + 1)
    scaled < s.regs.total.toNat ∧
    ∃ i, decSelect k s = .ok i ∧ i < s.regs.mcount.toNat ∧
      ∀ j, j < s.regs.mcount.toNat → (mcumAt s j ≤ scaled ∧ scaled < mcumAt s j + mfreqAt s j ↔ j = i)

/-! ### `RC_ENC` and `RC_DEC` -/

/-- R91 (a): an empty input completes with no bit and no flush, the model neither checked nor read. -/
def Obligations.RcEncOfNothingIsEmpty : Prop :=
  ∀ s : State, s.regs.fault = false → s.regs.symcnt = 0 → exec .rcEnc s = .next
    { s with regs := { s.regs with done := true, bitlen := 0, low := 0, high := 0xFFFFFFFF, sidx := 0 } }

/-- R90: on every input whose coding by exact interval arithmetic does not collapse and fits the bit memory, `RC_ENC`
completes; the bit sequence is the bits that coding shifts out, followed by the 32 bits of the last lower bound. -/
def Obligations.RcEncWritesTheReferenceBits : Prop :=
  ∀ (s : State) (shares : List (Nat × Nat)) (bits : List Bool) (last : Nat × Nat), s.cfg.Ok →
    s.regs.fault = false → 1 ≤ s.regs.symcnt.toNat → s.regs.symcnt.toNat ≤ s.cfg.sMax → ModelOk s →
    shares.length = s.regs.symcnt.toNat →
    (∀ k, k < s.regs.symcnt.toNat → ∃ i, i < s.regs.mcount.toNat ∧
      memRead s .msym i = memRead s .symmem k ∧ shares[k]? = some (mcumAt s i, mfreqAt s i)) →
    refEncode s.regs.total.toNat shares (0, 2 ^ 32 - 1) = some (bits, last) →
    bits.length + 32 ≤ 8 * s.cfg.bMax →
    ∃ t, exec .rcEnc s = .next t ∧ Completed t ∧ bitSeq t = bits ++ natBits 32 last.1 ∧
      t.regs.bitlen.toNat = bits.length + 32 ∧ t.regs.low = 0 ∧ t.regs.high.toNat = last.2 ∧
      t.regs.sidx = s.regs.symcnt

/-- R91 (b): under a one-entry model every input gives 32 zero bits. -/
def Obligations.RcEncOfOneEntryModelIsZeros : Prop :=
  ∀ s : State, s.cfg.Ok → 4 ≤ s.cfg.bMax → s.regs.fault = false → s.regs.mcount.toNat = 1 → ModelOk s →
    1 ≤ s.regs.symcnt.toNat → s.regs.symcnt.toNat ≤ s.cfg.sMax →
    (∀ k, k < s.regs.symcnt.toNat → memRead s .symmem k = memRead s .msym 0) →
    ∃ t, exec .rcEnc s = .next t ∧ Completed t ∧ t.regs.bitlen = 32 ∧
      (∀ b, b < 4 → memRead t .bitmem b = 0) ∧ t.regs.low = 0 ∧ t.regs.high = 0xFFFFFFFF ∧
      t.regs.sidx = s.regs.symcnt

/-- R89, R85, R149: what a fault of `RC_ENC` tells. The detail of `SYMBOL_MISS` is the index of the first symbol that is
in no model entry, and the symbols before it code without collapse and fit; the detail of `RANGE_COLLAPSE` is the index
of the symbol at which coding by exact interval arithmetic collapses, and the symbols before it code without collapse
and fit. The forward direction is `RcEncRaisesTheFirstFault`. -/
def Obligations.RcEncFaultsNameTheSymbol : Prop :=
  ∀ (s : State) (info : Word), s.cfg.Ok → s.regs.fault = false →
    (Raises .rcEnc s .symbolMiss info → info.toNat < s.regs.symcnt.toNat ∧ ¬ InModel s info.toNat ∧
      ∃ shares bits last, SharesOf s shares ∧ shares.length = info.toNat ∧
        refEncode s.regs.total.toNat shares (0, 2 ^ 32 - 1) = some (bits, last) ∧ bits.length ≤ 8 * s.cfg.bMax) ∧
    (Raises .rcEnc s .rangeCollapse info → info.toNat < s.regs.symcnt.toNat ∧
      ∃ shares share bits last, SharesOf s (shares ++ [share]) ∧ shares.length = info.toNat ∧
        refEncode s.regs.total.toNat shares (0, 2 ^ 32 - 1) = some (bits, last) ∧ bits.length ≤ 8 * s.cfg.bMax ∧
        refEncode s.regs.total.toNat (shares ++ [share]) (0, 2 ^ 32 - 1) = none)

/-- R98: with legal lengths and a valid model `RC_DEC` completes on every bit sequence: neither `DESYNC` nor
`RANGE_COLLAPSE` is ever raised, and the window ends inside the bounds. -/
def Obligations.RcDecNeverFaultsOnAValidModel : Prop :=
  ∀ s : State, s.cfg.Ok → s.regs.fault = false → s.regs.symcnt.toNat ≤ s.cfg.sMax →
    s.regs.bitlen.toNat ≤ 8 * s.cfg.bMax → (s.regs.symcnt.toNat = 0 ∨ ModelOk s) →
    ∃ t, exec .rcDec s = .next t ∧ Completed t ∧ t.regs.sidx = s.regs.symcnt ∧
      t.regs.low.toNat ≤ t.regs.value.toNat ∧ t.regs.value.toNat ≤ t.regs.high.toNat ∧
      32 ≤ t.regs.bptr.toNat ∧ t.regs.bptr.toNat ≤ 32 * s.regs.symcnt.toNat + 32 ∧
      ∀ k, k < s.regs.symcnt.toNat → ∃ i, i < s.regs.mcount.toNat ∧ memRead t .symmem k = memRead s .msym i

/-- R99: the round trip. `u` is any state with the same model and count whose bit sequence begins with the encoder's
output; decoding gives the encoder's symbols, and ends with the encoder's bounds before its flush. -/
def Obligations.RcRoundTrip : Prop :=
  ∀ s t u : State, s.cfg.Ok → s.regs.fault = false → 1 ≤ s.regs.symcnt.toNat →
    exec .rcEnc s = .next t → Completed t →
    u.regs.fault = false → u.cfg = s.cfg → u.regs.symcnt = s.regs.symcnt → u.regs.mcount = s.regs.mcount →
    u.regs.total = s.regs.total →
    (∀ i, i < s.regs.mcount.toNat → memRead u .msym i = memRead s .msym i ∧
      memRead u .mfreq i = memRead s .mfreq i ∧ memRead u .mcum i = memRead s .mcum i) →
    u.regs.bitlen.toNat ≤ 8 * u.cfg.bMax → bitSeq t <+: bitSeq u →
    ∃ v, exec .rcDec u = .next v ∧ Completed v ∧
      (∀ k, k < s.regs.symcnt.toNat → memRead v .symmem k = memRead s .symmem k) ∧
      v.regs.bptr = t.regs.bitlen ∧ v.regs.value = v.regs.low ∧ v.regs.high = t.regs.high ∧
      natBits 32 v.regs.low.toNat = (bitSeq t).drop (t.regs.bitlen.toNat - 32)

/-- R100: `RC_ENC` can collapse on a valid model with a small total and symbols all of the model. -/
def Obligations.RangeCollapseIsReachable : Prop :=
  ∃ s : State, s.cfg.Ok ∧ s.regs.fault = false ∧ ModelOk s ∧ s.regs.total = 17 ∧ s.regs.symcnt = 8 ∧
    (∀ k, k < 8 → memRead s .symmem k = memRead s .msym 2) ∧ Raises .rcEnc s .rangeCollapse 7

/-- R101: the size of the encoder's output, and room enough that it never overflows. -/
def Obligations.RcEncOutputSize : Prop :=
  ∀ s t : State, s.cfg.Ok → s.regs.fault = false → exec .rcEnc s = .next t →
    (1 ≤ s.regs.symcnt.toNat → Completed t →
      32 ≤ t.regs.bitlen.toNat ∧ t.regs.bitlen.toNat ≤ 32 * s.regs.symcnt.toNat + 32) ∧
    (4 * s.cfg.sMax + 4 ≤ s.cfg.bMax → ∀ info, ¬ Raised t .overflow info)

/-! ### `BP_ENC` and `BP_DEC` -/

/-- R111: `codes` are the entries of the first symbols, as far as they have one. If all symbols have one, the output is
the concatenation of their codewords, or `OVERFLOW` when it does not fit; if the next symbol has none, the fault is
`SYMBOL_MISS` with its index. -/
def Obligations.BpEncConcatenatesCodewords : Prop :=
  ∀ (s : State) (codes : List Nat), s.cfg.Ok → s.regs.fault = false → s.regs.symcnt.toNat ≤ s.cfg.sMax → CodeOk s →
    codes.length ≤ s.regs.symcnt.toNat →
    (∀ k j, codes[k]? = some j → CodesSymbol s (memRead s .symmem k) j) →
    let out := codes.flatMap (codeword s)
    (out.length ≤ 8 * s.cfg.bMax → codes.length = s.regs.symcnt.toNat →
      ∃ t, exec .bpEnc s = .next t ∧ Completed t ∧ bitSeq t = out ∧ t.regs.sidx = s.regs.symcnt) ∧
    (8 * s.cfg.bMax < out.length → Raises .bpEnc s .overflow 0) ∧
    (out.length ≤ 8 * s.cfg.bMax → codes.length < s.regs.symcnt.toNat →
      (∀ j, ¬ CodesSymbol s (memRead s .symmem codes.length) j) →
      Raises .bpEnc s .symbolMiss (BitVec.ofNat 32 codes.length))

/-- R112: the output of `BP_DEC` is that of greedy prefix matching, `RESID` counts the bits left over, and `OVERFLOW` is
raised when more than `S_MAX` codewords complete. -/
def Obligations.BpDecIsGreedyMatching : Prop :=
  ∀ s : State, s.cfg.Ok → s.regs.fault = false → s.regs.bitlen.toNat ≤ 8 * s.cfg.bMax → CodeOk s →
    let out := refGreedy (symbolOf s) [] (bitSeq s)
    (out.1.length ≤ s.cfg.sMax →
      ∃ t, exec .bpDec s = .next t ∧ Completed t ∧ t.regs.symcnt.toNat = out.1.length ∧
        t.regs.sidx = t.regs.symcnt ∧ (∀ k w, out.1[k]? = some w → memRead t .symmem k = w) ∧
        t.regs.resid.toNat = out.2 ∧ t.regs.trunc = decide (out.2 ≠ 0) ∧ t.regs.bptr = s.regs.bitlen) ∧
    (s.cfg.sMax < out.1.length → Raises .bpDec s .overflow 0)

/-- R113: under `CodeOk` a buffer matches an entry exactly when it is its codeword, and a symbol selects an entry
exactly when it is its symbol; so neither match depends on the order of the entries. -/
def Obligations.MatchesAreUnique : Prop :=
  ∀ s : State, CodeOk s →
    (∀ (q : List Bool) (j : Nat), codeMatch s q = some j ↔ j < s.regs.ccount.toNat ∧ codeword s j = q) ∧
    (∀ (sym : Word) (j : Nat), codeEntry s sym = some j ↔ CodesSymbol s sym j)

/-- R114 (b), (c): an empty table, or one entry with the empty codeword, matches nothing: every bit is left over. -/
def Obligations.BpDecWithoutCodewordsLeavesEveryBit : Prop :=
  ∀ s : State, s.cfg.Ok → s.regs.fault = false → s.regs.bitlen.toNat ≤ 8 * s.cfg.bMax → CodeOk s →
    (s.regs.ccount = 0 ∨ (s.regs.ccount = 1 ∧ clenAt s 0 = 0)) →
    ∃ t, exec .bpDec s = .next t ∧ Completed t ∧ t.regs.symcnt = 0 ∧ t.regs.resid = s.regs.bitlen ∧
      SameArray .symmem s t

/-- R115: the round trip of the table coder, for symbols whose codewords are not empty. -/
def Obligations.BpRoundTrip : Prop :=
  ∀ s t u : State, s.cfg.Ok → s.regs.fault = false → exec .bpEnc s = .next t → Completed t →
    (∀ k j, k < s.regs.symcnt.toNat → CodesSymbol s (memRead s .symmem k) j → 1 ≤ clenAt s j) →
    u.regs.fault = false → u.cfg = s.cfg → u.regs.ccount = s.regs.ccount →
    (∀ j, j < s.regs.ccount.toNat → memRead u .csym j = memRead s .csym j ∧
      memRead u .clen j = memRead s .clen j ∧ memRead u .cbits j = memRead s .cbits j) →
    bitSeq u = bitSeq t →
    ∃ v, exec .bpDec u = .next v ∧ Completed v ∧ v.regs.symcnt = s.regs.symcnt ∧ v.regs.resid = 0 ∧
      ∀ k, k < s.regs.symcnt.toNat → memRead v .symmem k = memRead s .symmem k

/-- R33, R113: permuting the entries of the code table in use changes no command's result: whether it completes, with
what outputs, and which fault it raises. That the unspecified outputs of a command that faults (R151) are equal too is
no rule of the spec: both runs start from the same draw counter, so they make the same draw of the model's one free
function (log 1, DESIGN CHOICE). -/
def Obligations.CodeTableOrderDoesNotMatter : Prop :=
  ∀ (s : State) (csym : Memory 32) (clen : Memory 6) (cbits : Memory 32) (perm : Nat → Nat),
    let u : State := { s with arr := { s.arr with csym := csym, clen := clen, cbits := cbits } }
    (∀ j, j < s.regs.ccount.toNat → perm j < s.regs.ccount.toNat) →
    (∀ j k, j < s.regs.ccount.toNat → k < s.regs.ccount.toNat → perm j = perm k → j = k) →
    (∀ j, j < s.regs.ccount.toNat → memRead u .csym j = memRead s .csym (perm j) ∧
      memRead u .clen j = memRead s .clen (perm j) ∧ memRead u .cbits j = memRead s .cbits (perm j)) →
    ∀ (i : Instr) (t : State), exec i s = .next t →
      exec i u = .next { t with arr := { t.arr with csym := csym, clen := clen, cbits := cbits } }

/-- R116: the sizes of the table coder's outputs, and room enough that `BP_ENC` never overflows. -/
def Obligations.TableCoderOutputSizes : Prop :=
  ∀ s t : State, s.cfg.Ok → s.regs.fault = false →
    (exec .bpEnc s = .next t → Completed t →
      t.regs.bitlen.toNat ≤ s.cfg.cwMax * s.regs.symcnt.toNat ∧ s.cfg.cwMax * s.regs.symcnt.toNat ≤ 32 * s.cfg.sMax) ∧
    (exec .bpEnc s = .next t → 4 * s.cfg.sMax ≤ s.cfg.bMax → ∀ info, ¬ Raised t .overflow info) ∧
    (exec .bpDec s = .next t → Completed t → t.regs.symcnt.toNat ≤ s.regs.bitlen.toNat)

/-! ### `BS_PACK` and `BS_UNPACK` -/

/-- R125: the file `BS_PACK` writes: the header, the sequence, zero pad bits; `OVERFLOW` when it does not fit. -/
def Obligations.BsPackWritesTheFile : Prop :=
  ∀ s : State, s.cfg.Ok → s.regs.fault = false → s.regs.bitlen.toNat ≤ 8 * s.cfg.bMax →
    let n := (s.regs.bitlen.toNat + 7) / 8
    (1 + n ≤ s.cfg.fMax →
      ∃ t, exec .bsPack s = .next t ∧ Completed t ∧ t.regs.filelen.toNat = 1 + n ∧
        (memRead t .filemem 0).toNat = (8 - s.regs.bitlen.toNat % 8) % 8 ∧ fileSeq t = bitSeq s ∧
        ∀ p, s.regs.bitlen.toNat ≤ p → p < 8 * n → fileBit t p = false) ∧
    (s.cfg.fMax < 1 + n → Raises .bsPack s .overflow 0)

/-- R126: what `BS_UNPACK` makes of a file, and which headers it refuses. -/
def Obligations.BsUnpackReadsTheFile : Prop :=
  ∀ s : State, s.cfg.Ok → s.regs.fault = false → s.regs.filelen.toNat ≤ s.cfg.fMax →
    let pad := memRead s .filemem 0
    let n := s.regs.filelen.toNat - 1
    (s.regs.filelen = 0 → exec .bsUnpack s = .next { s with regs := { s.regs with done := true, bitlen := 0 } }) ∧
    (1 ≤ s.regs.filelen.toNat → pad.toNat ≤ 7 → ¬ (n = 0 ∧ 0 < pad.toNat) → n ≤ s.cfg.bMax →
      ∃ t, exec .bsUnpack s = .next t ∧ Completed t ∧ t.regs.bitlen.toNat = 8 * n - pad.toNat ∧
        bitSeq t = fileSeq s ∧ ∀ b, b < n → memRead t .bitmem b = memRead s .filemem (1 + b)) ∧
    (1 ≤ s.regs.filelen.toNat → (7 < pad.toNat ∨ (n = 0 ∧ 0 < pad.toNat)) → Raises .bsUnpack s .format pad) ∧
    (1 ≤ s.regs.filelen.toNat → pad.toNat ≤ 7 → ¬ (n = 0 ∧ 0 < pad.toNat) → s.cfg.bMax < n →
      Raises .bsUnpack s .overflow 0)

/-- R127: packing and then unpacking gives the bits back, whatever the bit memory and `BITLEN` hold in between; in the
other direction the file comes back with its pad bits 0, and the empty file as the one-byte file `00`. -/
def Obligations.PackUnpackRoundTrip : Prop :=
  ∀ s : State, s.cfg.Ok → s.regs.fault = false →
    (s.regs.bitlen.toNat ≤ 8 * s.cfg.bMax → 1 + (s.regs.bitlen.toNat + 7) / 8 ≤ s.cfg.fMax →
      ∃ t, exec .bsPack s = .next t ∧ Completed t ∧ (memRead t .filemem 0).toNat ≤ 7 ∧
        ∀ (bitmem : Memory 8) (junk : Word), ∃ u,
          exec .bsUnpack
            { t with arr := { t.arr with bitmem := bitmem }, regs := { t.regs with bitlen := junk } } = .next u ∧
          Completed u ∧ u.regs.bitlen = s.regs.bitlen ∧
          (∀ p, p < s.regs.bitlen.toNat → getbit u p = getbit s p) ∧
          ∀ p, s.regs.bitlen.toNat ≤ p → p < 8 * ((s.regs.bitlen.toNat + 7) / 8) →
            (memRead u .bitmem (p / 8)).getLsbD (7 - p % 8) = false) ∧
    (∀ t, exec .bsUnpack s = .next t → Completed t → ∀ (filemem : Memory 8) (junk : Word), ∃ u,
      exec .bsPack
        { t with arr := { t.arr with filemem := filemem }, regs := { t.regs with filelen := junk } } = .next u ∧
      Completed u ∧
      (s.regs.filelen = 0 → u.regs.filelen = 1 ∧ memRead u .filemem 0 = 0) ∧
      (1 ≤ s.regs.filelen.toNat → u.regs.filelen = s.regs.filelen ∧
        memRead u .filemem 0 = memRead s .filemem 0 ∧
        (∀ p, p < t.regs.bitlen.toNat → fileBit u p = fileBit s p) ∧
        ∀ p, t.regs.bitlen.toNat ≤ p → p < 8 * (s.regs.filelen.toNat - 1) → fileBit u p = false))

/-! ### What can and cannot influence a result -/

/-- R65: after `RC_ENC` or `BP_ENC` completes, the pad bits of the last byte are 0. -/
def Obligations.EnginePadBitsAreZero : Prop :=
  ∀ (s t : State) (i : Instr), s.cfg.Ok → s.regs.fault = false → (i = .rcEnc ∨ i = .bpEnc) →
    exec i s = .next t → Completed t →
    ∀ p, t.regs.bitlen.toNat ≤ p → p < 8 * ((t.regs.bitlen.toNat + 7) / 8) →
      (memRead t .bitmem (p / 8)).getLsbD (7 - p % 8) = false

/-- R52: the contents of `BITMEM` at positions at or after `BITLEN` change no result of a command that reads it: whether
it completes, with what outputs, and which fault it raises. That the unspecified outputs of a command that faults (R151)
are equal too holds only because both runs make the same draw of the model's one free function (log 1, DESIGN CHOICE). -/
def Obligations.BitsPastBitlenNeverMatter : Prop :=
  ∀ (s : State) (bitmem : Memory 8) (i : Instr),
    let u : State := { s with arr := { s.arr with bitmem := bitmem } }
    (i = .rcDec ∨ i = .bpDec ∨ i = .bsPack) →
    (∀ p, p < s.regs.bitlen.toNat → getbit u p = getbit s p) →
    ∃ t, exec i s = .next t ∧ exec i u = .next { t with arr := { t.arr with bitmem := bitmem } }

/-- R28, and the operands of R90, R96, R111, R112: table entries at or above the count, and symbols at or above
`SYMCNT`, change no result: whether the command completes, with what outputs, and which fault it raises. That the
unspecified outputs of a command that faults (R151) are equal too holds only because both runs make the same draw of the
model's one free function (log 1, DESIGN CHOICE), and is not R28's. -/
def Obligations.EntriesPastTheCountNeverMatter : Prop :=
  ∀ s : State,
    (∀ (i : Instr) (msym mfreq mcum : Memory 32),
      let u : State := { s with arr := { s.arr with msym := msym, mfreq := mfreq, mcum := mcum } }
      (i = .rcEnc ∨ i = .rcDec) →
      (∀ j, j < s.regs.mcount.toNat → memRead u .msym j = memRead s .msym j ∧
        memRead u .mfreq j = memRead s .mfreq j ∧ memRead u .mcum j = memRead s .mcum j) →
      ∃ t, exec i s = .next t ∧
        exec i u = .next { t with arr := { t.arr with msym := msym, mfreq := mfreq, mcum := mcum } }) ∧
    (∀ (i : Instr) (csym : Memory 32) (clen : Memory 6) (cbits : Memory 32),
      let u : State := { s with arr := { s.arr with csym := csym, clen := clen, cbits := cbits } }
      (i = .bpEnc ∨ i = .bpDec) →
      (∀ j, j < s.regs.ccount.toNat → memRead u .csym j = memRead s .csym j ∧
        memRead u .clen j = memRead s .clen j ∧ memRead u .cbits j = memRead s .cbits j) →
      ∃ t, exec i s = .next t ∧
        exec i u = .next { t with arr := { t.arr with csym := csym, clen := clen, cbits := cbits } }) ∧
    (∀ (i : Instr) (symmem : Memory 32),
      let u : State := { s with arr := { s.arr with symmem := symmem } }
      (i = .rcEnc ∨ i = .bpEnc) →
      (∀ k, k < s.regs.symcnt.toNat → memRead u .symmem k = memRead s .symmem k) →
      ∃ t, exec i s = .next t ∧ exec i u = .next { t with arr := { t.arr with symmem := symmem } })

/-! ### Frames -/

/-- R90, R91 (e), R96, R151 (c): what the range commands leave unchanged. `RC_ENC` writes `BITLEN`, `LOW`, `HIGH`, `SIDX`
and the bit memory, of which, when it completes, only bytes below `BITBYTES`; `RC_DEC` writes `LOW`, `HIGH`, `VALUE`,
`BPTR`, `SIDX` and elements 0 to `SYMCNT - 1` of the symbol memory. That the elements from `SYMCNT` on are kept when
`RC_DEC` faults too is the model's reading of R151 (b) (log 3, DEDUCED). -/
def Obligations.RangeCommandsFrame : Prop :=
  ∀ s t : State, s.regs.fault = false →
    (exec .rcEnc s = .next t →
      t.regs = { s.regs with
        done := t.regs.done, fault := t.regs.fault, err := t.regs.err, errinfo := t.regs.errinfo
        bitlen := t.regs.bitlen, low := t.regs.low, high := t.regs.high, sidx := t.regs.sidx } ∧
      (∀ a, a ≠ .bitmem → SameArray a s t) ∧
      (s.cfg.Ok → Completed t → SameFrom .bitmem ((t.regs.bitlen.toNat + 7) / 8) s t) ∧
      t.cfg = s.cfg ∧ t.host = s.host ∧ t.responses = s.responses) ∧
    (exec .rcDec s = .next t →
      t.regs = { s.regs with
        done := t.regs.done, fault := t.regs.fault, err := t.regs.err, errinfo := t.regs.errinfo
        low := t.regs.low, high := t.regs.high, value := t.regs.value, bptr := t.regs.bptr
        sidx := t.regs.sidx } ∧
      (∀ a, a ≠ .symmem → SameArray a s t) ∧
      SameFrom .symmem s.regs.symcnt.toNat s t ∧
      t.cfg = s.cfg ∧ t.host = s.host ∧ t.responses = s.responses)

/-- R111, R112, R151 (c): what the table commands leave unchanged. `BP_ENC` writes `BITLEN`, `SIDX` and the bit memory, of
which, when it completes, only bytes below `BITBYTES`; `BP_DEC` writes `SYMCNT`, `RESID`, `BPTR`, `SIDX` and the symbol
memory, of which, when it completes, only elements below the new `SYMCNT`. -/
def Obligations.TableCommandsFrame : Prop :=
  ∀ s t : State, s.regs.fault = false →
    (exec .bpEnc s = .next t →
      t.regs = { s.regs with
        done := t.regs.done, fault := t.regs.fault, err := t.regs.err, errinfo := t.regs.errinfo
        bitlen := t.regs.bitlen, sidx := t.regs.sidx } ∧
      (∀ a, a ≠ .bitmem → SameArray a s t) ∧
      (s.cfg.Ok → Completed t → SameFrom .bitmem ((t.regs.bitlen.toNat + 7) / 8) s t) ∧
      t.cfg = s.cfg ∧ t.host = s.host ∧ t.responses = s.responses) ∧
    (exec .bpDec s = .next t →
      t.regs = { s.regs with
        done := t.regs.done, fault := t.regs.fault, err := t.regs.err, errinfo := t.regs.errinfo
        symcnt := t.regs.symcnt, resid := t.regs.resid, bptr := t.regs.bptr, sidx := t.regs.sidx } ∧
      (∀ a, a ≠ .symmem → SameArray a s t) ∧
      (s.cfg.Ok → Completed t → SameFrom .symmem t.regs.symcnt.toNat s t) ∧
      t.cfg = s.cfg ∧ t.host = s.host ∧ t.responses = s.responses)

/-- R125, R126, R151 (c): what the file commands leave unchanged. `BS_PACK` writes `FILELEN` and bytes 0 to `BITBYTES` of
the file memory; `BS_UNPACK` writes `BITLEN` and bytes 0 to `FILELEN - 2` of the bit memory. That bytes past these ranges
are kept when the command faults too is the model's reading of R151 (b), by the operand lists of R125 and R126 and not
R61's summary, which lists both memories whole (log 3, DEDUCED, unsafe). -/
def Obligations.FileCommandsFrame : Prop :=
  ∀ s t : State, s.regs.fault = false →
    (exec .bsPack s = .next t →
      t.regs = { s.regs with
        done := t.regs.done, fault := t.regs.fault, err := t.regs.err, errinfo := t.regs.errinfo
        filelen := t.regs.filelen } ∧
      (∀ a, a ≠ .filemem → SameArray a s t) ∧
      SameFrom .filemem (1 + (s.regs.bitlen.toNat + 7) / 8) s t ∧
      t.cfg = s.cfg ∧ t.host = s.host ∧ t.responses = s.responses) ∧
    (exec .bsUnpack s = .next t →
      t.regs = { s.regs with
        done := t.regs.done, fault := t.regs.fault, err := t.regs.err, errinfo := t.regs.errinfo
        bitlen := t.regs.bitlen } ∧
      (∀ a, a ≠ .bitmem → SameArray a s t) ∧
      SameFrom .bitmem (s.regs.filelen.toNat - 1) s t ∧
      t.cfg = s.cfg ∧ t.host = s.host ∧ t.responses = s.responses)

/-- R140, R54: over all commands, who may write what. -/
def Obligations.CommandsWriteOnlyTheirOwn : Prop :=
  ∀ (i : Instr) (s t : State), exec i s = .next t →
    (∀ a, a = .msym ∨ a = .mfreq ∨ a = .mcum ∨ a = .csym ∨ a = .clen ∨ a = .cbits → SameArray a s t) ∧
    (i ≠ .rcDec → i ≠ .bpDec → SameArray .symmem s t) ∧
    (i ≠ .rcEnc → i ≠ .bpEnc → i ≠ .bsUnpack → SameArray .bitmem s t) ∧
    (i ≠ .bsPack → SameArray .filemem s t) ∧
    (i ≠ .sreset → t.regs.total = s.regs.total ∧ t.regs.mcount = s.regs.mcount ∧ t.regs.ccount = s.regs.ccount) ∧
    (i ≠ .sreset → i ≠ .bpDec → t.regs.symcnt = s.regs.symcnt ∧ t.regs.resid = s.regs.resid) ∧
    (i ≠ .sreset → i ≠ .bsPack → t.regs.filelen = s.regs.filelen)

/-! ### Whole-machine rules -/

/-- R137, R152, R153: `FAULT` is cleared only by the command word of `SRESET` or by reset. -/
def Obligations.OnlySresetOrResetClearsFault : Prop :=
  ∀ s t : State, s.cfg.Ok → step s = .next t → s.regs.fault = true → t.regs.fault = false →
    s.host.head? = some .reset ∨ s.host.head? = some (.write 0 0x00000007)

/-- R183, R46: a run of the host's moves ends, and each transaction has got one response. -/
def Obligations.EveryRunEnds : Prop :=
  ∀ s : State, ∃ t : State, Host.Core.run Sys2Proof.core s.host.length s = .next t ∧ t.host = [] ∧
    t.responses.length = s.responses.length + (s.host.filter (fun op => decide (op ≠ .reset))).length

/-- Every step keeps legal parameters and flags that agree, and canonical memories that hold nothing outside their
arrays or wider than their elements (R16, R20, R44, R45, R51, R145, R150; the canonical form itself is the model's,
log 2). -/
def Obligations.EveryStepKeepsInv : Prop := ∀ s t : State, Inv s → step s = .next t → Inv t ∧ t.cfg = s.cfg

/-- The invariant holds after reset (R39; the canonical form and the default parameters are the model's, log 2, log 7). -/
def Obligations.ResetMeetsInv : Prop := Inv State.reset

/-! ### The faults of `RC_ENC`, and what `RC_DEC` decodes -/

/-- R85, R86, R88, R89, R149: when `RC_ENC` faults. `shares` are those of the first symbols, all of them in the model,
and coding them by exact interval arithmetic does not collapse. If what they shift out does not fit the bit memory, the
fault is `OVERFLOW`. If it fits: the next symbol, when it is in no model entry, raises `SYMBOL_MISS` with its index, and
when its share collapses, `RANGE_COLLAPSE` with its index; with no next symbol, the flush raises `OVERFLOW` when its 32
bits do not fit. With `RcEncWritesTheReferenceBits` this says what `RC_ENC` does with every input of a valid model. -/
def Obligations.RcEncRaisesTheFirstFault : Prop :=
  ∀ (s : State) (shares : List (Nat × Nat)) (bits : List Bool) (last : Nat × Nat), s.cfg.Ok →
    s.regs.fault = false → 1 ≤ s.regs.symcnt.toNat → s.regs.symcnt.toNat ≤ s.cfg.sMax → ModelOk s →
    SharesOf s shares → refEncode s.regs.total.toNat shares (0, 2 ^ 32 - 1) = some (bits, last) →
    (8 * s.cfg.bMax < bits.length → Raises .rcEnc s .overflow 0) ∧
    (bits.length ≤ 8 * s.cfg.bMax → shares.length < s.regs.symcnt.toNat → ¬ InModel s shares.length →
      Raises .rcEnc s .symbolMiss (BitVec.ofNat 32 shares.length)) ∧
    (bits.length ≤ 8 * s.cfg.bMax → ∀ share, SharesOf s (shares ++ [share]) →
      refEncode s.regs.total.toNat (shares ++ [share]) (0, 2 ^ 32 - 1) = none →
      Raises .rcEnc s .rangeCollapse (BitVec.ofNat 32 shares.length)) ∧
    (shares.length = s.regs.symcnt.toNat → 8 * s.cfg.bMax < bits.length + 32 → Raises .rcEnc s .overflow 0)

/-- R93 to R97: what `RC_DEC` decodes, on every bit sequence. Decoding the bit sequence followed by zeros by exact
interval arithmetic always picks an entry for each of `SYMCNT` symbols, and `RC_DEC` completes with the symbols of those
entries, in order; its bounds are the last interval, `BPTR` is 32 plus the number of bits shifted out, and `VALUE` is the
32 bits from there, read as a number. With `SYMCNT` 0 nothing is picked and `VALUE` is the first 32 bits. -/
def Obligations.RcDecDecodesTheReference : Prop :=
  ∀ s : State, s.cfg.Ok → s.regs.fault = false → s.regs.symcnt.toNat ≤ s.cfg.sMax →
    s.regs.bitlen.toNat ≤ 8 * s.cfg.bMax → (s.regs.symcnt.toNat = 0 ∨ ModelOk s) →
    ∃ picked last n,
      refDecode s.regs.total.toNat (modelShares s) (bitSeq s) s.regs.symcnt.toNat (0, 2 ^ 32 - 1) 0 =
        some (picked, last, n) ∧
      picked.length = s.regs.symcnt.toNat ∧
      ∃ t, exec .rcDec s = .next t ∧ Completed t ∧
        (∀ k i, picked[k]? = some i → i < s.regs.mcount.toNat ∧ memRead t .symmem k = memRead s .msym i) ∧
        t.regs.low.toNat = last.1 ∧ t.regs.high.toNat = last.2 ∧ t.regs.value.toNat = windowAt (bitSeq s) n ∧
        t.regs.bptr.toNat = 32 + n ∧ t.regs.sidx = s.regs.symcnt
end

