-- ==== Sys2Proof/Laws/Memory.lean ====
section
/-! SUPPORT. The laws of one memory: reading after writing, reading after a draw, and that every operation keeps the
canonical form (log 2). -/

namespace Sys2Proof.Machine

variable {w : Nat}

/-! ### Lists of cells -/

theorem lookupCell_insertCell_same (cells : List (Nat × BitVec w)) (i : Nat) (v : BitVec w) :
    lookupCell (insertCell cells i v) i = some v := by
  induction cells with
  | nil => simp [insertCell, lookupCell]
  | cons p rest ih =>
    obtain ⟨j, u⟩ := p
    by_cases h : i < j
    · simp [insertCell, h, lookupCell]
    · by_cases h' : i = j
      · simp [insertCell, h', lookupCell]
      · simp [insertCell, h, h', lookupCell, ih]

theorem lookupCell_insertCell_ne (cells : List (Nat × BitVec w)) {i j : Nat} (v : BitVec w) (h : j ≠ i) :
    lookupCell (insertCell cells i v) j = lookupCell cells j := by
  induction cells with
  | nil => simp [insertCell, lookupCell, h]
  | cons p rest ih =>
    obtain ⟨k, u⟩ := p
    by_cases h1 : i < k
    · simp [insertCell, h1, lookupCell, h]
    · by_cases h2 : i = k
      · subst h2; simp [insertCell, lookupCell, h]
      · simp [insertCell, h1, h2, lookupCell, ih]

theorem mem_insertCell {cells : List (Nat × BitVec w)} {i : Nat} {v : BitVec w} {p : Nat × BitVec w}
    (h : p ∈ insertCell cells i v) : p = (i, v) ∨ p ∈ cells := by
  induction cells with
  | nil => simpa [insertCell] using h
  | cons q rest ih =>
    obtain ⟨j, u⟩ := q
    simp only [insertCell] at h
    split at h
    · simpa using h
    · split at h
      · rcases List.mem_cons.1 h with h | h
        · exact .inl h
        · exact .inr (List.mem_cons_of_mem _ h)
      · rcases List.mem_cons.1 h with h | h
        · exact .inr (h ▸ List.mem_cons_self)
        · exact (ih h).imp_right (List.mem_cons_of_mem _)

theorem insertCell_rising {cells : List (Nat × BitVec w)} (i : Nat) (v : BitVec w)
    (h : cells.Pairwise (fun p q => p.1 < q.1)) :
    (insertCell cells i v).Pairwise (fun p q => p.1 < q.1) := by
  induction cells with
  | nil => simp [insertCell]
  | cons q rest ih =>
    obtain ⟨j, u⟩ := q
    obtain ⟨hq, hrest⟩ := List.pairwise_cons.1 h
    simp only [insertCell]
    split
    · refine List.pairwise_cons.2 ⟨fun p hp => ?_, h⟩
      rcases List.mem_cons.1 hp with hp | hp
      · subst hp; assumption
      · exact Nat.lt_trans ‹i < j› (hq p hp)
    · split
      · exact List.pairwise_cons.2 ⟨fun p hp => by have := hq p hp; simp_all, hrest⟩
      · refine List.pairwise_cons.2 ⟨fun p hp => ?_, ih hrest⟩
        rcases mem_insertCell hp with hp | hp
        · subst hp; show j < i; omega
        · exact hq p hp

theorem lookupCell_mem {cells : List (Nat × BitVec w)} {i : Nat} {v : BitVec w}
    (h : lookupCell cells i = some v) : (i, v) ∈ cells := by
  induction cells with
  | nil => simp [lookupCell] at h
  | cons q rest ih =>
    obtain ⟨j, u⟩ := q
    simp only [lookupCell] at h
    split at h
    · simp_all
    · exact List.mem_cons_of_mem _ (ih h)

theorem lookupCell_filter_ge (cells : List (Nat × BitVec w)) {hi i : Nat} (h : hi ≤ i) :
    lookupCell (cells.filter (fun p => decide (hi ≤ p.1))) i = lookupCell cells i := by
  induction cells with
  | nil => rfl
  | cons q rest ih =>
    obtain ⟨j, u⟩ := q
    by_cases hj : hi ≤ j
    · simp [hj, lookupCell, ih]
    · have hij : i ≠ j := by omega
      simp [hj, lookupCell, hij, ih]

theorem lookupCell_filter_lt (cells : List (Nat × BitVec w)) {hi i : Nat} (h : i < hi) :
    lookupCell (cells.filter (fun p => decide (hi ≤ p.1))) i = none := by
  induction cells with
  | nil => rfl
  | cons q rest ih =>
    obtain ⟨j, u⟩ := q
    by_cases hj : hi ≤ j
    · have hij : i ≠ j := by omega
      simp [hj, lookupCell, hij, ih]
    · simp [hj, ih]

theorem drawBelow_filter (rs : List (Nat × Nat)) (base : Nat) {hi i : Nat} (h : hi ≤ i) :
    drawBelow (rs.filter (fun p => decide (hi < p.1))) base i = drawBelow rs base i := by
  induction rs with
  | nil => rfl
  | cons q rest ih =>
    obtain ⟨j, d⟩ := q
    by_cases hj : hi < j
    · simp [hj, drawBelow, ih]
    · have hij : ¬ i < j := by omega
      simp [hj, drawBelow, hij, ih]

/-! ### Reading -/

@[simp] theorem Memory.read_write_same (m : Memory w) (width addr i : Nat) (v : BitVec w) :
    (m.write i v).read width addr i = v := by
  simp [Memory.read, Memory.written, Memory.write, lookupCell_insertCell_same]

theorem Memory.read_write_ne (m : Memory w) (width addr : Nat) {i j : Nat} (v : BitVec w) (h : j ≠ i) :
    (m.write i v).read width addr j = m.read width addr j := by
  simp [Memory.read, Memory.written, Memory.write, Memory.drawAt, lookupCell_insertCell_ne _ _ h]

/-- A draw below `hi` leaves every element from `hi` on as it was (R151). -/
theorem Memory.read_spoil_ge (m : Memory w) (width addr : Nat) {hi d i : Nat} (h : hi ≤ i) :
    (m.spoil hi d).read width addr i = m.read width addr i := by
  unfold Memory.spoil
  split
  · rfl
  · simp [Memory.read, Memory.written, Memory.drawAt, lookupCell_filter_ge _ h, drawBelow,
      Nat.not_lt.2 h, drawBelow_filter _ _ h]

/-- A draw below `hi` leaves every element below `hi` at the free value of that draw (R151). -/
theorem Memory.read_spoil_lt (m : Memory w) (width addr : Nat) {hi d i : Nat} (h : i < hi) :
    (m.spoil hi d).read width addr i =
      BitVec.ofNat w ((Config.freeAt d (addr + 4 * i)).toNat % 2 ^ width) := by
  have h0 : hi ≠ 0 := by omega
  simp [Memory.spoil, h0, Memory.read, Memory.written, Memory.drawAt, lookupCell_filter_lt _ h, drawBelow, h]

theorem Memory.read_unspecified (d width addr i : Nat) :
    (Memory.unspecified d : Memory w).read width addr i =
      BitVec.ofNat w ((Config.freeAt d (addr + 4 * i)).toNat % 2 ^ width) := rfl

/-- An element that fits its width when it was written, or was never written, reads within its width (R44). -/
theorem Memory.read_lt (m : Memory w) {width : Nat} (addr i : Nat) (h : m.fits width) :
    (m.read width addr i).toNat < 2 ^ width := by
  unfold Memory.read Memory.written
  split
  · rename_i v hv; exact h _ (lookupCell_mem hv)
  · rw [BitVec.toNat_ofNat]
    exact Nat.lt_of_le_of_lt (Nat.mod_le _ _) (Nat.mod_lt _ (Nat.two_pow_pos _))

/-! ### The canonical form is kept -/

theorem Memory.write_wf {m : Memory w} {size next i : Nat} (v : BitVec w) (h : m.wf size next) (hi : i < size) :
    (m.write i v).wf size next := by
  obtain ⟨h1, h2, h3⟩ := h
  refine ⟨insertCell_rising i v h1, fun p hp => ?_, h3⟩
  rcases mem_insertCell hp with hp | hp
  · subst hp; exact hi
  · exact h2 p hp

theorem Memory.write_fits {m : Memory w} {width i : Nat} {v : BitVec w} (h : m.fits width)
    (hv : v.toNat < 2 ^ width) : (m.write i v).fits width := by
  intro p hp
  rcases mem_insertCell hp with hp | hp
  · subst hp; exact hv
  · exact h p hp

theorem Memory.wf_mono {m : Memory w} {size next next' : Nat} (h : m.wf size next) (hn : next ≤ next') :
    m.wf size next' := by
  obtain ⟨h1, h2, h3, h4, h5⟩ := h
  exact ⟨h1, h2, h3, fun p hp => ⟨(h4 p hp).1, (h4 p hp).2.1, Nat.lt_of_lt_of_le (h4 p hp).2.2 hn⟩,
    Nat.lt_of_lt_of_le h5 hn⟩

theorem Memory.unspecified_wf {d size next : Nat} (h : d < next) : (Memory.unspecified d : Memory w).wf size next := by
  simp [Memory.unspecified, Memory.wf, h]

theorem Memory.unspecified_fits (d width : Nat) : (Memory.unspecified d : Memory w).fits width := by
  simp [Memory.unspecified, Memory.fits]

theorem Memory.spoil_wf {m : Memory w} {size next hi d : Nat} (h : m.wf size next) (hs : hi ≤ size) (hd : d < next) :
    (m.spoil hi d).wf size next := by
  obtain ⟨h1, h2, h3, h4, h5⟩ := h
  unfold Memory.spoil
  split
  · exact ⟨h1, h2, h3, h4, h5⟩
  · refine ⟨h1.filter _, fun p hp => h2 p (List.mem_filter.1 hp).1, ?_, ?_, h5⟩
    · exact List.pairwise_cons.2 ⟨fun p hp => by simpa using (List.mem_filter.1 hp).2, h3.filter _⟩
    · intro p hp
      rcases List.mem_cons.1 hp with hp | hp
      · subst hp; exact ⟨by omega, hs, hd⟩
      · exact h4 p (List.mem_filter.1 hp).1

theorem Memory.spoil_fits {m : Memory w} {width : Nat} (hi d : Nat) (h : m.fits width) :
    (m.spoil hi d).fits width := by
  unfold Memory.spoil
  split
  · exact h
  · exact fun p hp => h p (List.mem_filter.1 hp).1

end Sys2Proof.Machine
end

