-- ==== Sys2Proof/Laws/State.lean ====
section
/-! SUPPORT. One lemma per field for each named update of the state, so that no later proof unfolds one. -/

namespace Sys2Proof.Machine

section
variable (s : State) (a : Arr) (i : Nat) (u v : Word) (b : Bool) (r : Raise) (resp : Response)

/-! ### The register updates: what each leaves of every field -/

@[simp] theorem setDone_cfg : (s.setDone b).cfg = s.cfg := rfl
@[simp] theorem setDone_arr : (s.setDone b).arr = s.arr := rfl
@[simp] theorem setDone_draws : (s.setDone b).draws = s.draws := rfl
@[simp] theorem setDone_host : (s.setDone b).host = s.host := rfl
@[simp] theorem setDone_responses : (s.setDone b).responses = s.responses := rfl
@[simp] theorem setDone_done : (s.setDone b).regs.done = b := rfl
@[simp] theorem setDone_fault : (s.setDone b).regs.fault = s.regs.fault := rfl
@[simp] theorem setDone_err : (s.setDone b).regs.err = s.regs.err := rfl
@[simp] theorem setDone_errinfo : (s.setDone b).regs.errinfo = s.regs.errinfo := rfl
@[simp] theorem setDone_symcnt : (s.setDone b).regs.symcnt = s.regs.symcnt := rfl
@[simp] theorem setDone_bitlen : (s.setDone b).regs.bitlen = s.regs.bitlen := rfl
@[simp] theorem setDone_filelen : (s.setDone b).regs.filelen = s.regs.filelen := rfl
@[simp] theorem setDone_total : (s.setDone b).regs.total = s.regs.total := rfl
@[simp] theorem setDone_mcount : (s.setDone b).regs.mcount = s.regs.mcount := rfl
@[simp] theorem setDone_ccount : (s.setDone b).regs.ccount = s.regs.ccount := rfl
@[simp] theorem setDone_resid : (s.setDone b).regs.resid = s.regs.resid := rfl
@[simp] theorem setDone_low : (s.setDone b).regs.low = s.regs.low := rfl
@[simp] theorem setDone_high : (s.setDone b).regs.high = s.regs.high := rfl
@[simp] theorem setDone_value : (s.setDone b).regs.value = s.regs.value := rfl
@[simp] theorem setDone_bptr : (s.setDone b).regs.bptr = s.regs.bptr := rfl
@[simp] theorem setDone_sidx : (s.setDone b).regs.sidx = s.regs.sidx := rfl
@[simp] theorem setLow_cfg : (s.setLow v).cfg = s.cfg := rfl
@[simp] theorem setLow_arr : (s.setLow v).arr = s.arr := rfl
@[simp] theorem setLow_draws : (s.setLow v).draws = s.draws := rfl
@[simp] theorem setLow_host : (s.setLow v).host = s.host := rfl
@[simp] theorem setLow_responses : (s.setLow v).responses = s.responses := rfl
@[simp] theorem setLow_done : (s.setLow v).regs.done = s.regs.done := rfl
@[simp] theorem setLow_fault : (s.setLow v).regs.fault = s.regs.fault := rfl
@[simp] theorem setLow_err : (s.setLow v).regs.err = s.regs.err := rfl
@[simp] theorem setLow_errinfo : (s.setLow v).regs.errinfo = s.regs.errinfo := rfl
@[simp] theorem setLow_symcnt : (s.setLow v).regs.symcnt = s.regs.symcnt := rfl
@[simp] theorem setLow_bitlen : (s.setLow v).regs.bitlen = s.regs.bitlen := rfl
@[simp] theorem setLow_filelen : (s.setLow v).regs.filelen = s.regs.filelen := rfl
@[simp] theorem setLow_total : (s.setLow v).regs.total = s.regs.total := rfl
@[simp] theorem setLow_mcount : (s.setLow v).regs.mcount = s.regs.mcount := rfl
@[simp] theorem setLow_ccount : (s.setLow v).regs.ccount = s.regs.ccount := rfl
@[simp] theorem setLow_resid : (s.setLow v).regs.resid = s.regs.resid := rfl
@[simp] theorem setLow_low : (s.setLow v).regs.low = v := rfl
@[simp] theorem setLow_high : (s.setLow v).regs.high = s.regs.high := rfl
@[simp] theorem setLow_value : (s.setLow v).regs.value = s.regs.value := rfl
@[simp] theorem setLow_bptr : (s.setLow v).regs.bptr = s.regs.bptr := rfl
@[simp] theorem setLow_sidx : (s.setLow v).regs.sidx = s.regs.sidx := rfl
@[simp] theorem setBounds_cfg : (s.setBounds v u).cfg = s.cfg := rfl
@[simp] theorem setBounds_arr : (s.setBounds v u).arr = s.arr := rfl
@[simp] theorem setBounds_draws : (s.setBounds v u).draws = s.draws := rfl
@[simp] theorem setBounds_host : (s.setBounds v u).host = s.host := rfl
@[simp] theorem setBounds_responses : (s.setBounds v u).responses = s.responses := rfl
@[simp] theorem setBounds_done : (s.setBounds v u).regs.done = s.regs.done := rfl
@[simp] theorem setBounds_fault : (s.setBounds v u).regs.fault = s.regs.fault := rfl
@[simp] theorem setBounds_err : (s.setBounds v u).regs.err = s.regs.err := rfl
@[simp] theorem setBounds_errinfo : (s.setBounds v u).regs.errinfo = s.regs.errinfo := rfl
@[simp] theorem setBounds_symcnt : (s.setBounds v u).regs.symcnt = s.regs.symcnt := rfl
@[simp] theorem setBounds_bitlen : (s.setBounds v u).regs.bitlen = s.regs.bitlen := rfl
@[simp] theorem setBounds_filelen : (s.setBounds v u).regs.filelen = s.regs.filelen := rfl
@[simp] theorem setBounds_total : (s.setBounds v u).regs.total = s.regs.total := rfl
@[simp] theorem setBounds_mcount : (s.setBounds v u).regs.mcount = s.regs.mcount := rfl
@[simp] theorem setBounds_ccount : (s.setBounds v u).regs.ccount = s.regs.ccount := rfl
@[simp] theorem setBounds_resid : (s.setBounds v u).regs.resid = s.regs.resid := rfl
@[simp] theorem setBounds_low : (s.setBounds v u).regs.low = v := rfl
@[simp] theorem setBounds_high : (s.setBounds v u).regs.high = u := rfl
@[simp] theorem setBounds_value : (s.setBounds v u).regs.value = s.regs.value := rfl
@[simp] theorem setBounds_bptr : (s.setBounds v u).regs.bptr = s.regs.bptr := rfl
@[simp] theorem setBounds_sidx : (s.setBounds v u).regs.sidx = s.regs.sidx := rfl
@[simp] theorem setWindow_cfg : (s.setWindow v u).cfg = s.cfg := rfl
@[simp] theorem setWindow_arr : (s.setWindow v u).arr = s.arr := rfl
@[simp] theorem setWindow_draws : (s.setWindow v u).draws = s.draws := rfl
@[simp] theorem setWindow_host : (s.setWindow v u).host = s.host := rfl
@[simp] theorem setWindow_responses : (s.setWindow v u).responses = s.responses := rfl
@[simp] theorem setWindow_done : (s.setWindow v u).regs.done = s.regs.done := rfl
@[simp] theorem setWindow_fault : (s.setWindow v u).regs.fault = s.regs.fault := rfl
@[simp] theorem setWindow_err : (s.setWindow v u).regs.err = s.regs.err := rfl
@[simp] theorem setWindow_errinfo : (s.setWindow v u).regs.errinfo = s.regs.errinfo := rfl
@[simp] theorem setWindow_symcnt : (s.setWindow v u).regs.symcnt = s.regs.symcnt := rfl
@[simp] theorem setWindow_bitlen : (s.setWindow v u).regs.bitlen = s.regs.bitlen := rfl
@[simp] theorem setWindow_filelen : (s.setWindow v u).regs.filelen = s.regs.filelen := rfl
@[simp] theorem setWindow_total : (s.setWindow v u).regs.total = s.regs.total := rfl
@[simp] theorem setWindow_mcount : (s.setWindow v u).regs.mcount = s.regs.mcount := rfl
@[simp] theorem setWindow_ccount : (s.setWindow v u).regs.ccount = s.regs.ccount := rfl
@[simp] theorem setWindow_resid : (s.setWindow v u).regs.resid = s.regs.resid := rfl
@[simp] theorem setWindow_low : (s.setWindow v u).regs.low = s.regs.low := rfl
@[simp] theorem setWindow_high : (s.setWindow v u).regs.high = s.regs.high := rfl
@[simp] theorem setWindow_value : (s.setWindow v u).regs.value = v := rfl
@[simp] theorem setWindow_bptr : (s.setWindow v u).regs.bptr = u := rfl
@[simp] theorem setWindow_sidx : (s.setWindow v u).regs.sidx = s.regs.sidx := rfl
@[simp] theorem setBptr_cfg : (s.setBptr v).cfg = s.cfg := rfl
@[simp] theorem setBptr_arr : (s.setBptr v).arr = s.arr := rfl
@[simp] theorem setBptr_draws : (s.setBptr v).draws = s.draws := rfl
@[simp] theorem setBptr_host : (s.setBptr v).host = s.host := rfl
@[simp] theorem setBptr_responses : (s.setBptr v).responses = s.responses := rfl
@[simp] theorem setBptr_done : (s.setBptr v).regs.done = s.regs.done := rfl
@[simp] theorem setBptr_fault : (s.setBptr v).regs.fault = s.regs.fault := rfl
@[simp] theorem setBptr_err : (s.setBptr v).regs.err = s.regs.err := rfl
@[simp] theorem setBptr_errinfo : (s.setBptr v).regs.errinfo = s.regs.errinfo := rfl
@[simp] theorem setBptr_symcnt : (s.setBptr v).regs.symcnt = s.regs.symcnt := rfl
@[simp] theorem setBptr_bitlen : (s.setBptr v).regs.bitlen = s.regs.bitlen := rfl
@[simp] theorem setBptr_filelen : (s.setBptr v).regs.filelen = s.regs.filelen := rfl
@[simp] theorem setBptr_total : (s.setBptr v).regs.total = s.regs.total := rfl
@[simp] theorem setBptr_mcount : (s.setBptr v).regs.mcount = s.regs.mcount := rfl
@[simp] theorem setBptr_ccount : (s.setBptr v).regs.ccount = s.regs.ccount := rfl
@[simp] theorem setBptr_resid : (s.setBptr v).regs.resid = s.regs.resid := rfl
@[simp] theorem setBptr_low : (s.setBptr v).regs.low = s.regs.low := rfl
@[simp] theorem setBptr_high : (s.setBptr v).regs.high = s.regs.high := rfl
@[simp] theorem setBptr_value : (s.setBptr v).regs.value = s.regs.value := rfl
@[simp] theorem setBptr_bptr : (s.setBptr v).regs.bptr = v := rfl
@[simp] theorem setBptr_sidx : (s.setBptr v).regs.sidx = s.regs.sidx := rfl
@[simp] theorem setSidx_cfg : (s.setSidx v).cfg = s.cfg := rfl
@[simp] theorem setSidx_arr : (s.setSidx v).arr = s.arr := rfl
@[simp] theorem setSidx_draws : (s.setSidx v).draws = s.draws := rfl
@[simp] theorem setSidx_host : (s.setSidx v).host = s.host := rfl
@[simp] theorem setSidx_responses : (s.setSidx v).responses = s.responses := rfl
@[simp] theorem setSidx_done : (s.setSidx v).regs.done = s.regs.done := rfl
@[simp] theorem setSidx_fault : (s.setSidx v).regs.fault = s.regs.fault := rfl
@[simp] theorem setSidx_err : (s.setSidx v).regs.err = s.regs.err := rfl
@[simp] theorem setSidx_errinfo : (s.setSidx v).regs.errinfo = s.regs.errinfo := rfl
@[simp] theorem setSidx_symcnt : (s.setSidx v).regs.symcnt = s.regs.symcnt := rfl
@[simp] theorem setSidx_bitlen : (s.setSidx v).regs.bitlen = s.regs.bitlen := rfl
@[simp] theorem setSidx_filelen : (s.setSidx v).regs.filelen = s.regs.filelen := rfl
@[simp] theorem setSidx_total : (s.setSidx v).regs.total = s.regs.total := rfl
@[simp] theorem setSidx_mcount : (s.setSidx v).regs.mcount = s.regs.mcount := rfl
@[simp] theorem setSidx_ccount : (s.setSidx v).regs.ccount = s.regs.ccount := rfl
@[simp] theorem setSidx_resid : (s.setSidx v).regs.resid = s.regs.resid := rfl
@[simp] theorem setSidx_low : (s.setSidx v).regs.low = s.regs.low := rfl
@[simp] theorem setSidx_high : (s.setSidx v).regs.high = s.regs.high := rfl
@[simp] theorem setSidx_value : (s.setSidx v).regs.value = s.regs.value := rfl
@[simp] theorem setSidx_bptr : (s.setSidx v).regs.bptr = s.regs.bptr := rfl
@[simp] theorem setSidx_sidx : (s.setSidx v).regs.sidx = v := rfl
@[simp] theorem setBitlen_cfg : (s.setBitlen v).cfg = s.cfg := rfl
@[simp] theorem setBitlen_arr : (s.setBitlen v).arr = s.arr := rfl
@[simp] theorem setBitlen_draws : (s.setBitlen v).draws = s.draws := rfl
@[simp] theorem setBitlen_host : (s.setBitlen v).host = s.host := rfl
@[simp] theorem setBitlen_responses : (s.setBitlen v).responses = s.responses := rfl
@[simp] theorem setBitlen_done : (s.setBitlen v).regs.done = s.regs.done := rfl
@[simp] theorem setBitlen_fault : (s.setBitlen v).regs.fault = s.regs.fault := rfl
@[simp] theorem setBitlen_err : (s.setBitlen v).regs.err = s.regs.err := rfl
@[simp] theorem setBitlen_errinfo : (s.setBitlen v).regs.errinfo = s.regs.errinfo := rfl
@[simp] theorem setBitlen_symcnt : (s.setBitlen v).regs.symcnt = s.regs.symcnt := rfl
@[simp] theorem setBitlen_bitlen : (s.setBitlen v).regs.bitlen = v := rfl
@[simp] theorem setBitlen_filelen : (s.setBitlen v).regs.filelen = s.regs.filelen := rfl
@[simp] theorem setBitlen_total : (s.setBitlen v).regs.total = s.regs.total := rfl
@[simp] theorem setBitlen_mcount : (s.setBitlen v).regs.mcount = s.regs.mcount := rfl
@[simp] theorem setBitlen_ccount : (s.setBitlen v).regs.ccount = s.regs.ccount := rfl
@[simp] theorem setBitlen_resid : (s.setBitlen v).regs.resid = s.regs.resid := rfl
@[simp] theorem setBitlen_low : (s.setBitlen v).regs.low = s.regs.low := rfl
@[simp] theorem setBitlen_high : (s.setBitlen v).regs.high = s.regs.high := rfl
@[simp] theorem setBitlen_value : (s.setBitlen v).regs.value = s.regs.value := rfl
@[simp] theorem setBitlen_bptr : (s.setBitlen v).regs.bptr = s.regs.bptr := rfl
@[simp] theorem setBitlen_sidx : (s.setBitlen v).regs.sidx = s.regs.sidx := rfl
@[simp] theorem setFilelen_cfg : (s.setFilelen v).cfg = s.cfg := rfl
@[simp] theorem setFilelen_arr : (s.setFilelen v).arr = s.arr := rfl
@[simp] theorem setFilelen_draws : (s.setFilelen v).draws = s.draws := rfl
@[simp] theorem setFilelen_host : (s.setFilelen v).host = s.host := rfl
@[simp] theorem setFilelen_responses : (s.setFilelen v).responses = s.responses := rfl
@[simp] theorem setFilelen_done : (s.setFilelen v).regs.done = s.regs.done := rfl
@[simp] theorem setFilelen_fault : (s.setFilelen v).regs.fault = s.regs.fault := rfl
@[simp] theorem setFilelen_err : (s.setFilelen v).regs.err = s.regs.err := rfl
@[simp] theorem setFilelen_errinfo : (s.setFilelen v).regs.errinfo = s.regs.errinfo := rfl
@[simp] theorem setFilelen_symcnt : (s.setFilelen v).regs.symcnt = s.regs.symcnt := rfl
@[simp] theorem setFilelen_bitlen : (s.setFilelen v).regs.bitlen = s.regs.bitlen := rfl
@[simp] theorem setFilelen_filelen : (s.setFilelen v).regs.filelen = v := rfl
@[simp] theorem setFilelen_total : (s.setFilelen v).regs.total = s.regs.total := rfl
@[simp] theorem setFilelen_mcount : (s.setFilelen v).regs.mcount = s.regs.mcount := rfl
@[simp] theorem setFilelen_ccount : (s.setFilelen v).regs.ccount = s.regs.ccount := rfl
@[simp] theorem setFilelen_resid : (s.setFilelen v).regs.resid = s.regs.resid := rfl
@[simp] theorem setFilelen_low : (s.setFilelen v).regs.low = s.regs.low := rfl
@[simp] theorem setFilelen_high : (s.setFilelen v).regs.high = s.regs.high := rfl
@[simp] theorem setFilelen_value : (s.setFilelen v).regs.value = s.regs.value := rfl
@[simp] theorem setFilelen_bptr : (s.setFilelen v).regs.bptr = s.regs.bptr := rfl
@[simp] theorem setFilelen_sidx : (s.setFilelen v).regs.sidx = s.regs.sidx := rfl
@[simp] theorem setTail_cfg : (s.setTail v u).cfg = s.cfg := rfl
@[simp] theorem setTail_arr : (s.setTail v u).arr = s.arr := rfl
@[simp] theorem setTail_draws : (s.setTail v u).draws = s.draws := rfl
@[simp] theorem setTail_host : (s.setTail v u).host = s.host := rfl
@[simp] theorem setTail_responses : (s.setTail v u).responses = s.responses := rfl
@[simp] theorem setTail_done : (s.setTail v u).regs.done = s.regs.done := rfl
@[simp] theorem setTail_fault : (s.setTail v u).regs.fault = s.regs.fault := rfl
@[simp] theorem setTail_err : (s.setTail v u).regs.err = s.regs.err := rfl
@[simp] theorem setTail_errinfo : (s.setTail v u).regs.errinfo = s.regs.errinfo := rfl
@[simp] theorem setTail_symcnt : (s.setTail v u).regs.symcnt = v := rfl
@[simp] theorem setTail_bitlen : (s.setTail v u).regs.bitlen = s.regs.bitlen := rfl
@[simp] theorem setTail_filelen : (s.setTail v u).regs.filelen = s.regs.filelen := rfl
@[simp] theorem setTail_total : (s.setTail v u).regs.total = s.regs.total := rfl
@[simp] theorem setTail_mcount : (s.setTail v u).regs.mcount = s.regs.mcount := rfl
@[simp] theorem setTail_ccount : (s.setTail v u).regs.ccount = s.regs.ccount := rfl
@[simp] theorem setTail_resid : (s.setTail v u).regs.resid = u := rfl
@[simp] theorem setTail_low : (s.setTail v u).regs.low = s.regs.low := rfl
@[simp] theorem setTail_high : (s.setTail v u).regs.high = s.regs.high := rfl
@[simp] theorem setTail_value : (s.setTail v u).regs.value = s.regs.value := rfl
@[simp] theorem setTail_bptr : (s.setTail v u).regs.bptr = s.regs.bptr := rfl
@[simp] theorem setTail_sidx : (s.setTail v u).regs.sidx = s.regs.sidx := rfl

/-! ### `respond` -/

@[simp] theorem respond_cfg : (s.respond resp).cfg = s.cfg := rfl
@[simp] theorem respond_regs : (s.respond resp).regs = s.regs := rfl
@[simp] theorem respond_arr : (s.respond resp).arr = s.arr := rfl
@[simp] theorem respond_draws : (s.respond resp).draws = s.draws := rfl
@[simp] theorem respond_host : (s.respond resp).host = s.host := rfl
@[simp] theorem respond_responses : (s.respond resp).responses = resp :: s.responses := rfl

/-! ### `faultEntry` (R150) -/

@[simp] theorem faultEntry_cfg : (faultEntry r s).cfg = s.cfg := rfl
@[simp] theorem faultEntry_arr : (faultEntry r s).arr = s.arr := rfl
@[simp] theorem faultEntry_draws : (faultEntry r s).draws = s.draws := rfl
@[simp] theorem faultEntry_host : (faultEntry r s).host = s.host := rfl
@[simp] theorem faultEntry_responses : (faultEntry r s).responses = s.responses := rfl
@[simp] theorem faultEntry_done : (faultEntry r s).regs.done = s.regs.done := rfl
@[simp] theorem faultEntry_fault : (faultEntry r s).regs.fault = true := rfl
@[simp] theorem faultEntry_err : (faultEntry r s).regs.err = r.cause.code := rfl
@[simp] theorem faultEntry_errinfo : (faultEntry r s).regs.errinfo = r.info := rfl
@[simp] theorem faultEntry_symcnt : (faultEntry r s).regs.symcnt = s.regs.symcnt := rfl
@[simp] theorem faultEntry_bitlen : (faultEntry r s).regs.bitlen = s.regs.bitlen := rfl
@[simp] theorem faultEntry_filelen : (faultEntry r s).regs.filelen = s.regs.filelen := rfl
@[simp] theorem faultEntry_total : (faultEntry r s).regs.total = s.regs.total := rfl
@[simp] theorem faultEntry_mcount : (faultEntry r s).regs.mcount = s.regs.mcount := rfl
@[simp] theorem faultEntry_ccount : (faultEntry r s).regs.ccount = s.regs.ccount := rfl
@[simp] theorem faultEntry_resid : (faultEntry r s).regs.resid = s.regs.resid := rfl
@[simp] theorem faultEntry_low : (faultEntry r s).regs.low = s.regs.low := rfl
@[simp] theorem faultEntry_high : (faultEntry r s).regs.high = s.regs.high := rfl
@[simp] theorem faultEntry_value : (faultEntry r s).regs.value = s.regs.value := rfl
@[simp] theorem faultEntry_bptr : (faultEntry r s).regs.bptr = s.regs.bptr := rfl
@[simp] theorem faultEntry_sidx : (faultEntry r s).regs.sidx = s.regs.sidx := rfl

/-! ### `resetRegs` and `hardReset` (R137, R170) -/

@[simp] theorem resetRegs_cfg : (resetRegs s).cfg = s.cfg := rfl
@[simp] theorem resetRegs_regs : (resetRegs s).regs = .reset := rfl
@[simp] theorem resetRegs_arr : (resetRegs s).arr = s.arr := rfl
@[simp] theorem resetRegs_draws : (resetRegs s).draws = s.draws := rfl
@[simp] theorem resetRegs_host : (resetRegs s).host = s.host := rfl
@[simp] theorem resetRegs_responses : (resetRegs s).responses = s.responses := rfl
@[simp] theorem hardReset_cfg : (hardReset s).cfg = s.cfg := rfl
@[simp] theorem hardReset_regs : (hardReset s).regs = .reset := rfl
@[simp] theorem hardReset_arr : (hardReset s).arr = .unspecified s.draws := rfl
@[simp] theorem hardReset_draws : (hardReset s).draws = s.draws + 1 := rfl
@[simp] theorem hardReset_host : (hardReset s).host = s.host := rfl
@[simp] theorem hardReset_responses : (hardReset s).responses = s.responses := rfl

/-! ### `memWrite` (R51): only the arrays change -/

@[simp] theorem memWrite_cfg : (memWrite s a i v).cfg = s.cfg := by cases a <;> rfl
@[simp] theorem memWrite_regs : (memWrite s a i v).regs = s.regs := by cases a <;> rfl
@[simp] theorem memWrite_draws : (memWrite s a i v).draws = s.draws := by cases a <;> rfl
@[simp] theorem memWrite_host : (memWrite s a i v).host = s.host := by cases a <;> rfl
@[simp] theorem memWrite_responses : (memWrite s a i v).responses = s.responses := by cases a <;> rfl

/-! ### What a fault leaves (R151): the drawn outputs, and everything else as it was -/

@[simp] theorem spoilRcEnc_cfg : (spoilRcEnc s).cfg = s.cfg := rfl
@[simp] theorem spoilRcEnc_host : (spoilRcEnc s).host = s.host := rfl
@[simp] theorem spoilRcEnc_responses : (spoilRcEnc s).responses = s.responses := rfl
@[simp] theorem spoilRcEnc_draws : (spoilRcEnc s).draws = s.draws + 1 := rfl
@[simp] theorem spoilRcEnc_done : (spoilRcEnc s).regs.done = s.regs.done := rfl
@[simp] theorem spoilRcEnc_fault : (spoilRcEnc s).regs.fault = s.regs.fault := rfl
@[simp] theorem spoilRcEnc_err : (spoilRcEnc s).regs.err = s.regs.err := rfl
@[simp] theorem spoilRcEnc_errinfo : (spoilRcEnc s).regs.errinfo = s.regs.errinfo := rfl
@[simp] theorem spoilRcEnc_symcnt : (spoilRcEnc s).regs.symcnt = s.regs.symcnt := rfl
@[simp] theorem spoilRcEnc_bitlen : (spoilRcEnc s).regs.bitlen = drawn s.draws .bitlen := rfl
@[simp] theorem spoilRcEnc_filelen : (spoilRcEnc s).regs.filelen = s.regs.filelen := rfl
@[simp] theorem spoilRcEnc_total : (spoilRcEnc s).regs.total = s.regs.total := rfl
@[simp] theorem spoilRcEnc_mcount : (spoilRcEnc s).regs.mcount = s.regs.mcount := rfl
@[simp] theorem spoilRcEnc_ccount : (spoilRcEnc s).regs.ccount = s.regs.ccount := rfl
@[simp] theorem spoilRcEnc_resid : (spoilRcEnc s).regs.resid = s.regs.resid := rfl
@[simp] theorem spoilRcEnc_low : (spoilRcEnc s).regs.low = drawn s.draws .low := rfl
@[simp] theorem spoilRcEnc_high : (spoilRcEnc s).regs.high = drawn s.draws .high := rfl
@[simp] theorem spoilRcEnc_value : (spoilRcEnc s).regs.value = s.regs.value := rfl
@[simp] theorem spoilRcEnc_bptr : (spoilRcEnc s).regs.bptr = s.regs.bptr := rfl
@[simp] theorem spoilRcEnc_sidx : (spoilRcEnc s).regs.sidx = drawn s.draws .sidx := rfl
theorem spoilRcEnc_arr : (spoilRcEnc s).arr = { s.arr with bitmem := (spoilRcEnc s).arr.bitmem } := rfl
@[simp] theorem spoilRcDec_cfg : (spoilRcDec s).cfg = s.cfg := rfl
@[simp] theorem spoilRcDec_host : (spoilRcDec s).host = s.host := rfl
@[simp] theorem spoilRcDec_responses : (spoilRcDec s).responses = s.responses := rfl
@[simp] theorem spoilRcDec_draws : (spoilRcDec s).draws = s.draws + 1 := rfl
@[simp] theorem spoilRcDec_done : (spoilRcDec s).regs.done = s.regs.done := rfl
@[simp] theorem spoilRcDec_fault : (spoilRcDec s).regs.fault = s.regs.fault := rfl
@[simp] theorem spoilRcDec_err : (spoilRcDec s).regs.err = s.regs.err := rfl
@[simp] theorem spoilRcDec_errinfo : (spoilRcDec s).regs.errinfo = s.regs.errinfo := rfl
@[simp] theorem spoilRcDec_symcnt : (spoilRcDec s).regs.symcnt = s.regs.symcnt := rfl
@[simp] theorem spoilRcDec_bitlen : (spoilRcDec s).regs.bitlen = s.regs.bitlen := rfl
@[simp] theorem spoilRcDec_filelen : (spoilRcDec s).regs.filelen = s.regs.filelen := rfl
@[simp] theorem spoilRcDec_total : (spoilRcDec s).regs.total = s.regs.total := rfl
@[simp] theorem spoilRcDec_mcount : (spoilRcDec s).regs.mcount = s.regs.mcount := rfl
@[simp] theorem spoilRcDec_ccount : (spoilRcDec s).regs.ccount = s.regs.ccount := rfl
@[simp] theorem spoilRcDec_resid : (spoilRcDec s).regs.resid = s.regs.resid := rfl
@[simp] theorem spoilRcDec_low : (spoilRcDec s).regs.low = drawn s.draws .low := rfl
@[simp] theorem spoilRcDec_high : (spoilRcDec s).regs.high = drawn s.draws .high := rfl
@[simp] theorem spoilRcDec_value : (spoilRcDec s).regs.value = drawn s.draws .value := rfl
@[simp] theorem spoilRcDec_bptr : (spoilRcDec s).regs.bptr = drawn s.draws .bptr := rfl
@[simp] theorem spoilRcDec_sidx : (spoilRcDec s).regs.sidx = drawn s.draws .sidx := rfl
theorem spoilRcDec_arr : (spoilRcDec s).arr = { s.arr with symmem := (spoilRcDec s).arr.symmem } := rfl
@[simp] theorem spoilBpEnc_cfg : (spoilBpEnc s).cfg = s.cfg := rfl
@[simp] theorem spoilBpEnc_host : (spoilBpEnc s).host = s.host := rfl
@[simp] theorem spoilBpEnc_responses : (spoilBpEnc s).responses = s.responses := rfl
@[simp] theorem spoilBpEnc_draws : (spoilBpEnc s).draws = s.draws + 1 := rfl
@[simp] theorem spoilBpEnc_done : (spoilBpEnc s).regs.done = s.regs.done := rfl
@[simp] theorem spoilBpEnc_fault : (spoilBpEnc s).regs.fault = s.regs.fault := rfl
@[simp] theorem spoilBpEnc_err : (spoilBpEnc s).regs.err = s.regs.err := rfl
@[simp] theorem spoilBpEnc_errinfo : (spoilBpEnc s).regs.errinfo = s.regs.errinfo := rfl
@[simp] theorem spoilBpEnc_symcnt : (spoilBpEnc s).regs.symcnt = s.regs.symcnt := rfl
@[simp] theorem spoilBpEnc_bitlen : (spoilBpEnc s).regs.bitlen = drawn s.draws .bitlen := rfl
@[simp] theorem spoilBpEnc_filelen : (spoilBpEnc s).regs.filelen = s.regs.filelen := rfl
@[simp] theorem spoilBpEnc_total : (spoilBpEnc s).regs.total = s.regs.total := rfl
@[simp] theorem spoilBpEnc_mcount : (spoilBpEnc s).regs.mcount = s.regs.mcount := rfl
@[simp] theorem spoilBpEnc_ccount : (spoilBpEnc s).regs.ccount = s.regs.ccount := rfl
@[simp] theorem spoilBpEnc_resid : (spoilBpEnc s).regs.resid = s.regs.resid := rfl
@[simp] theorem spoilBpEnc_low : (spoilBpEnc s).regs.low = s.regs.low := rfl
@[simp] theorem spoilBpEnc_high : (spoilBpEnc s).regs.high = s.regs.high := rfl
@[simp] theorem spoilBpEnc_value : (spoilBpEnc s).regs.value = s.regs.value := rfl
@[simp] theorem spoilBpEnc_bptr : (spoilBpEnc s).regs.bptr = s.regs.bptr := rfl
@[simp] theorem spoilBpEnc_sidx : (spoilBpEnc s).regs.sidx = drawn s.draws .sidx := rfl
theorem spoilBpEnc_arr : (spoilBpEnc s).arr = { s.arr with bitmem := (spoilBpEnc s).arr.bitmem } := rfl
@[simp] theorem spoilBpDec_cfg : (spoilBpDec s).cfg = s.cfg := rfl
@[simp] theorem spoilBpDec_host : (spoilBpDec s).host = s.host := rfl
@[simp] theorem spoilBpDec_responses : (spoilBpDec s).responses = s.responses := rfl
@[simp] theorem spoilBpDec_draws : (spoilBpDec s).draws = s.draws + 1 := rfl
@[simp] theorem spoilBpDec_done : (spoilBpDec s).regs.done = s.regs.done := rfl
@[simp] theorem spoilBpDec_fault : (spoilBpDec s).regs.fault = s.regs.fault := rfl
@[simp] theorem spoilBpDec_err : (spoilBpDec s).regs.err = s.regs.err := rfl
@[simp] theorem spoilBpDec_errinfo : (spoilBpDec s).regs.errinfo = s.regs.errinfo := rfl
@[simp] theorem spoilBpDec_symcnt : (spoilBpDec s).regs.symcnt = drawn s.draws .symcnt := rfl
@[simp] theorem spoilBpDec_bitlen : (spoilBpDec s).regs.bitlen = s.regs.bitlen := rfl
@[simp] theorem spoilBpDec_filelen : (spoilBpDec s).regs.filelen = s.regs.filelen := rfl
@[simp] theorem spoilBpDec_total : (spoilBpDec s).regs.total = s.regs.total := rfl
@[simp] theorem spoilBpDec_mcount : (spoilBpDec s).regs.mcount = s.regs.mcount := rfl
@[simp] theorem spoilBpDec_ccount : (spoilBpDec s).regs.ccount = s.regs.ccount := rfl
@[simp] theorem spoilBpDec_resid : (spoilBpDec s).regs.resid = drawn s.draws .resid := rfl
@[simp] theorem spoilBpDec_low : (spoilBpDec s).regs.low = s.regs.low := rfl
@[simp] theorem spoilBpDec_high : (spoilBpDec s).regs.high = s.regs.high := rfl
@[simp] theorem spoilBpDec_value : (spoilBpDec s).regs.value = s.regs.value := rfl
@[simp] theorem spoilBpDec_bptr : (spoilBpDec s).regs.bptr = drawn s.draws .bptr := rfl
@[simp] theorem spoilBpDec_sidx : (spoilBpDec s).regs.sidx = drawn s.draws .sidx := rfl
theorem spoilBpDec_arr : (spoilBpDec s).arr = { s.arr with symmem := (spoilBpDec s).arr.symmem } := rfl
@[simp] theorem spoilBsPack_cfg : (spoilBsPack s).cfg = s.cfg := rfl
@[simp] theorem spoilBsPack_host : (spoilBsPack s).host = s.host := rfl
@[simp] theorem spoilBsPack_responses : (spoilBsPack s).responses = s.responses := rfl
@[simp] theorem spoilBsPack_draws : (spoilBsPack s).draws = s.draws + 1 := rfl
@[simp] theorem spoilBsPack_done : (spoilBsPack s).regs.done = s.regs.done := rfl
@[simp] theorem spoilBsPack_fault : (spoilBsPack s).regs.fault = s.regs.fault := rfl
@[simp] theorem spoilBsPack_err : (spoilBsPack s).regs.err = s.regs.err := rfl
@[simp] theorem spoilBsPack_errinfo : (spoilBsPack s).regs.errinfo = s.regs.errinfo := rfl
@[simp] theorem spoilBsPack_symcnt : (spoilBsPack s).regs.symcnt = s.regs.symcnt := rfl
@[simp] theorem spoilBsPack_bitlen : (spoilBsPack s).regs.bitlen = s.regs.bitlen := rfl
@[simp] theorem spoilBsPack_filelen : (spoilBsPack s).regs.filelen = drawn s.draws .filelen := rfl
@[simp] theorem spoilBsPack_total : (spoilBsPack s).regs.total = s.regs.total := rfl
@[simp] theorem spoilBsPack_mcount : (spoilBsPack s).regs.mcount = s.regs.mcount := rfl
@[simp] theorem spoilBsPack_ccount : (spoilBsPack s).regs.ccount = s.regs.ccount := rfl
@[simp] theorem spoilBsPack_resid : (spoilBsPack s).regs.resid = s.regs.resid := rfl
@[simp] theorem spoilBsPack_low : (spoilBsPack s).regs.low = s.regs.low := rfl
@[simp] theorem spoilBsPack_high : (spoilBsPack s).regs.high = s.regs.high := rfl
@[simp] theorem spoilBsPack_value : (spoilBsPack s).regs.value = s.regs.value := rfl
@[simp] theorem spoilBsPack_bptr : (spoilBsPack s).regs.bptr = s.regs.bptr := rfl
@[simp] theorem spoilBsPack_sidx : (spoilBsPack s).regs.sidx = s.regs.sidx := rfl
theorem spoilBsPack_arr : (spoilBsPack s).arr = { s.arr with filemem := (spoilBsPack s).arr.filemem } := rfl
@[simp] theorem spoilBsUnpack_cfg : (spoilBsUnpack s).cfg = s.cfg := rfl
@[simp] theorem spoilBsUnpack_host : (spoilBsUnpack s).host = s.host := rfl
@[simp] theorem spoilBsUnpack_responses : (spoilBsUnpack s).responses = s.responses := rfl
@[simp] theorem spoilBsUnpack_draws : (spoilBsUnpack s).draws = s.draws + 1 := rfl
@[simp] theorem spoilBsUnpack_done : (spoilBsUnpack s).regs.done = s.regs.done := rfl
@[simp] theorem spoilBsUnpack_fault : (spoilBsUnpack s).regs.fault = s.regs.fault := rfl
@[simp] theorem spoilBsUnpack_err : (spoilBsUnpack s).regs.err = s.regs.err := rfl
@[simp] theorem spoilBsUnpack_errinfo : (spoilBsUnpack s).regs.errinfo = s.regs.errinfo := rfl
@[simp] theorem spoilBsUnpack_symcnt : (spoilBsUnpack s).regs.symcnt = s.regs.symcnt := rfl
@[simp] theorem spoilBsUnpack_bitlen : (spoilBsUnpack s).regs.bitlen = drawn s.draws .bitlen := rfl
@[simp] theorem spoilBsUnpack_filelen : (spoilBsUnpack s).regs.filelen = s.regs.filelen := rfl
@[simp] theorem spoilBsUnpack_total : (spoilBsUnpack s).regs.total = s.regs.total := rfl
@[simp] theorem spoilBsUnpack_mcount : (spoilBsUnpack s).regs.mcount = s.regs.mcount := rfl
@[simp] theorem spoilBsUnpack_ccount : (spoilBsUnpack s).regs.ccount = s.regs.ccount := rfl
@[simp] theorem spoilBsUnpack_resid : (spoilBsUnpack s).regs.resid = s.regs.resid := rfl
@[simp] theorem spoilBsUnpack_low : (spoilBsUnpack s).regs.low = s.regs.low := rfl
@[simp] theorem spoilBsUnpack_high : (spoilBsUnpack s).regs.high = s.regs.high := rfl
@[simp] theorem spoilBsUnpack_value : (spoilBsUnpack s).regs.value = s.regs.value := rfl
@[simp] theorem spoilBsUnpack_bptr : (spoilBsUnpack s).regs.bptr = s.regs.bptr := rfl
@[simp] theorem spoilBsUnpack_sidx : (spoilBsUnpack s).regs.sidx = s.regs.sidx := rfl
theorem spoilBsUnpack_arr : (spoilBsUnpack s).arr = { s.arr with bitmem := (spoilBsUnpack s).arr.bitmem } := rfl

end

end Sys2Proof.Machine
end

