-- ==== Sys2Proof/Laws/Ops.lean ====
section
/-! SUPPORT. What each shared operation can do, said once: the accesses (R51 to R53), the loops (R8), the entry checks
(R147), dispatch of a command (R135) and the number a bit sequence spells (R7). -/

namespace Sys2Proof.Machine

/-! ### Sequencing -/

theorem bind_ok_iff {α β : Type} {x : Except Raise α} {f : α → Except Raise β} {b : β} :
    (x >>= f) = .ok b ↔ ∃ a, x = .ok a ∧ f a = .ok b := by
  cases x <;> simp [bind, Except.bind]

theorem bind_error_iff {α β : Type} {x : Except Raise α} {f : α → Except Raise β} {r : Raise} :
    (x >>= f) = .error r ↔ x = .error r ∨ ∃ a, x = .ok a ∧ f a = .error r := by
  cases x <;> simp [bind, Except.bind]

@[simp] theorem ok_bind {α β : Type} (a : α) (f : α → Except Raise β) :
    ((Except.ok a : Except Raise α) >>= f) = f a := rfl

@[simp] theorem error_bind {α β : Type} (r : Raise) (f : α → Except Raise β) :
    ((Except.error r : Except Raise α) >>= f) = .error r := rfl

/-! ### Loops (R8) -/

section
variable {α : Type} {body : Nat → α → Except Raise α}

@[simp] theorem forLoop_zero (k : Nat) (x : α) : forLoop body 0 k x = .ok x := rfl

theorem forLoop_succ (n k : Nat) (x : α) :
    forLoop body (n + 1) k x = (body k x >>= fun y => forLoop body n (k + 1) y) := by
  simp only [forLoop]; cases body k x <;> rfl

/-- A loop that ends keeps what its body keeps. -/
theorem forLoop_keeps {P : Nat → α → Prop} {n a : Nat} {x y : α} (h0 : P a x) (h : forLoop body n a x = .ok y)
    (hs : ∀ k u v, a ≤ k → k < a + n → P k u → body k u = .ok v → P (k + 1) v) : P (a + n) y := by
  induction n generalizing a x with
  | zero => simp at h; simpa [← h] using h0
  | succ n ih =>
    rw [forLoop_succ, bind_ok_iff] at h
    obtain ⟨z, hz, hy⟩ := h
    have := ih (a := a + 1) (hs a x z (Nat.le_refl _) (by omega) h0 hz) hy
      (fun k u v h1 h2 => hs k u v (by omega) (by omega))
    rwa [Nat.add_assoc, Nat.add_comm 1 n] at this

/-- A loop whose body always goes on ends, and keeps what its body keeps. -/
theorem forLoop_ends {P : Nat → α → Prop} {n a : Nat} {x : α} (h0 : P a x)
    (hs : ∀ k u, a ≤ k → k < a + n → P k u → ∃ v, body k u = .ok v ∧ P (k + 1) v) :
    ∃ y, forLoop body n a x = .ok y ∧ P (a + n) y := by
  induction n generalizing a x with
  | zero => exact ⟨x, rfl, h0⟩
  | succ n ih =>
    obtain ⟨z, hz, hP⟩ := hs a x (Nat.le_refl _) (by omega) h0
    obtain ⟨y, hy, hyP⟩ := ih (a := a + 1) hP (fun k u h1 h2 => hs k u (by omega) (by omega))
    refine ⟨y, by rw [forLoop_succ, hz]; exact hy, ?_⟩
    rwa [Nat.add_assoc, Nat.add_comm 1 n] at hyP

/-- A loop that raises does so in one iteration, on a value that keeps what the body keeps. -/
theorem forLoop_raises {P : Nat → α → Prop} {n a : Nat} {x : α} {r : Raise} (h0 : P a x)
    (h : forLoop body n a x = .error r)
    (hs : ∀ k u v, a ≤ k → k < a + n → P k u → body k u = .ok v → P (k + 1) v) :
    ∃ k u, a ≤ k ∧ k < a + n ∧ P k u ∧ body k u = .error r := by
  induction n generalizing a x with
  | zero => simp at h
  | succ n ih =>
    rw [forLoop_succ, bind_error_iff] at h
    rcases h with h | ⟨z, hz, h⟩
    · exact ⟨a, x, Nat.le_refl _, by omega, h0, h⟩
    · obtain ⟨k, u, h1, h2, hP, hk⟩ := ih (a := a + 1) (hs a x z (Nat.le_refl _) (by omega) h0 hz) h
        (fun k u v h1 h2 => hs k u v (by omega) (by omega))
      exact ⟨k, u, by omega, by omega, hP, hk⟩

/-- A loop of `m + n` iterations is one of `m` and then one of `n`. -/
theorem forLoop_add (m n a : Nat) (x : α) :
    forLoop body (m + n) a x = (forLoop body m a x >>= fun y => forLoop body n (a + m) y) := by
  induction m generalizing a x with
  | zero => simp
  | succ m ih =>
    rw [Nat.succ_add, forLoop_succ, forLoop_succ]
    cases body a x with
    | error r => rfl
    | ok z => simp only [ok_bind]; rw [ih]; congr 1; funext y; congr 1; omega

end

/-! ### Reading and writing elements (R51) -/

/-- A read looks at the arrays and the parameters only. -/
theorem memRead_congr {s t : State} (a : Arr) (i : Nat) (hc : t.cfg = s.cfg) (ha : t.arr = s.arr) :
    memRead t a i = memRead s a i := by
  cases a <;> simp [memRead, hc, ha]

theorem memWrite_arr_congr {s t : State} (a : Arr) (i : Nat) (v : Word) (h : t.arr = s.arr) :
    (memWrite t a i v).arr = (memWrite s a i v).arr := by
  cases a <;> simp [memWrite, h]

@[simp] theorem memRead_setDone (s : State) (b : Bool) (a : Arr) (i : Nat) :
    memRead (s.setDone b) a i = memRead s a i := rfl
@[simp] theorem memRead_setLow (s : State) (v : Word) (a : Arr) (i : Nat) :
    memRead (s.setLow v) a i = memRead s a i := rfl
@[simp] theorem memRead_setBounds (s : State) (v u : Word) (a : Arr) (i : Nat) :
    memRead (s.setBounds v u) a i = memRead s a i := rfl
@[simp] theorem memRead_setWindow (s : State) (v u : Word) (a : Arr) (i : Nat) :
    memRead (s.setWindow v u) a i = memRead s a i := rfl
@[simp] theorem memRead_setBptr (s : State) (v : Word) (a : Arr) (i : Nat) :
    memRead (s.setBptr v) a i = memRead s a i := rfl
@[simp] theorem memRead_setSidx (s : State) (v : Word) (a : Arr) (i : Nat) :
    memRead (s.setSidx v) a i = memRead s a i := rfl
@[simp] theorem memRead_setBitlen (s : State) (v : Word) (a : Arr) (i : Nat) :
    memRead (s.setBitlen v) a i = memRead s a i := rfl
@[simp] theorem memRead_setFilelen (s : State) (v : Word) (a : Arr) (i : Nat) :
    memRead (s.setFilelen v) a i = memRead s a i := rfl
@[simp] theorem memRead_setTail (s : State) (v u : Word) (a : Arr) (i : Nat) :
    memRead (s.setTail v u) a i = memRead s a i := rfl
@[simp] theorem memRead_respond (s : State) (r : Response) (a : Arr) (i : Nat) :
    memRead (s.respond r) a i = memRead s a i := rfl
@[simp] theorem memRead_faultEntry (s : State) (r : Raise) (a : Arr) (i : Nat) :
    memRead (faultEntry r s) a i = memRead s a i := rfl

/-- What was written is read back, when it fits the element (R51). -/
theorem memRead_memWrite_same (s : State) (a : Arr) (i : Nat) (v : Word) (h : v.toNat < 2 ^ a.width s.cfg) :
    memRead (memWrite s a i v) a i = v := by
  cases a <;> simp [memRead, memWrite, Memory.read_write_same] <;>
    (apply BitVec.eq_of_toNat_eq; simp [Arr.width] at h ⊢; omega)

/-- A write leaves every other element of its array as it was. -/
theorem memRead_memWrite_index (s : State) (a : Arr) {i j : Nat} (v : Word) (h : j ≠ i) :
    memRead (memWrite s a i v) a j = memRead s a j := by
  cases a <;> simp [memRead, memWrite, Memory.read_write_ne _ _ _ _ h]

/-- A write leaves every other array as it was. -/
theorem memRead_memWrite_array (s : State) {a b : Arr} (i j : Nat) (v : Word) (h : b ≠ a) :
    memRead (memWrite s a i v) b j = memRead s b j := by
  cases a <;> cases b <;> first | rfl | exact absurd rfl h

/-- A byte reads below 256. -/
theorem memRead_bitmem_lt (s : State) (i : Nat) : (memRead s .bitmem i).toNat < 2 ^ 8 := by
  simp only [memRead, BitVec.toNat_setWidth]; omega

theorem memRead_filemem_lt (s : State) (i : Nat) : (memRead s .filemem i).toNat < 2 ^ 8 := by
  simp only [memRead, BitVec.toNat_setWidth]; omega

theorem memRead_clen_lt (s : State) (i : Nat) : (memRead s .clen i).toNat < 2 ^ 6 := by
  simp only [memRead, BitVec.toNat_setWidth]; omega

/-! ### The number a bit sequence spells (R7) -/

@[simp] theorem val_nil : val [] = 0 := rfl

@[simp] theorem val_append_one (q : List Bool) (b : Bool) : val (q ++ [b]) = 2 * val q + b.toNat := by
  simp [val, List.foldl_append]

theorem val_lt (q : List Bool) : val q < 2 ^ q.length := by
  induction q using List.reverseRecOn with
  | nil => simp
  | append_singleton q b ih =>
    rw [val_append_one, List.length_append, List.length_singleton, Nat.pow_succ]
    have := Bool.toNat_le b
    omega

theorem val_injective {p q : List Bool} (hl : p.length = q.length) (h : val p = val q) : p = q := by
  induction p using List.reverseRecOn generalizing q with
  | nil => simpa using hl.symm
  | append_singleton p b ih =>
    rcases List.eq_nil_or_concat q with hq | ⟨q', c, hq⟩
    · simp [hq] at hl
    · rw [List.concat_eq_append] at hq
      subst hq
      simp only [val_append_one, List.length_append, List.length_singleton] at hl h
      have hb : b.toNat = c.toNat ∧ val p = val q' := by
        have := Bool.toNat_le b; have := Bool.toNat_le c; omega
      have hbc : b = c := by cases b <;> cases c <;> simp_all
      rw [ih (by omega) hb.2, hbc]

/-! ### The bit sequence (R52, R53) -/

theorem getbit_of_ge (s : State) {p : Nat} (h : s.regs.bitlen.toNat ≤ p) : getbit s p = false := by
  simp [getbit, Nat.not_lt.2 h]

theorem getbit_congr {s t : State} (p : Nat) (hb : t.regs.bitlen = s.regs.bitlen)
    (hm : memRead t .bitmem (p / 8) = memRead s .bitmem (p / 8)) : getbit t p = getbit s p := by
  simp [getbit, hb, hm]

theorem putBit_lt {old : Word} (r : Nat) (b : Bool) (h : old.toNat < 2 ^ 8) (hr : r < 8) :
    (putBit old r b).toNat < 2 ^ 8 := by
  unfold putBit
  split
  · cases b <;> simp [trunc32]
  · have hbit : (if b then 1#32 <<< (7 - r) else 0#32).toNat < 2 ^ 8 := by
      have : (1#32 <<< (7 - r)).toNat < 2 ^ 8 := by
        interval_cases r <;> decide
      split
      · exact this
      · decide
    rw [BitVec.toNat_or, BitVec.toNat_and]
    exact Nat.or_lt_two_pow (Nat.lt_of_le_of_lt Nat.and_le_left h) hbit

/-- The bits of the byte after `putBit`: bit `7 - r` is `b`; the others are as before, or 0 when the byte is opened. -/
theorem putBit_bit (old : Word) {r j : Nat} (b : Bool) (hr : r < 8) (hj : j < 8) :
    (putBit old r b).getLsbD j =
      if j = 7 - r then b else if r = 0 then false else old.getLsbD j := by
  unfold putBit
  by_cases h0 : r = 0
  · subst h0
    interval_cases j <;> cases b <;> simp [trunc32]
  · simp only [h0, if_false]
    interval_cases r <;> first | omega | (interval_cases j <;> cases b <;> simp)

/-- Everything `emit` can do (R53): it raises `OVERFLOW` on a full memory; otherwise it puts the bit and counts it. -/
theorem emit_cases (b : Bool) (s : State) :
    (8 * s.cfg.bMax ≤ s.regs.bitlen.toNat ∧ emit b s = .error { cause := .overflow, info := 0 }) ∨
    (s.regs.bitlen.toNat < 8 * s.cfg.bMax ∧ ∃ t, emit b s = .ok t ∧
      t.regs = { s.regs with bitlen := s.regs.bitlen + 1 } ∧
      t.arr = { s.arr with bitmem := t.arr.bitmem } ∧
      t.cfg = s.cfg ∧ t.draws = s.draws ∧ t.host = s.host ∧ t.responses = s.responses ∧
      memRead t .bitmem (s.regs.bitlen.toNat / 8) =
        putBit (memRead s .bitmem (s.regs.bitlen.toNat / 8)) (s.regs.bitlen.toNat % 8) b ∧
      ∀ i, i ≠ s.regs.bitlen.toNat / 8 → memRead t .bitmem i = memRead s .bitmem i) := by
  by_cases h : 8 * s.cfg.bMax ≤ s.regs.bitlen.toNat
  · exact .inl ⟨h, by simp [emit, h]⟩
  · refine .inr ⟨by omega, _, if_neg h, rfl, rfl, rfl, rfl, rfl, rfl, ?_, fun i hi => ?_⟩
    · exact memRead_memWrite_same s .bitmem _ _
        (putBit_lt _ _ (memRead_bitmem_lt s _) (Nat.mod_lt _ (by decide)))
    · exact memRead_memWrite_index s .bitmem _ hi

/-- What `emit` does to the bits (R53), when the count does not wrap: the new bit is the last, earlier bits stay. -/
theorem emit_getbit {b : Bool} {s t : State} (h : emit b s = .ok t) (hw : s.regs.bitlen.toNat + 1 < 2 ^ 32) :
    t.regs.bitlen.toNat = s.regs.bitlen.toNat + 1 ∧
    ∀ p, getbit t p = if p = s.regs.bitlen.toNat then b else getbit s p := by
  rcases emit_cases b s with ⟨_, he⟩ | ⟨_, u, hu, hr, _, _, _, _, _, hbyte, hrest⟩
  · rw [he] at h; exact absurd h (by simp)
  · obtain rfl : u = t := by rw [hu] at h; simpa using h
    have hlen : u.regs.bitlen.toNat = s.regs.bitlen.toNat + 1 := by
      rw [hr]; simp only [BitVec.toNat_add, show (1 : Word).toNat = 1 from rfl]; omega
    refine ⟨hlen, fun p => ?_⟩
    by_cases hp : p = s.regs.bitlen.toNat
    · subst hp
      simp only [getbit, hlen, hbyte, if_true, Nat.lt_succ_self]
      rw [putBit_bit _ _ (Nat.mod_lt _ (by decide)) (by omega)]
      simp
    · simp only [hp, if_false]
      by_cases hlt : p < s.regs.bitlen.toNat
      · have hlt' : p < s.regs.bitlen.toNat + 1 := by omega
        simp only [getbit, hlen, hlt, hlt', if_true]
        by_cases hi : p / 8 = s.regs.bitlen.toNat / 8
        · rw [hi, hbyte, putBit_bit _ _ (Nat.mod_lt _ (by decide)) (by omega)]
          have h1 : ¬ 7 - p % 8 = 7 - s.regs.bitlen.toNat % 8 := by omega
          have h2 : ¬ s.regs.bitlen.toNat % 8 = 0 := by omega
          simp [h1, h2]
        · rw [hrest _ hi]
      · rw [getbit_of_ge s (by omega), getbit_of_ge u (by omega)]

/-! ### The entry checks (R147) -/

theorem checkSymcnt_eq (s : State) : checkSymcnt s =
    if s.regs.symcnt.toNat ≤ s.cfg.sMax then .ok () else .error { cause := .badLength, info := 0 } := by
  unfold checkSymcnt; split <;> split <;> first | rfl | omega

theorem checkBitlen_eq (s : State) : checkBitlen s =
    if s.regs.bitlen.toNat ≤ 8 * s.cfg.bMax then .ok () else .error { cause := .badLength, info := 1 } := by
  unfold checkBitlen; split <;> split <;> first | rfl | omega

theorem checkFilelen_eq (s : State) : checkFilelen s =
    if s.regs.filelen.toNat ≤ s.cfg.fMax then .ok () else .error { cause := .badLength, info := 2 } := by
  unfold checkFilelen; split <;> split <;> first | rfl | omega

theorem checkModel_ok {s : State} (h : ModelOk s) : checkModel s = .ok () := by simp only [checkModel, if_pos h]

theorem checkModel_error {s : State} (h : ¬ ModelOk s) :
    checkModel s = .error { cause := .modelInvalid, info := 0 } := by simp only [checkModel, if_neg h]

theorem checkTable_ok {s : State} (h : CodeOk s) : checkTable s = .ok () := by simp only [checkTable, if_pos h]

theorem checkTable_error {s : State} (h : ¬ CodeOk s) :
    checkTable s = .error { cause := .tableInvalid, info := 0 } := by simp only [checkTable, if_neg h]

/-! ### Dispatch (R135) -/

theorem runCommand_ignored {body : State → Except Raise State} {spoil : State → State} {s : State}
    (h : s.regs.fault = true) : runCommand body spoil s = s := by
  simp [runCommand, h]

theorem runCommand_completes {body : State → Except Raise State} {spoil : State → State} {s t : State}
    (h : s.regs.fault = false) (hb : body (s.setDone false) = .ok t) :
    runCommand body spoil s = t.setDone true := by simp [runCommand, h, hb]

theorem runCommand_raises {body : State → Except Raise State} {spoil : State → State} {s : State} {r : Raise}
    (h : s.regs.fault = false) (hb : body (s.setDone false) = .error r) :
    runCommand body spoil s = faultEntry r (spoil (s.setDone false)) := by simp [runCommand, h, hb]

/-- Everything dispatch can do: ignore, complete, or enter a fault. -/
theorem runCommand_cases (body : State → Except Raise State) (spoil : State → State) (s : State) :
    (s.regs.fault = true ∧ runCommand body spoil s = s) ∨
    (s.regs.fault = false ∧ ∃ t, body (s.setDone false) = .ok t ∧
      runCommand body spoil s = t.setDone true) ∨
    (s.regs.fault = false ∧ ∃ r, body (s.setDone false) = .error r ∧
      runCommand body spoil s = faultEntry r (spoil (s.setDone false))) := by
  cases hf : s.regs.fault with
  | true => exact .inl ⟨rfl, runCommand_ignored hf⟩
  | false =>
    cases hb : body (s.setDone false) with
    | ok t => exact .inr (.inl ⟨rfl, t, rfl, runCommand_completes hf hb⟩)
    | error r => exact .inr (.inr ⟨rfl, r, rfl, runCommand_raises hf hb⟩)

end Sys2Proof.Machine
end

