-- ==== Sys2Proof/Laws/Operands.lean ====
section
/-! SUPPORT. What the lookups and the table operands can answer (R31, R32, R67, R89, R94, R111 to R113). -/

namespace Sys2Proof.Machine

theorem modelEntry_some {s : State} {sym : Word} {i : Nat} (h : modelEntry s sym = some i) :
    i < s.regs.mcount.toNat ∧ memRead s .msym i = sym := by
  obtain ⟨h1, h2, _⟩ := List.find?_range_eq_some.1 h
  exact ⟨List.mem_range.1 h2, by simpa using h1⟩

theorem modelEntry_none {s : State} {sym : Word} (h : modelEntry s sym = none) {i : Nat}
    (hi : i < s.regs.mcount.toNat) : memRead s .msym i ≠ sym := by
  have := List.find?_eq_none.1 h i (List.mem_range.2 hi)
  simpa using this

theorem modelShare_some {s : State} {x i : Nat} (h : modelShare s x = some i) :
    i < s.regs.mcount.toNat ∧ mcumAt s i ≤ x ∧ x < mcumAt s i + mfreqAt s i := by
  obtain ⟨h1, h2, _⟩ := List.find?_range_eq_some.1 h
  exact ⟨List.mem_range.1 h2, by simpa using h1⟩

theorem modelShare_none {s : State} {x : Nat} (h : modelShare s x = none) {i : Nat}
    (hi : i < s.regs.mcount.toNat) : ¬ (mcumAt s i ≤ x ∧ x < mcumAt s i + mfreqAt s i) := by
  have := List.find?_eq_none.1 h i (List.mem_range.2 hi)
  simpa using this

theorem codeEntry_some {s : State} {sym : Word} {j : Nat} (h : codeEntry s sym = some j) :
    j < s.regs.ccount.toNat ∧ memRead s .csym j = sym := by
  obtain ⟨h1, h2, _⟩ := List.find?_range_eq_some.1 h
  exact ⟨List.mem_range.1 h2, by simpa using h1⟩

theorem codeEntry_none {s : State} {sym : Word} (h : codeEntry s sym = none) {j : Nat}
    (hj : j < s.regs.ccount.toNat) : memRead s .csym j ≠ sym := by
  have := List.find?_eq_none.1 h j (List.mem_range.2 hj)
  simpa using this

theorem codeMatch_some {s : State} {q : List Bool} {j : Nat} (h : codeMatch s q = some j) :
    j < s.regs.ccount.toNat ∧ clenAt s j = q.length ∧ cbitsAt s j = val q := by
  obtain ⟨h1, h2, _⟩ := List.find?_range_eq_some.1 h
  exact ⟨List.mem_range.1 h2, by simpa using h1⟩

theorem codeMatch_none {s : State} {q : List Bool} (h : codeMatch s q = none) {j : Nat}
    (hj : j < s.regs.ccount.toNat) : ¬ (clenAt s j = q.length ∧ cbitsAt s j = val q) := by
  have := List.find?_eq_none.1 h j (List.mem_range.2 hj)
  simpa using this

@[simp] theorem codeword_length (s : State) (j : Nat) : (codeword s j).length = clenAt s j := by simp [codeword]

/-- The low `n` bits of a number, first bit most significant, spell it modulo `2 ^ n`. -/
theorem val_testBits (x n : Nat) :
    val ((List.range n).map (fun t => x.testBit (n - 1 - t))) = x % 2 ^ n := by
  induction n generalizing x with
  | zero => simp [Nat.mod_one]
  | succ n ih =>
    have hl : (List.range (n + 1)).map (fun t => x.testBit (n + 1 - 1 - t)) =
        (List.range n).map (fun t => (x / 2).testBit (n - 1 - t)) ++ [x.testBit 0] := by
      rw [List.range_succ, List.map_append]
      congr 1
      · refine List.map_congr_left fun t ht => ?_
        have := List.mem_range.1 ht
        rw [← Nat.testBit_succ]
        congr 1; omega
      · simp
    rw [hl, val_append_one, ih, Nat.testBit_zero, Nat.pow_succ']
    have h2 : x % (2 * 2 ^ n) = x % 2 + 2 * (x / 2 % 2 ^ n) := Nat.mod_mul
    rw [h2]
    rcases Nat.mod_two_eq_zero_or_one x with h | h
    · simp [h]
    · simp [h]; omega

/-- "`val(c) = CBITS[j]`" for the codeword `c` of an entry without stray high bits (R32, R67). -/
theorem val_codeword {s : State} {j : Nat} (h : cbitsAt s j < 2 ^ clenAt s j) : val (codeword s j) = cbitsAt s j := by
  have := val_testBits (cbitsAt s j) (clenAt s j)
  rw [Nat.mod_eq_of_lt h] at this
  exact this

end Sys2Proof.Machine
end

