-- ==== Sys2Proof/Laws/PerInstr.lean ====
section
/-! SUPPORT. The family `Encoding`: each command's word is a legal word of format `C` (R60) that carries the
command's opcode. -/

namespace Sys2Proof.Laws

/-- The word of a command is well-formed: its fields are those of the command, its reserved field is 0 and its opcode
assigned. -/
def Encoding.Statement (i : Instr) : Prop :=
  i.wf = true ∧ fieldsOf (encode i) = { rsv := 0#24, op := i.opcode } ∧ (fieldsOf (encode i)).wf = true

theorem Encoding.nop : Encoding.Statement .nop := by unfold Encoding.Statement; decide
theorem Encoding.rcEnc : Encoding.Statement .rcEnc := by unfold Encoding.Statement; decide
theorem Encoding.rcDec : Encoding.Statement .rcDec := by unfold Encoding.Statement; decide
theorem Encoding.bpEnc : Encoding.Statement .bpEnc := by unfold Encoding.Statement; decide
theorem Encoding.bpDec : Encoding.Statement .bpDec := by unfold Encoding.Statement; decide
theorem Encoding.bsPack : Encoding.Statement .bsPack := by unfold Encoding.Statement; decide
theorem Encoding.bsUnpack : Encoding.Statement .bsUnpack := by unfold Encoding.Statement; decide
theorem Encoding.sreset : Encoding.Statement .sreset := by unfold Encoding.Statement; decide

end Sys2Proof.Laws
end

