-- ==== Sys2Proof/Laws/RangeCoder.lean ====
section
/-! SUPPORT. What the micro-steps of the range coder can answer (R85 to R88, R93 to R95). -/

namespace Sys2Proof.Machine

/-- Bit 31 of a word says in which half of the range it lies. -/
theorem getLsbD_31 (w : Word) : w.getLsbD 31 = decide (2 ^ 31 ≤ w.toNat) := by
  have := BitVec.msb_eq_decide w
  simpa [BitVec.msb_eq_getLsbD_last] using this

theorem topBitsAgree_iff (s : State) :
    topBitsAgree s = true ↔ (2 ^ 31 ≤ s.regs.low.toNat ↔ 2 ^ 31 ≤ s.regs.high.toNat) := by
  simp only [topBitsAgree, getLsbD_31, beq_iff_eq, decide_eq_decide]

/-- Everything `NARROW` can do (R85): raise `RANGE_COLLAPSE` with the symbol's index when the share is empty, else
write both bounds and nothing else. -/
theorem narrow_cases (i k : Nat) (s : State) :
    (rangeOf s * (mcumAt s i + mfreqAt s i) / s.regs.total.toNat = rangeOf s * mcumAt s i / s.regs.total.toNat ∧
      narrow i k s = .error { cause := .rangeCollapse, info := BitVec.ofNat 32 k }) ∨
    (rangeOf s * (mcumAt s i + mfreqAt s i) / s.regs.total.toNat ≠ rangeOf s * mcumAt s i / s.regs.total.toNat ∧
      narrow i k s = .ok (s.setBounds
        (BitVec.ofNat 32 (s.regs.low.toNat + rangeOf s * mcumAt s i / s.regs.total.toNat))
        (BitVec.ofNat 32
          (s.regs.low.toNat + rangeOf s * (mcumAt s i + mfreqAt s i) / s.regs.total.toNat - 1)))) := by
  by_cases h : rangeOf s * (mcumAt s i + mfreqAt s i) / s.regs.total.toNat =
      rangeOf s * mcumAt s i / s.regs.total.toNat
  · exact .inl ⟨h, by simp [narrow, h]⟩
  · exact .inr ⟨h, by simp [narrow, h]⟩

/-- One shift of the bounds, as numbers (R86). -/
theorem shiftBounds_low (s : State) : (shiftBounds s).regs.low.toNat = 2 * s.regs.low.toNat % 2 ^ 32 := by
  simp [shiftBounds, trunc32]

theorem shiftBounds_high (s : State) : (shiftBounds s).regs.high.toNat = 2 * s.regs.high.toNat % 2 ^ 32 + 1 := by
  simp only [shiftBounds, trunc32, setBounds_high, BitVec.toNat_add, BitVec.toNat_ofNat,
    show (1 : Word).toNat = 1 from rfl]
  omega

/-- The steps of `RENORM_ENC` (R86). -/
theorem renormEnc_stop {n : Nat} {s : State} (h : topBitsAgree s = false) : renormEnc n s = .ok s := by
  cases n <;> simp [renormEnc, h]

theorem renormEnc_go {n : Nat} {s : State} (h : topBitsAgree s = true) :
    renormEnc (n + 1) s = (emit (s.regs.low.getLsbD 31) s >>= fun t => renormEnc n (shiftBounds t)) := by
  simp only [renormEnc, h, if_true]; cases emit (s.regs.low.getLsbD 31) s <;> rfl

/-- The steps of `RENORM_DEC` (R95). -/
theorem renormDec_stop {n : Nat} {s : State} (h : topBitsAgree s = false) : renormDec n s = s := by
  cases n <;> simp [renormDec, h]

theorem renormDec_go {n : Nat} {s : State} (h : topBitsAgree s = true) :
    renormDec (n + 1) s = renormDec n ((shiftBounds s).setWindow
      (trunc32 (2 * s.regs.value.toNat) + BitVec.ofNat 32 (getbit s s.regs.bptr.toNat).toNat)
      (s.regs.bptr + 1)) := by
  simp [renormDec, h]

/-- `RENORM_DEC` changes the bounds and the window and nothing else (R95). -/
theorem renormDec_frame (n : Nat) (s : State) :
    ∃ lo hi v p, renormDec n s = (s.setBounds lo hi).setWindow v p := by
  induction n generalizing s with
  | zero => exact ⟨s.regs.low, s.regs.high, s.regs.value, s.regs.bptr, rfl⟩
  | succ n ih =>
    cases h : topBitsAgree s with
    | false => exact ⟨s.regs.low, s.regs.high, s.regs.value, s.regs.bptr, by rw [renormDec_stop h]; rfl⟩
    | true =>
      rw [renormDec_go h]
      obtain ⟨lo, hi, v, p, he⟩ := ih ((shiftBounds s).setWindow
        (trunc32 (2 * s.regs.value.toNat) + BitVec.ofNat 32 (getbit s s.regs.bptr.toNat).toNat)
        (s.regs.bptr + 1))
      exact ⟨lo, hi, v, p, he⟩

/-- Everything `DEC_SELECT` can do (R94): an entry whose interval holds `scaled`, or `DESYNC`. -/
theorem decSelect_cases (k : Nat) (s : State) :
    (∃ i, decSelect k s = .ok i ∧ s.regs.low.toNat ≤ s.regs.value.toNat ∧
      s.regs.value.toNat ≤ s.regs.high.toNat ∧ i < s.regs.mcount.toNat ∧
      mcumAt s i ≤ scaledOf s ∧ scaledOf s < mcumAt s i + mfreqAt s i) ∨
    (decSelect k s = .error { cause := .desync, info := BitVec.ofNat 32 k } ∧
      (s.regs.value.toNat < s.regs.low.toNat ∨ s.regs.high.toNat < s.regs.value.toNat ∨
        modelShare s (scaledOf s) = none)) := by
  unfold decSelect
  by_cases h : s.regs.value.toNat < s.regs.low.toNat ∨ s.regs.high.toNat < s.regs.value.toNat
  · exact .inr ⟨if_pos h, h.imp_right .inl⟩
  · rw [if_neg h]
    rw [not_or, Nat.not_lt, Nat.not_lt] at h
    cases hm : modelShare s (scaledOf s) with
    | none => exact .inr ⟨rfl, .inr (.inr rfl)⟩
    | some i => exact .inl ⟨i, rfl, h.1, h.2, modelShare_some hm⟩

end Sys2Proof.Machine
end

