-- ==== Sys2Proof/Laws/Step.lean ====
section
/-! SUPPORT. Everything one step can do (R18, R43, R46, R55, R135, R170), and what each command's meaning answers. -/

namespace Sys2Proof.Machine

/-- Every meaning answers a next state (R135). -/
theorem exec_next (i : Instr) (s : State) : ∃ t, exec i s = .next t := by
  cases i <;> exact ⟨_, rfl⟩

/-- The commands other than `SRESET` go through dispatch (R135). -/
theorem exec_eq_runCommand (i : Instr) (h : i ≠ .sreset) :
    ∃ body spoil, ∀ s, exec i s = .next (runCommand body spoil s) := by
  cases i <;> first | exact absurd rfl h | exact ⟨_, _, fun _ => rfl⟩

theorem step_idle {s : State} (h : s.host = []) : step s = .next s := by simp [step, fetch, h]

theorem step_move {s : State} {op : HostOp} {rest : List HostOp} (h : s.host = op :: rest)
    (hc : commandWord s.cfg op = none) : step s = .next (plainMove op { s with host := rest }) := by
  simp [step, fetch, h, hc]

theorem step_command {s : State} {op : HostOp} {rest : List HostOp} {w : Word} {i : Instr}
    (h : s.host = op :: rest) (hc : commandWord s.cfg op = some w) (hd : decode w = .ok i) :
    step s = answerOk (exec i { s with host := rest }) := by
  simp [step, fetch, h, hc, hd]

theorem step_illegal {s : State} {op : HostOp} {rest : List HostOp} {w : Word} {e : DecodeError}
    (h : s.host = op :: rest) (hc : commandWord s.cfg op = some w) (hd : decode w = .error e) :
    step s = .next ((illegalCommand w { s with host := rest }).respond .ok) := by
  simp [step, fetch, h, hc, hd]

/-- Everything one step can do: nothing when idle; a read, a write or a reset; a command; an illegal command. -/
theorem step_cases {s t : State} (h : step s = .next t) :
    (s.host = [] ∧ t = s) ∨
    (∃ op rest, s.host = op :: rest ∧ commandWord s.cfg op = none ∧ t = plainMove op { s with host := rest }) ∨
    (∃ op rest w i u, s.host = op :: rest ∧ commandWord s.cfg op = some w ∧ decode w = .ok i ∧
      exec i { s with host := rest } = .next u ∧ t = u.respond .ok) ∨
    (∃ op rest w e, s.host = op :: rest ∧ commandWord s.cfg op = some w ∧ decode w = .error e ∧
      t = (illegalCommand w { s with host := rest }).respond .ok) := by
  match hh : s.host with
  | [] => exact .inl ⟨rfl, by rw [step_idle hh] at h; simpa using h.symm⟩
  | op :: rest =>
    match hc : commandWord s.cfg op with
    | none => exact .inr (.inl ⟨op, rest, rfl, hc, by rw [step_move hh hc] at h; simpa using h.symm⟩)
    | some w =>
      match hd : decode w with
      | .ok i =>
        obtain ⟨u, hu⟩ := exec_next i { s with host := rest }
        refine .inr (.inr (.inl ⟨op, rest, w, i, u, rfl, hc, hd, hu, ?_⟩))
        rw [step_command hh hc hd, hu] at h
        simpa [answerOk] using h.symm
      | .error e =>
        exact .inr (.inr (.inr ⟨op, rest, w, e, rfl, hc, hd, by rw [step_illegal hh hc hd] at h; simpa using h.symm⟩))

end Sys2Proof.Machine
end

