-- ==== Sys2Proof/Laws/Safety.lean ====
section
/-! SUPPORT. Laws of the terms claims are stated in: the invariant under the shared operations, and the bit sequence. -/

namespace Sys2Proof.Machine

/-- A read returns a value of the element's width (R44, R51). -/
theorem memRead_lt {s : State} (h : ArraysOk s.cfg s.arr s.draws) (a : Arr) (i : Nat) :
    (memRead s a i).toNat < 2 ^ a.width s.cfg := by
  obtain ⟨⟨_, f1⟩, _, _, ⟨_, f2⟩, _, _, ⟨_, f3⟩, _, _⟩ := h
  cases a with
  | msym => exact Memory.read_lt _ _ _ f1
  | csym => exact Memory.read_lt _ _ _ f2
  | symmem => exact Memory.read_lt _ _ _ f3
  | mfreq => exact BitVec.isLt _
  | mcum => exact BitVec.isLt _
  | cbits => exact BitVec.isLt _
  | clen => exact memRead_clen_lt s i
  | bitmem => exact memRead_bitmem_lt s i
  | filemem => exact memRead_filemem_lt s i

/-- A write inside its array of a value that fits keeps the canonical forms (R51). -/
theorem memWrite_arraysOk {s : State} (h : ArraysOk s.cfg s.arr s.draws) {a : Arr} {i : Nat} {v : Word}
    (hi : i < a.size s.cfg) (hv : v.toNat < 2 ^ a.width s.cfg) :
    ArraysOk s.cfg (memWrite s a i v).arr s.draws := by
  obtain ⟨⟨w1, f1⟩, w2, w3, ⟨w4, f4⟩, w5, w6, ⟨w7, f7⟩, w8, w9⟩ := h
  cases a with
  | msym => exact ⟨⟨Memory.write_wf v w1 hi, Memory.write_fits f1 hv⟩, w2, w3, ⟨w4, f4⟩, w5, w6, ⟨w7, f7⟩, w8, w9⟩
  | mfreq => exact ⟨⟨w1, f1⟩, Memory.write_wf v w2 hi, w3, ⟨w4, f4⟩, w5, w6, ⟨w7, f7⟩, w8, w9⟩
  | mcum => exact ⟨⟨w1, f1⟩, w2, Memory.write_wf v w3 hi, ⟨w4, f4⟩, w5, w6, ⟨w7, f7⟩, w8, w9⟩
  | csym => exact ⟨⟨w1, f1⟩, w2, w3, ⟨Memory.write_wf v w4 hi, Memory.write_fits f4 hv⟩, w5, w6, ⟨w7, f7⟩, w8, w9⟩
  | clen => exact ⟨⟨w1, f1⟩, w2, w3, ⟨w4, f4⟩, Memory.write_wf _ w5 hi, w6, ⟨w7, f7⟩, w8, w9⟩
  | cbits => exact ⟨⟨w1, f1⟩, w2, w3, ⟨w4, f4⟩, w5, Memory.write_wf v w6 hi, ⟨w7, f7⟩, w8, w9⟩
  | symmem => exact ⟨⟨w1, f1⟩, w2, w3, ⟨w4, f4⟩, w5, w6, ⟨Memory.write_wf v w7 hi, Memory.write_fits f7 hv⟩, w8, w9⟩
  | bitmem => exact ⟨⟨w1, f1⟩, w2, w3, ⟨w4, f4⟩, w5, w6, ⟨w7, f7⟩, Memory.write_wf _ w8 hi, w9⟩
  | filemem => exact ⟨⟨w1, f1⟩, w2, w3, ⟨w4, f4⟩, w5, w6, ⟨w7, f7⟩, w8, Memory.write_wf _ w9 hi⟩

/-- A later draw keeps the canonical forms. -/
theorem ArraysOk.mono {c : Config} {a : Arrays} {d e : Nat} (h : ArraysOk c a d) (hd : d ≤ e) : ArraysOk c a e := by
  obtain ⟨⟨w1, f1⟩, w2, w3, ⟨w4, f4⟩, w5, w6, ⟨w7, f7⟩, w8, w9⟩ := h
  exact ⟨⟨Memory.wf_mono w1 hd, f1⟩, Memory.wf_mono w2 hd, Memory.wf_mono w3 hd, ⟨Memory.wf_mono w4 hd, f4⟩, Memory.wf_mono w5 hd, Memory.wf_mono w6 hd,
    ⟨Memory.wf_mono w7 hd, f7⟩, Memory.wf_mono w8 hd, Memory.wf_mono w9 hd⟩

/-- Reset leaves the canonical forms (R170). -/
theorem Arrays.unspecified_ok (c : Config) {d e : Nat} (h : d < e) : ArraysOk c (.unspecified d) e := by
  refine ⟨⟨?_, Memory.unspecified_fits _ _⟩, ?_, ?_, ⟨?_, Memory.unspecified_fits _ _⟩, ?_, ?_,
    ⟨?_, Memory.unspecified_fits _ _⟩, ?_, ?_⟩ <;> exact Memory.unspecified_wf h

@[simp] theorem bitSeq_length (s : State) : (bitSeq s).length = s.regs.bitlen.toNat := by simp [bitSeq]

theorem bitSeq_getElem (s : State) (p : Nat) (h : p < (bitSeq s).length) : (bitSeq s)[p] = getbit s p := by
  simp [bitSeq]

@[simp] theorem natBits_length (w n : Nat) : (natBits w n).length = w := by simp [natBits]

/-- `emit` appends one bit to the bit sequence (R53), when the count does not wrap. -/
theorem emit_bitSeq {b : Bool} {s t : State} (h : emit b s = .ok t) (hw : s.regs.bitlen.toNat + 1 < 2 ^ 32) :
    bitSeq t = bitSeq s ++ [b] := by
  obtain ⟨hl, hb⟩ := emit_getbit h hw
  rw [bitSeq, hl, List.range_succ, List.map_append]
  congr 1
  · refine List.map_congr_left fun p hp => ?_
    have := List.mem_range.1 hp
    rw [hb, if_neg (by omega)]
  · simp [hb]

end Sys2Proof.Machine
end

