-- ==== Sys2Proof/Tests/Slice0.lean ====
section
/-! SUPPORT. Tests on small states, and for each obligation with hypotheses a witness that meets them all together.
Expected values are those of spec/95_test_vectors.md (the vector is named in each test), never the model's own. -/

set_option Elab.async false

namespace Sys2Proof.Tests

open Sys2Proof.Machine

/-! ### Helpers -/

/-- The state after the host's moves `ops`, from reset, with parameters `c`. -/
def started (c : Config) (ops : List HostOp) : State :=
  match Host.Core.run Sys2Proof.core ops.length { State.reset with cfg := c, host := ops } with
  | .next s => s
  | .fault _ => State.reset
  | .refused _ => State.reset

/-- The state `exec i s` answers. -/
def ran (i : Instr) (s : State) : State :=
  match exec i s with
  | .next t => t
  | .fault _ => s
  | .refused _ => s

theorem exec_ran (i : Instr) (s : State) : exec i s = .next (ran i s) := by cases i <;> rfl

/-- A small engine: 4 symbols, 8 bytes of bit memory, 9 bytes of file memory. -/
def small : Config :=
  { symW := 8, mMax := 8, ctMax := 8, cwMax := 32, sMax := 4, bMax := 8, fMax := 9, hostBase := 0 }

/-- The model ABC of spec/95 (Conventions). -/
def abc : List HostOp := ldmodel [(0x41, 5, 0), (0x42, 3, 5), (0x43, 2, 8)] 10

/-- The code table T3 of spec/95 (Conventions). -/
def t3 : List HostOp := ldcode [(0x41, [false]), (0x42, [true, false]), (0x43, [true, true])]

/-- "AAAAABBBCC". -/
def scenario : List Nat := [0x41, 0x41, 0x41, 0x41, 0x41, 0x42, 0x42, 0x42, 0x43, 0x43]

/-- Elements 0 to `n - 1` of an array, as numbers. -/
def elems (s : State) (a : Arr) (n : Nat) : List Nat := (List.range n).map (fun k => (memRead s a k).toNat)

/-- `STATUS`, `ERR`, `ERRINFO`. -/
def stat (s : State) : Nat × Nat × Nat := (s.regs.status.toNat, s.regs.err.toNat, s.regs.errinfo.toNat)

/-! ### Well-formedness: each check refuses an ill-formed term -/

/-- A word with a reserved bit set (R60). -/
theorem test_reserved_bits_refused : FormatC.reservedOk { rsv := 0x000001#24, op := 0x01#8 } = false := by decide
/-- The first unassigned opcode (R64). -/
theorem test_unassigned_opcode_refused : FormatC.opcodeOk { rsv := 0#24, op := 0x08#8 } = false := by decide
theorem test_illformed_words_refused :
    FormatC.wf { rsv := 0x000001#24, op := 0x07#8 } = false ∧ FormatC.wf { rsv := 0#24, op := 0xFF#8 } = false ∧
    FormatC.wf { rsv := 0#24, op := 0x07#8 } = true := by decide
/-- A violation of each constraint of R5, and the two extremes R5 allows. -/
theorem test_parameters_refused :
    ¬ Config.Ok { small with symW := 33 } ∧ ¬ Config.Ok { small with mMax := 257, symW := 9 } ∧
    ¬ Config.Ok { small with symW := 2 } ∧ ¬ Config.Ok { small with ctMax := 0 } ∧
    ¬ Config.Ok { small with cwMax := 33 } ∧ ¬ Config.Ok { small with sMax := 2 ^ 18 + 1 } ∧
    ¬ Config.Ok { small with bMax := 0 } ∧ ¬ Config.Ok { small with fMax := 2 ^ 19 + 1 } ∧
    ¬ Config.Ok { small with hostBase := 2 } := by and_intros <;> decide
theorem test_parameters_accepted :
    Config.Ok small ∧ Config.Ok .standard ∧
    Config.Ok { symW := 1, mMax := 2, ctMax := 1, cwMax := 1, sMax := 1, bMax := 1, fMax := 1, hostBase := 4 } ∧
    Config.Ok { symW := 32, mMax := 256, ctMax := 256, cwMax := 32, sMax := 2 ^ 18, bMax := 2 ^ 19, fMax := 2 ^ 19,
                hostBase := 0 } := by and_intros <;> decide

/-! ### Decoding: every word of the opcode map, written out from R60 and R63 -/

theorem test_decode_nop : decode 0b00000000000000000000000000000000#32 = .ok .nop := rfl
theorem test_decode_rcEnc : decode 0b00000000000000000000000000000001#32 = .ok .rcEnc := rfl
theorem test_decode_rcDec : decode 0b00000000000000000000000000000010#32 = .ok .rcDec := rfl
theorem test_decode_bpEnc : decode 0b00000000000000000000000000000011#32 = .ok .bpEnc := rfl
theorem test_decode_bpDec : decode 0b00000000000000000000000000000100#32 = .ok .bpDec := rfl
theorem test_decode_bsPack : decode 0b00000000000000000000000000000101#32 = .ok .bsPack := rfl
theorem test_decode_bsUnpack : decode 0b00000000000000000000000000000110#32 = .ok .bsUnpack := rfl
theorem test_decode_sreset : decode 0b00000000000000000000000000000111#32 = .ok .sreset := rfl
theorem test_decode_first_unassigned : decode 0x00000008#32 = .error .unassignedOpcode := rfl
/-- R137: "the word 0x00000107 is not SRESET; it is illegal". -/
theorem test_decode_reserved_field : decode 0x00000107#32 = .error .reservedNotZero := rfl
theorem test_decode_top_bit : decode 0x80000000#32 = .error .reservedNotZero := rfl
/-- A placed command word runs as the first step after reset (V70). -/
theorem test_fetched_word_runs :
    ∃ t, step (State.reset.withFetchWord 32 0x00000000) = .next t ∧ stat t = (1, 0, 0) := ⟨_, rfl, by decide⟩

/-! ### One command on a small state -/

/-- V70, and R135's worked example with V71's first line. -/
theorem test_nop : stat (started small [cmdOp .nop]) = (1, 0, 0) := by decide +kernel
theorem test_illegal : stat (started small [.write 0 0x00000100]) = (2, 1, 0x100) := by decide +kernel
/-- V71: ignored while `FAULT` is 1, registers still writable, then `SRESET`. -/
theorem test_sreset :
    let s := started small [.write 0 0x100, cmdOp .rcEnc, .write 0 0x107, wrReg .symcnt 3]
    let t := ran .sreset s
    stat s = (2, 1, 0x100) ∧ stat t = (0, 0, 0) ∧ t.regs.symcnt = 0 ∧ t.regs.high = 0xFFFFFFFF := by decide +kernel
/-- V20: the source's Scenario C. -/
theorem test_rcEnc :
    let t := started .standard (ldsym scenario ++ abc ++ [cmdOp .rcEnc])
    stat t = (1, 0, 0) ∧ t.regs.bitlen = 46 ∧ elems t .bitmem 6 = [0x05, 0xC4, 0x71, 0xB4, 0x70, 0x80] ∧
      t.regs.low = 0 ∧ t.regs.high = 0xA9FBE57F ∧ t.regs.sidx = 10 := by decide +kernel
/-- V28: range collapse at the eighth symbol. -/
theorem test_rcEnc_collapse :
    stat (started .standard (ldsym (List.replicate 8 0x32) ++
      ldmodel [(0x30, 3, 0), (0x31, 5, 3), (0x32, 1, 8), (0x33, 5, 9), (0x34, 3, 14)] 17 ++ [cmdOp .rcEnc])) =
      (2, 6, 7) := by decide +kernel
/-- V21: its decoding. -/
theorem test_rcDec :
    let t := started .standard
      (ldbits [0x05, 0xC4, 0x71, 0xB4, 0x70, 0x80] 46 ++ abc ++ [wrReg .symcnt 10, cmdOp .rcDec])
    stat t = (1, 0, 0) ∧ elems t .symmem 10 = scenario ∧ t.regs.bptr = 46 ∧ t.regs.value = 0x1C6D1C20 ∧
      t.regs.low = 0x1C6D1C20 ∧ t.regs.high = 0xA9FBE57F := by decide +kernel
/-- V30 row g: with `SYMCNT` 0 the window is loaded and the model not checked. -/
theorem test_rcDec_nothing :
    let t := started .standard (ldbits [0xFF, 0xFF] 10 ++ [cmdOp .rcDec])
    stat t = (1, 0, 0) ∧ t.regs.value = 0xFFC00000 ∧ t.regs.bptr = 32 := by decide +kernel
/-- V40. -/
theorem test_bpEnc :
    let t := started .standard (ldsym scenario ++ t3 ++ [cmdOp .bpEnc])
    stat t = (1, 0, 0) ∧ t.regs.bitlen = 15 ∧ elems t .bitmem 2 = [0x05, 0x5E] ∧ t.regs.padcnt = 1 ∧
      t.regs.sidx = 10 := by decide +kernel
/-- V47: a symbol with no codeword. -/
theorem test_bpEnc_miss :
    stat (started .standard (ldsym [0x41, 0x42, 0x44] ++ t3 ++ [cmdOp .bpEnc])) = (2, 5, 2) := by decide +kernel
/-- V42, second row: a tail that completes no codeword. -/
theorem test_bpDec :
    let t := started .standard (ldbits [0x05, 0x5E] 14 ++ t3 ++ [cmdOp .bpDec])
    stat t = (5, 0, 0) ∧ elems t .symmem 9 = [0x41, 0x41, 0x41, 0x41, 0x41, 0x42, 0x42, 0x42, 0x43] ∧
      t.regs.symcnt = 9 ∧ t.regs.resid = 1 ∧ t.regs.bptr = 14 := by decide +kernel
/-- V50, row "equal" (`TRUNC` follows the unspecified `RESID` after this fault: R151 (a)). -/
theorem test_bpDec_equal_codewords :
    Raised (started .standard (ldcode [(0x41, [true, false]), (0x42, [true, false])] ++ [cmdOp .bpDec]))
      .tableInvalid 0 := by decide +kernel
/-- V60, sixth row: a stray pad bit does not reach the file. -/
theorem test_bsPack :
    let t := started .standard (ldbits [0x05, 0x5F] 15 ++ [cmdOp .bsPack])
    stat t = (1, 0, 0) ∧ t.regs.filelen = 3 ∧ elems t .filemem 3 = [0x01, 0x05, 0x5E] := by decide +kernel
/-- V61: pad bits are kept; a header above 7 is malformed. -/
theorem test_bsUnpack :
    let t := started .standard (ldfile [0x07, 0xFF] ++ [cmdOp .bsUnpack])
    stat t = (1, 0, 0) ∧ t.regs.bitlen = 1 ∧ elems t .bitmem 1 = [0xFF] := by decide +kernel
theorem test_bsUnpack_format :
    stat (started .standard (ldfile [0x08, 0xFF] ++ [cmdOp .bsUnpack])) = (2, 8, 8) := by decide +kernel
/-- V74: responses, newest first. -/
theorem test_bus :
    (started .standard [.write 0x10 5, .write 0x12 5, .write 0x04 1, .write 0x1000 0x100, .write 0x13FC 1,
      .write 0x140000 0, .read 0x10, .read 0x3000, .read 0x38]).responses =
      [.data 0xFFFFFFFF, .buserr, .data 5, .buserr, .ok, .buserr, .buserr, .buserr, .ok] := by decide +kernel

/-! ### Witnesses

Each theorem shows states and operands that meet together all the hypotheses of the obligation it is named after, for
each clause, at the ends of the ranges the clauses divide. -/

/-- Symbols A, B, C with model ABC and table T3 loaded in the small engine. -/
def loaded : State := started small (ldsym [0x41, 0x42, 0x43] ++ abc ++ t3)

/-- An engine that has faulted. -/
def faulted : State := started small [.write 0 0x100]

/-- The loaded engine with the sequence `bits` of `len` bits. -/
def loadedBits (bytes : List Nat) (len : Nat) : State :=
  started small (ldsym [0x41, 0x42, 0x43] ++ abc ++ t3 ++ ldbits bytes len)

/-- A register file of counts in the small engine. -/
def counts (symcnt bitlen filelen : Nat) : State :=
  started small [wrReg .symcnt symcnt, wrReg .bitlen bitlen, wrReg .filelen filelen]

theorem witness_IllegalWordsRaiseIllegalCmd :
    ({ State.reset with host := [.write 0 0x00000100] }.regs.fault = false ∧
      (0x00000100#32).extractLsb' 8 24 ≠ 0) ∧
    ({ faulted with host := [.write 0 0x00000008] }.regs.fault = true ∧
      0x07 < ((0x00000008#32).extractLsb' 0 8).toNat) := by decide +kernel

theorem witness_StepRunsTheDecodedCommand :
    { loaded with host := [.write 0 0x00000001] }.host = .write 0 0x00000001 :: [] ∧
    decode 0x00000001 = .ok .rcEnc := ⟨rfl, rfl⟩

theorem witness_FaultIgnoresEveryCommandButSreset : faulted.regs.fault = true ∧ Instr.rcEnc ≠ .sreset := by
  decide +kernel

theorem witness_CommandsCompleteOrFault :
    (loaded.regs.fault = false ∧ Completed (ran .rcEnc loaded)) ∧
    ((counts 5 0 0).regs.fault = false ∧ Raised (ran .rcEnc (counts 5 0 0)) .badLength 0) := by decide +kernel

theorem witness_NopSetsDoneOnly : loaded.regs.fault = false ∧ faulted.regs.fault = true := by decide +kernel

theorem witness_ResetDrawsTheMemoriesAfresh :
    { loaded with host := [.reset] }.host = .reset :: [] ∧ loaded.cfg.Ok := by decide +kernel

theorem witness_IdleEngineKeepsItsState : loaded.host = [] := by decide +kernel

theorem witness_CommandsCompleteRightAfterReset :
    (ran .sreset loaded).regs = Regs.reset ∧ (ran .sreset loaded).cfg.Ok := by decide +kernel

/-- Not refused: `SYMCNT`, `CMD`, the largest symbol, the last byte of the bit memory. Refused, one of each reason:
misaligned, past the registers, past an array, read-only, too wide. -/
theorem witness_WritesAreRefusedExactly :
    small.Ok ∧
    (¬ WriteRefused small 0x10 0xFFFFFFFF ∧ ¬ WriteRefused small 0x00 8 ∧ ¬ WriteRefused small 0x1000 0xFF ∧
      ¬ WriteRefused small 0x0020001C 0xFF) ∧
    (WriteRefused small 0x12 5 ∧ WriteRefused small 0x48 0 ∧ WriteRefused small 0x00200020 0 ∧
      WriteRefused small 0x44 0 ∧ WriteRefused small 0x1000 0x100) := by
  refine ⟨?_, ⟨?_, ?_, ?_, ?_⟩, ?_, ?_, ?_, ?_, ?_⟩ <;> decide +kernel

/-- The first and the last register, the last element of each memory, and addresses that get `buserr`. -/
theorem witness_ReadsReturnDataAndChangeNothing :
    small.Ok ∧ (0x11#32).toNat % 4 ≠ 0 ∧ ¬ Mapped small (0x48#32).toNat ∧ ¬ Mapped small (0x00200020#32).toNat ∧
    (Mapped small (0x00#32).toNat ∧ Mapped small (0x44#32).toNat) ∧
    (7 < small.ctMax ∧ (0x0000241C#32).toNat = 0x00002400 + 4 * 7) ∧
    (3 < small.sMax ∧ (0x0010000C#32).toNat = 0x00100000 + 4 * 3) ∧
    (7 < small.bMax ∧ (0x0020001C#32).toNat = 0x00200000 + 4 * 7) ∧
    (8 < small.fMax ∧ (0x00400020#32).toNat = 0x00400000 + 4 * 8) := by decide +kernel

theorem witness_WrittenElementsReadBack :
    small.Ok ∧ 7 < Arr.clen.size small ∧ (0x0000241C#32).toNat = Arr.clen.base + 4 * 7 ∧
    (63#32).toNat < 2 ^ Arr.clen.width small := by decide

theorem witness_WritableRegistersStore :
    { faulted with host := [.write 0x2C 0xFFFFFFFF] }.host = .write 0x2C 0xFFFFFFFF :: [] := rfl

theorem witness_EntryChecksRaiseBadLength :
    ((counts 5 0 0).regs.fault = false ∧ (counts 5 0 0).cfg.sMax < (counts 5 0 0).regs.symcnt.toNat) ∧
    ((counts 4 65 0).regs.symcnt.toNat ≤ (counts 4 65 0).cfg.sMax ∧
      8 * (counts 4 65 0).cfg.bMax < (counts 4 65 0).regs.bitlen.toNat) ∧
    ((counts 4 64 0).regs.symcnt.toNat ≤ (counts 4 64 0).cfg.sMax ∧
      (counts 4 64 0).regs.bitlen.toNat ≤ 8 * (counts 4 64 0).cfg.bMax) ∧
    (counts 0 0 10).cfg.fMax < (counts 0 0 10).regs.filelen.toNat ∧
    (counts 0 0 9).regs.filelen.toNat ≤ (counts 0 0 9).cfg.fMax := by decide +kernel

theorem witness_ModelCheckGuardsTheRangeCommands :
    ((counts 4 64 0).regs.fault = false ∧ (counts 4 64 0).regs.symcnt.toNat ≤ (counts 4 64 0).cfg.sMax ∧
      1 ≤ (counts 4 64 0).regs.symcnt.toNat ∧ ¬ ModelOk (counts 4 64 0)) ∧
    (1 ≤ loaded.regs.symcnt.toNat ∧ ModelOk loaded) ∧ (counts 0 64 0).regs.symcnt.toNat = 0 := by decide +kernel

/-- Row "equal" of V50 against table T3. -/
theorem witness_TableCheckGuardsTheTableCommands :
    ¬ CodeOk (started small (ldcode [(0x41, [true, false]), (0x42, [true, false])])) ∧ CodeOk loaded ∧
    loaded.regs.symcnt.toNat ≤ loaded.cfg.sMax ∧ loaded.regs.bitlen.toNat ≤ 8 * loaded.cfg.bMax := by
  and_intros <;> decide +kernel

theorem witness_EachCommandRaisesItsOwnFaults :
    loaded.regs.fault = false ∧ Raises .rcEnc (counts 5 0 0) .badLength 0 ∧ Raises .bpDec (counts 0 65 0) .badLength 1 ∧
    Raises .bsUnpack (counts 0 0 10) .badLength 2 :=
  ⟨by decide +kernel, ⟨_, exec_ran _ _, by decide +kernel⟩, ⟨_, exec_ran _ _, by decide +kernel⟩,
    ⟨_, exec_ran _ _, by decide +kernel⟩⟩

/-- The model of V11 and V12, with the bounds before the eighth symbol. -/
def nearCollapse : State :=
  (started small (ldmodel [(0x30, 3, 0), (0x31, 5, 3), (0x32, 1, 8), (0x33, 5, 9), (0x34, 3, 14)] 17)).setBounds
    0x7FFFFFF7 0x80000001

/-- V12 (the share of entry 2 is empty) and V11 (that of entry 3 is not). -/
theorem witness_NarrowTakesTheShare :
    ModelOk nearCollapse ∧ nearCollapse.regs.low.toNat ≤ nearCollapse.regs.high.toNat ∧
    3 < nearCollapse.regs.mcount.toNat ∧ 11 * (8 + 1) / 17 = 11 * 8 / 17 ∧ 11 * (9 + 5) / 17 ≠ 11 * 9 / 17 := by
  decide +kernel

/-- V17i (equal bounds, 32 shifts) and V17h (30 shifts). -/
theorem witness_RenormalizationEndsWithinThirtyTwo :
    let s := counts 0 0 0
    (∃ t, renormEnc 32 (s.setBounds 0xA5A5A5A5 0xA5A5A5A5) = .ok t ∧ t.regs.bitlen = 32) ∧
    (∃ t, renormEnc 32 (s.setBounds 0x55555555 0x55555556) = .ok t ∧ t.regs.bitlen = 30) :=
  ⟨⟨_, rfl, by decide +kernel⟩, ⟨_, rfl, by decide +kernel⟩⟩

/-- 32 bits fit after 32 of 64, and not after 33. -/
theorem witness_FlushAppendsLow :
    small.bMax ≤ 2 ^ 19 ∧ (counts 0 32 0).regs.bitlen.toNat + 32 ≤ 8 * (counts 0 32 0).cfg.bMax ∧
    8 * (counts 0 33 0).cfg.bMax < (counts 0 33 0).regs.bitlen.toNat + 32 := by decide +kernel

theorem witness_DecInitLoadsTheWindow : 31 < 32 ∧ (counts 0 31 0).regs.bitlen.toNat ≤ 31 := by decide +kernel

/-- V19j. -/
theorem witness_DecSelectFindsTheOneEntry :
    let s := (loaded.setBounds 0 0xFFFFFFFF).setWindow 0xB88E368E 32
    ModelOk s ∧ s.regs.low.toNat ≤ s.regs.value.toNat ∧ s.regs.value.toNat ≤ s.regs.high.toNat := by decide +kernel

theorem witness_RcEncOfNothingIsEmpty : (counts 0 9 0).regs.fault = false ∧ (counts 0 9 0).regs.symcnt = 0 := by
  decide +kernel

/-- V23, row "AB", whose two symbols emit `0` and `1` and return to the full interval. -/
theorem witness_RcEncWritesTheReferenceBits :
    let s := started small (ldsym [0x41, 0x42] ++ ldmodel [(0x41, 1, 0), (0x42, 1, 1)] 2)
    let shares := [(0, 1), (1, 1)]
    s.cfg.Ok ∧ s.regs.fault = false ∧ 1 ≤ s.regs.symcnt.toNat ∧ s.regs.symcnt.toNat ≤ s.cfg.sMax ∧ ModelOk s ∧
    shares.length = s.regs.symcnt.toNat ∧
    (∀ k, k < s.regs.symcnt.toNat → ∃ i, i < s.regs.mcount.toNat ∧
      memRead s .msym i = memRead s .symmem k ∧ shares[k]? = some (mcumAt s i, mfreqAt s i)) ∧
    refEncode s.regs.total.toNat shares (0, 2 ^ 32 - 1) = some ([false, true], (0, 2 ^ 32 - 1)) ∧
    [false, true].length + 32 ≤ 8 * s.cfg.bMax := by decide +kernel

/-- V22. -/
theorem witness_RcEncOfOneEntryModelIsZeros :
    let s := started small (ldsym [0x5A, 0x5A, 0x5A, 0x5A] ++ ldmodel [(0x5A, 4, 0)] 4)
    s.cfg.Ok ∧ 4 ≤ s.cfg.bMax ∧ s.regs.fault = false ∧ s.regs.mcount.toNat = 1 ∧ ModelOk s ∧
    1 ≤ s.regs.symcnt.toNat ∧ s.regs.symcnt.toNat ≤ s.cfg.sMax ∧
    (∀ k, k < s.regs.symcnt.toNat → memRead s .symmem k = memRead s .msym 0) := by decide +kernel

/-- V26: the third symbol is not in the model. -/
def unknownSymbol : State := started small (ldsym [0x41, 0x41, 0x44] ++ abc)

/-- The last row of V24: the share of the third symbol is empty. -/
def collapsing : State :=
  started small (ldsym [0x42, 0x42, 0x41] ++ ldmodel [(0x41, 1, 0), (0x42, 0xFFFFFFFE, 1)] 0xFFFFFFFF)

/-- The row "A" of V24, whose symbol shifts out 32 bits, with room for `n` bytes of output. -/
def crowded (n : Nat) : State :=
  started { small with bMax := n } (ldsym [0x41] ++ ldmodel [(0x41, 1, 0), (0x42, 0xFFFFFFFE, 1)] 0xFFFFFFFF)

theorem witness_RcEncFaultsNameTheSymbol :
    (unknownSymbol.cfg.Ok ∧ unknownSymbol.regs.fault = false ∧ Raises .rcEnc unknownSymbol .symbolMiss 2) ∧
    (collapsing.cfg.Ok ∧ collapsing.regs.fault = false ∧ Raises .rcEnc collapsing .rangeCollapse 2) := by
  refine ⟨⟨?_, ?_, _, exec_ran _ _, ?_⟩, ?_, ?_, _, exec_ran _ _, ?_⟩ <;> decide +kernel

/-- The miss and the collapse, both at index 2; 32 bits that do not fit 24; and 32 that fit 56, but not with the flush. -/
theorem witness_RcEncRaisesTheFirstFault :
    (ModelOk unknownSymbol ∧ SharesOf unknownSymbol [(0, 5), (0, 5)] ∧ ¬ InModel unknownSymbol 2 ∧
      refEncode 10 [(0, 5), (0, 5)] (0, 2 ^ 32 - 1) = some ([false, false], (0, 2 ^ 32 - 1))) ∧
    (ModelOk collapsing ∧ SharesOf collapsing ([(1, 0xFFFFFFFE), (1, 0xFFFFFFFE)] ++ [(0, 1)]) ∧
      refEncode 0xFFFFFFFF [(1, 0xFFFFFFFE), (1, 0xFFFFFFFE)] (0, 2 ^ 32 - 1) = some ([], (2, 2 ^ 32 - 1)) ∧
      refEncode 0xFFFFFFFF ([(1, 0xFFFFFFFE), (1, 0xFFFFFFFE)] ++ [(0, 1)]) (0, 2 ^ 32 - 1) = none) ∧
    ((crowded 3).cfg.Ok ∧ (crowded 3).regs.fault = false ∧ ModelOk (crowded 3) ∧ SharesOf (crowded 3) [(0, 1)] ∧
      refEncode 0xFFFFFFFF [(0, 1)] (0, 2 ^ 32 - 1) = some (List.replicate 32 false, (0, 2 ^ 32 - 1)) ∧
      8 * (crowded 3).cfg.bMax < (List.replicate 32 false).length) ∧
    (ModelOk (crowded 7) ∧ SharesOf (crowded 7) [(0, 1)] ∧ [(0, 1)].length = (crowded 7).regs.symcnt.toNat ∧
      8 * (crowded 7).cfg.bMax < (List.replicate 32 false).length + 32) := by
  and_intros <;> decide +kernel

/-- The empty bit sequence, and a full bit memory. -/
theorem witness_RcDecNeverFaultsOnAValidModel :
    (loaded.cfg.Ok ∧ loaded.regs.fault = false ∧ loaded.regs.symcnt.toNat ≤ loaded.cfg.sMax ∧
      loaded.regs.bitlen.toNat ≤ 8 * loaded.cfg.bMax ∧ ModelOk loaded) ∧
    ((counts 0 64 0).regs.bitlen.toNat ≤ 8 * (counts 0 64 0).cfg.bMax ∧ (counts 0 64 0).regs.symcnt.toNat = 0) := by
  decide +kernel

/-- V30 row e (an empty payload decodes to "AAA") by the reference, on a state that meets the premises. -/
theorem witness_RcDecDecodesTheReference :
    (loaded.cfg.Ok ∧ loaded.regs.fault = false ∧ loaded.regs.symcnt.toNat ≤ loaded.cfg.sMax ∧
      loaded.regs.bitlen.toNat ≤ 8 * loaded.cfg.bMax ∧ ModelOk loaded) ∧
    refDecode 10 (modelShares loaded) (bitSeq loaded) 3 (0, 2 ^ 32 - 1) 0 =
      some ([0, 0, 0], (0, 2 ^ 32 - 1), 3) ∧
    (counts 0 9 0).regs.symcnt.toNat = 0 := by decide +kernel

/-- The loaded engine after `RC_ENC`, and the same with its symbols wiped. -/
def encoded : State := ran .rcEnc loaded
def wiped : State := memWrite (memWrite (memWrite encoded .symmem 0 0) .symmem 1 0) .symmem 2 0

/-- `encoded` is the encoder's end state, and `wiped` a state to decode from. -/
theorem witness_RcRoundTrip :
    exec .rcEnc loaded = .next encoded ∧
    (loaded.cfg.Ok ∧ loaded.regs.fault = false ∧ 1 ≤ loaded.regs.symcnt.toNat ∧ Completed encoded) ∧
    (wiped.regs.fault = false ∧ wiped.cfg = loaded.cfg ∧ wiped.regs.symcnt = loaded.regs.symcnt ∧
      wiped.regs.mcount = loaded.regs.mcount ∧ wiped.regs.total = loaded.regs.total) ∧
    (∀ i, i < loaded.regs.mcount.toNat → memRead wiped .msym i = memRead loaded .msym i ∧
      memRead wiped .mfreq i = memRead loaded .mfreq i ∧ memRead wiped .mcum i = memRead loaded .mcum i) ∧
    wiped.regs.bitlen.toNat ≤ 8 * wiped.cfg.bMax ∧ bitSeq encoded <+: bitSeq wiped := by
  refine ⟨exec_ran _ _, ?_⟩
  and_intros <;> decide +kernel

/-- The defaults meet the premise on the sizes; the small engine completes. -/
theorem witness_RcEncOutputSize :
    (4 * Config.standard.sMax + 4 ≤ Config.standard.bMax ∧ Config.standard.Ok) ∧
    (loaded.cfg.Ok ∧ loaded.regs.fault = false ∧ 1 ≤ loaded.regs.symcnt.toNat ∧ Completed (ran .rcEnc loaded)) := by
  decide +kernel

/-- A table with one codeword of 17 bits, for the overflow clause of the table coder. -/
def longCode : State :=
  started { small with bMax := 2 } (ldsym [0x41] ++ ldcode [(0x41, List.replicate 17 true)])

/-- V47: the third symbol has no codeword. -/
def missing : State := started small (ldsym [0x41, 0x42, 0x44] ++ t3)

/-- All symbols coded; 17 bits that do not fit 16; a third symbol with no entry (V47). -/
theorem witness_BpEncConcatenatesCodewords :
    (loaded.cfg.Ok ∧ loaded.regs.fault = false ∧ loaded.regs.symcnt.toNat ≤ loaded.cfg.sMax ∧ CodeOk loaded ∧
      CodesSymbol loaded (memRead loaded .symmem 0) 0 ∧ CodesSymbol loaded (memRead loaded .symmem 1) 1 ∧
      CodesSymbol loaded (memRead loaded .symmem 2) 2 ∧ [0, 1, 2].length = loaded.regs.symcnt.toNat) ∧
    (longCode.cfg.Ok ∧ longCode.regs.fault = false ∧ CodeOk longCode ∧
      CodesSymbol longCode (memRead longCode .symmem 0) 0 ∧
      8 * longCode.cfg.bMax < ([0].flatMap (codeword longCode)).length) ∧
    (CodeOk missing ∧ CodesSymbol missing (memRead missing .symmem 0) 0 ∧
      CodesSymbol missing (memRead missing .symmem 1) 1 ∧
      ∀ j, j < missing.regs.ccount.toNat → memRead missing .csym j ≠ memRead missing .symmem 2) := by
  and_intros <;> decide +kernel

/-- `n` zero bits, under the table that codes one symbol by "0" (V73). -/
def zeros (n : Nat) : State := started small (ldbits [0x00] n ++ ldcode [(0x41, [false])])

/-- Four codewords, as many as fit, and five. -/
theorem witness_BpDecIsGreedyMatching :
    ((zeros 4).cfg.Ok ∧ (zeros 4).regs.fault = false ∧ (zeros 4).regs.bitlen.toNat ≤ 8 * (zeros 4).cfg.bMax ∧
      CodeOk (zeros 4) ∧ (refGreedy (symbolOf (zeros 4)) [] (bitSeq (zeros 4))).1.length = (zeros 4).cfg.sMax) ∧
    ((zeros 5).cfg.Ok ∧ (zeros 5).regs.fault = false ∧ (zeros 5).regs.bitlen.toNat ≤ 8 * (zeros 5).cfg.bMax ∧
      CodeOk (zeros 5) ∧ (zeros 5).cfg.sMax < (refGreedy (symbolOf (zeros 5)) [] (bitSeq (zeros 5))).1.length) := by
  and_intros <;> decide +kernel

theorem witness_MatchesAreUnique : CodeOk loaded ∧ codeMatch loaded [true, false] = some 1 ∧
    codeEntry loaded 0x43 = some 2 := by decide +kernel

/-- V45: three bits and an empty table. -/
def three : State := started small (ldbits [0xA0] 3)

/-- V46: the same bits and the one-entry table with the empty codeword. -/
def threeZ : State := started small (ldbits [0xA0] 3 ++ ldcode [(0x5A, [])])

theorem witness_BpDecWithoutCodewordsLeavesEveryBit :
    (three.cfg.Ok ∧ three.regs.fault = false ∧ three.regs.bitlen.toNat ≤ 8 * three.cfg.bMax ∧ CodeOk three ∧
      three.regs.ccount = 0) ∧
    (threeZ.cfg.Ok ∧ threeZ.regs.fault = false ∧ threeZ.regs.bitlen.toNat ≤ 8 * threeZ.cfg.bMax ∧ CodeOk threeZ ∧
      threeZ.regs.ccount = 1 ∧ clenAt threeZ 0 = 0) := by and_intros <;> decide +kernel

/-- The encoder's own end state is a state to decode from. -/
theorem witness_BpRoundTrip :
    let s := loaded
    let t := ran .bpEnc s
    exec .bpEnc s = .next t ∧
    ((s.cfg.Ok ∧ s.regs.fault = false ∧ Completed t ∧ t.regs.fault = false ∧ t.cfg = s.cfg ∧
        t.regs.ccount = s.regs.ccount) ∧
      (∀ j, j < s.regs.ccount.toNat → 1 ≤ clenAt s j) ∧
      ∀ j, j < s.regs.ccount.toNat → memRead t .csym j = memRead s .csym j ∧
        memRead t .clen j = memRead s .clen j ∧ memRead t .cbits j = memRead s .cbits j) :=
  ⟨exec_ran _ _, by decide +kernel⟩

/-- Table T3 in the entry order C, A, B (V40). -/
theorem witness_CodeTableOrderDoesNotMatter :
    let s := loaded
    let v := started small (ldcode [(0x43, [true, true]), (0x41, [false]), (0x42, [true, false])])
    let u : State := { s with arr := { s.arr with csym := v.arr.csym, clen := v.arr.clen, cbits := v.arr.cbits } }
    let perm (j : Nat) : Nat := (j + 2) % 3
    (∀ j, j < s.regs.ccount.toNat → perm j < s.regs.ccount.toNat) ∧
    (∀ j, j < s.regs.ccount.toNat → ∀ k, k < s.regs.ccount.toNat → perm j = perm k → j = k) ∧
    (∀ j, j < s.regs.ccount.toNat → memRead u .csym j = memRead s .csym (perm j) ∧
      memRead u .clen j = memRead s .clen (perm j) ∧ memRead u .cbits j = memRead s .cbits (perm j)) := by
  decide +kernel

theorem witness_TableCoderOutputSizes :
    (loaded.cfg.Ok ∧ loaded.regs.fault = false ∧ Completed (ran .bpEnc loaded) ∧ Completed (ran .bpDec loaded)) ∧
    4 * Config.standard.sMax ≤ Config.standard.bMax := by decide +kernel

/-- A full bit memory fits a file of 9 bytes and not one of 8. -/
theorem witness_BsPackWritesTheFile :
    small.Ok ∧ (counts 0 64 0).regs.fault = false ∧
    (counts 0 64 0).regs.bitlen.toNat ≤ 8 * (counts 0 64 0).cfg.bMax ∧
    1 + ((counts 0 64 0).regs.bitlen.toNat + 7) / 8 ≤ small.fMax ∧
    (let s := started { small with fMax := 8 } [wrReg .bitlen 57]
     s.cfg.Ok ∧ s.regs.fault = false ∧ s.regs.bitlen.toNat ≤ 8 * s.cfg.bMax ∧
      s.cfg.fMax < 1 + (s.regs.bitlen.toNat + 7) / 8) := by decide +kernel

/-- The empty file, the largest pad count, the two malformed headers, and a payload that does not fit. -/
theorem witness_BsUnpackReadsTheFile :
    ((counts 0 0 0).cfg.Ok ∧ (counts 0 0 0).regs.fault = false ∧ (counts 0 0 0).regs.filelen = 0) ∧
    (let s := started small (ldfile [0x07, 0xFF])
     s.regs.filelen.toNat ≤ s.cfg.fMax ∧ 1 ≤ s.regs.filelen.toNat ∧ (memRead s .filemem 0).toNat ≤ 7 ∧
      ¬ (s.regs.filelen.toNat - 1 = 0 ∧ 0 < (memRead s .filemem 0).toNat) ∧ s.regs.filelen.toNat - 1 ≤ s.cfg.bMax) ∧
    (7 < (memRead (started small (ldfile [0x08, 0xFF])) .filemem 0).toNat) ∧
    (let s := started small (ldfile [0x01])
     1 ≤ s.regs.filelen.toNat ∧ s.regs.filelen.toNat - 1 = 0 ∧ 0 < (memRead s .filemem 0).toNat) ∧
    (let s := started { small with bMax := 1 } (ldfile [0x00, 0xAA, 0xBB])
     s.cfg.Ok ∧ s.regs.filelen.toNat ≤ s.cfg.fMax ∧ (memRead s .filemem 0).toNat ≤ 7 ∧
      s.cfg.bMax < s.regs.filelen.toNat - 1) := by decide +kernel

theorem witness_PackUnpackRoundTrip :
    (let s := loadedBits [0x05, 0x5F] 15
     s.cfg.Ok ∧ s.regs.fault = false ∧ s.regs.bitlen.toNat ≤ 8 * s.cfg.bMax ∧
      1 + (s.regs.bitlen.toNat + 7) / 8 ≤ s.cfg.fMax) ∧
    (let s := started small (ldfile [0x01, 0x05, 0x5F])
     s.cfg.Ok ∧ s.regs.fault = false ∧ Completed (ran .bsUnpack s)) := by decide +kernel

theorem witness_EnginePadBitsAreZero :
    loaded.cfg.Ok ∧ loaded.regs.fault = false ∧ Completed (ran .rcEnc loaded) ∧ Completed (ran .bpEnc loaded) ∧
    (ran .bpEnc loaded).regs.bitlen = 5 := by decide +kernel

/-- Sequences of 15 bits that differ in the pad bit. -/
theorem witness_BitsPastBitlenNeverMatter :
    let s := loadedBits [0x05, 0x5E] 15
    let u : State := { s with arr := { s.arr with bitmem := (loadedBits [0x05, 0x5F] 15).arr.bitmem } }
    (∀ p, p < s.regs.bitlen.toNat → getbit u p = getbit s p) ∧ u ≠ s := by decide +kernel

/-- One more entry, and one more symbol, than the counts say. -/
theorem witness_EntriesPastTheCountNeverMatter :
    (let u := memWrite loaded .msym 3 0x44
     u ≠ loaded ∧ ∀ j, j < loaded.regs.mcount.toNat → memRead u .msym j = memRead loaded .msym j) ∧
    (let u := memWrite loaded .csym 3 0x44
     u ≠ loaded ∧ ∀ j, j < loaded.regs.ccount.toNat → memRead u .csym j = memRead loaded .csym j) ∧
    (let u := memWrite loaded .symmem 3 0x44
     u ≠ loaded ∧ ∀ k, k < loaded.regs.symcnt.toNat → memRead u .symmem k = memRead loaded .symmem k) := by
  decide +kernel

theorem witness_RangeCommandsFrame :
    loaded.regs.fault = false ∧ loaded.cfg.Ok ∧ Completed (ran .rcEnc loaded) ∧ Completed (ran .rcDec loaded) := by
  decide +kernel

theorem witness_TableCommandsFrame :
    loaded.regs.fault = false ∧ loaded.cfg.Ok ∧ Completed (ran .bpEnc loaded) ∧
    Completed (ran .bpDec (loadedBits [0x5C] 6)) := by decide +kernel

theorem witness_FileCommandsFrame :
    (counts 0 64 0).regs.fault = false ∧ (∃ t, exec .bsPack (counts 0 64 0) = .next t) ∧
    ∃ t, exec .bsUnpack (counts 0 64 0) = .next t := ⟨by decide +kernel, exec_next _ _, exec_next _ _⟩

theorem witness_CommandsWriteOnlyTheirOwn : ∃ t, exec .bpDec loaded = .next t := exec_next _ _

theorem witness_OnlySresetOrResetClearsFault :
    let s : State := { faulted with host := [.write 0 0x00000007] }
    s.cfg.Ok ∧ s.regs.fault = true ∧ ∃ t, step s = .next t ∧ t.regs.fault = false :=
  ⟨by decide +kernel, by decide +kernel, _, rfl, by decide +kernel⟩

/-- The loaded engine with a command still to take. -/
def beforeCommand : State := { loaded with host := [.write 0 0x00000001] }

theorem witness_EveryStepKeepsInv : Inv beforeCommand ∧ ∃ t, step beforeCommand = .next t :=
  ⟨⟨by decide +kernel, by and_intros <;> decide +kernel, by decide +kernel⟩, _, rfl⟩

end Sys2Proof.Tests
end

section
/-! PROOFS. What a command keeps while it runs and when it faults, said once for all commands: the parameters, the
flags, and the canonical forms of the arrays; and from it `EveryStepKeepsInv` and `CommandsCompleteOrFault`. -/

namespace Sys2Proof.Machine

/-! ### What commands keep -/

/-- The flags, `ERR` and `ERRINFO` (R16, R20, R21): what dispatch and fault entry alone write. -/
def Regs.flags (r : Regs) : Bool × Bool × BitVec 8 × Word := (r.done, r.fault, r.err, r.errinfo)

/-- What a command's body and what its fault leaves both keep. -/
structure Keeps (s t : State) : Prop where
  cfg : t.cfg = s.cfg
  flags : t.regs.flags = s.regs.flags
  arrays : ArraysOk s.cfg s.arr s.draws → ArraysOk t.cfg t.arr t.draws

/-- What a command's body keeps at each of its accesses: it also makes no draw. -/
structure Runs (s t : State) : Prop extends Keeps s t where
  draws : t.draws = s.draws

theorem Keeps.flag_eqs {s t : State} (h : Keeps s t) :
    t.regs.done = s.regs.done ∧ t.regs.fault = s.regs.fault ∧ t.regs.err = s.regs.err ∧
      t.regs.errinfo = s.regs.errinfo := by
  simpa [Regs.flags] using h.flags

theorem Runs.refl (s : State) : Runs s s := { cfg := rfl, flags := rfl, arrays := id, draws := rfl }

theorem Runs.trans {s t u : State} (h : Runs s t) (k : Runs t u) : Runs s u where
  cfg := k.cfg.trans h.cfg
  flags := k.flags.trans h.flags
  arrays := fun ha => k.arrays (h.arrays ha)
  draws := k.draws.trans h.draws

/-- Writing registers that are no flags. -/
theorem Runs.setRegs {s t : State} (h : Runs s t) {r : Regs} (hr : r.flags = t.regs.flags) :
    Runs s { t with regs := r } where
  cfg := h.cfg
  flags := hr.trans h.flags
  arrays := h.arrays
  draws := h.draws

/-- Writing an element inside its array; that the value fits may rest on the canonical forms before. -/
theorem Runs.memWrite {s t : State} (h : Runs s t) {a : Arr} {i : Nat} {v : Word} (hi : i < a.size t.cfg)
    (hv : ArraysOk t.cfg t.arr t.draws → v.toNat < 2 ^ a.width t.cfg) : Runs s (memWrite t a i v) where
  cfg := by simpa using h.cfg
  flags := by simpa using h.flags
  arrays := fun ha => by simpa using memWrite_arraysOk (h.arrays ha) hi (hv (h.arrays ha))
  draws := by simpa using h.draws

/-! ### How a body ends -/

/-- The body ends with a result that meets `P`, or raises a fault that is not dispatch's own `ILLEGAL_CMD` (R145). -/
inductive Yields {α : Type} (P : α → Prop) : Except Raise α → Prop where
  | ok {x : α} (h : P x) : Yields P (.ok x)
  | error {c : Cause} {info : Word} (h : c ≠ .illegalCmd) : Yields P (.error { cause := c, info := info })

namespace Yields
variable {α β : Type} {P : α → Prop} {Q : β → Prop} {x : Except Raise α}

theorem of_ok {a : α} (h : Yields P x) (hx : x = .ok a) : P a := by
  subst hx; cases h; assumption

theorem of_error {r : Raise} (h : Yields P x) (hx : x = .error r) : r.cause ≠ .illegalCmd := by
  subst hx; cases h; assumption

theorem bind {f : α → Except Raise β} (hx : Yields P x) (hf : ∀ a, P a → Yields Q (f a)) :
    Yields Q (x >>= f) := by
  cases hx with
  | ok h => exact hf _ h
  | error h => exact .error h

theorem mono {P' : α → Prop} (hx : Yields P x) (h : ∀ a, P a → P' a) : Yields P' x := by
  cases hx with
  | ok hp => exact .ok (h _ hp)
  | error hc => exact .error hc

theorem forLoop {body : Nat → α → Except Raise α} {n a : Nat} {y : α} (h0 : P y)
    (hs : ∀ k z, a ≤ k → k < a + n → P z → Yields P (body k z)) : Yields P (forLoop body n a y) := by
  induction n generalizing a y with
  | zero => exact .ok h0
  | succ n ih =>
    rw [forLoop_succ]
    exact (hs a y (Nat.le_refl _) (by omega) h0).bind fun z hz =>
      ih hz fun k z h1 h2 => hs k z (by omega) (by omega)

end Yields

/-! ### The checks, accesses and micro-steps -/

theorem checkSymcnt_yields (s : State) : Yields (fun _ => s.regs.symcnt.toNat ≤ s.cfg.sMax) (checkSymcnt s) := by
  rw [checkSymcnt_eq]
  split
  · exact .ok ‹_›
  · exact .error (by decide)

theorem checkBitlen_yields (s : State) :
    Yields (fun _ => s.regs.bitlen.toNat ≤ 8 * s.cfg.bMax) (checkBitlen s) := by
  rw [checkBitlen_eq]
  split
  · exact .ok ‹_›
  · exact .error (by decide)

theorem checkFilelen_yields (s : State) : Yields (fun _ => s.regs.filelen.toNat ≤ s.cfg.fMax) (checkFilelen s) := by
  rw [checkFilelen_eq]
  split
  · exact .ok ‹_›
  · exact .error (by decide)

theorem checkModel_yields (s : State) : Yields (fun _ => ModelOk s) (checkModel s) := by
  by_cases h : ModelOk s
  · rw [checkModel_ok h]; exact .ok h
  · rw [checkModel_error h]; exact .error (by decide)

theorem checkTable_yields (s : State) : Yields (fun _ => CodeOk s) (checkTable s) := by
  by_cases h : CodeOk s
  · rw [checkTable_ok h]; exact .ok h
  · rw [checkTable_error h]; exact .error (by decide)

theorem emit_yields (b : Bool) (s : State) : Yields (Runs s) (emit b s) := by
  unfold emit
  dsimp only
  split
  · exact .error (by decide)
  · refine .ok (((Runs.refl s).memWrite (a := .bitmem) ?_ fun _ => ?_).setRegs rfl)
    · show s.regs.bitlen.toNat / 8 < s.cfg.bMax
      omega
    · exact putBit_lt _ _ (memRead_bitmem_lt s _) (Nat.mod_lt _ (by decide))

theorem narrow_yields (i k : Nat) (s : State) : Yields (Runs s) (narrow i k s) := by
  rcases narrow_cases i k s with ⟨_, h⟩ | ⟨_, h⟩ <;> rw [h]
  · exact .error (by decide)
  · exact .ok ((Runs.refl s).setRegs rfl)

theorem renormEnc_yields (n : Nat) (s : State) : Yields (Runs s) (renormEnc n s) := by
  induction n generalizing s with
  | zero => exact .ok (Runs.refl s)
  | succ n ih =>
    cases h : topBitsAgree s with
    | false => rw [renormEnc_stop h]; exact .ok (Runs.refl s)
    | true =>
      rw [renormEnc_go h]
      refine (emit_yields _ s).bind fun t ht => (ih (shiftBounds t)).mono fun _ => Runs.trans ?_
      exact ht.setRegs rfl

theorem flushBit_eq_bind (k : Nat) (s : State) : flushBit k s =
    (emit (s.regs.low.getLsbD 31) s >>= fun t => .ok (t.setLow (trunc32 (2 * t.regs.low.toNat)))) := by
  simp only [flushBit]; cases emit (s.regs.low.getLsbD 31) s <;> rfl

theorem flushBit_yields (k : Nat) (s : State) : Yields (Runs s) (flushBit k s) := by
  rw [flushBit_eq_bind]
  exact (emit_yields _ s).bind fun _ ht => .ok (ht.setRegs rfl)

theorem flush_yields (s : State) : Yields (Runs s) (flush s) :=
  Yields.forLoop (Runs.refl s) fun k t _ _ ht => (flushBit_yields k t).mono fun _ => ht.trans

theorem lookupModel_yields (sym : Word) (k : Nat) (s : State) : Yields (fun _ => True) (lookupModel sym k s) := by
  unfold lookupModel
  split
  · exact .ok trivial
  · exact .error (by decide)

theorem decSelect_yields (k : Nat) (s : State) : Yields (fun _ => True) (decSelect k s) := by
  rcases decSelect_cases k s with ⟨i, h, _⟩ | ⟨h, _⟩ <;> rw [h]
  · exact .ok trivial
  · exact .error (by decide)

theorem renormDec_runs (n : Nat) (s : State) : Runs s (renormDec n s) := by
  obtain ⟨lo, hi, v, p, h⟩ := renormDec_frame n s
  rw [h]
  exact ((Runs.refl s).setRegs (r := (s.setBounds lo hi).regs) rfl).setRegs rfl

/-! ### The commands' bodies -/

theorem encodeSymbol_yields (k : Nat) (s : State) : Yields (Runs s) (encodeSymbol k s) :=
  (lookupModel_yields _ k s).bind fun i _ =>
    (narrow_yields i k s).bind fun s1 h1 =>
      (renormEnc_yields 32 s1).bind fun _ h2 => .ok ((h1.trans h2).setRegs rfl)

theorem rcEncBody_yields (s : State) : Yields (Runs s) (rcEncBody s) := by
  have h0 : Runs s ((startBounds s).setBitlen 0) := (Runs.refl s).setRegs rfl
  refine (checkSymcnt_yields s).bind fun _ _ => ?_
  dsimp only
  split
  · exact .ok h0
  · refine (checkModel_yields _).bind fun _ _ => ?_
    refine (Yields.forLoop h0 fun k u _ _ hu => (encodeSymbol_yields k u).mono fun _ => hu.trans).bind fun t ht => ?_
    exact (flush_yields t).mono fun _ => ht.trans

/-- One symbol of `RC_DEC`, inside the symbol memory: the symbol written is one of the model's, so it fits (R51). -/
theorem decodeSymbol_yields {k : Nat} {s : State} (hk : k < s.cfg.sMax) : Yields (Runs s) (decodeSymbol k s) :=
  (decSelect_yields k s).bind fun i _ =>
    (narrow_yields i k s).bind fun s1 h1 => by
      have hk1 : k < s1.cfg.sMax := h1.cfg ▸ hk
      have h2 : Runs s (memWrite s1 .symmem k (memRead s1 .msym i)) :=
        h1.memWrite hk1 fun ha => memRead_lt ha .msym i
      exact .ok ((h2.trans (renormDec_runs 32 _)).setRegs rfl)

theorem rcDecBody_yields (s : State) : Yields (Runs s) (rcDecBody s) := by
  have h0 : Runs s (decInit (startBounds s)) := (Runs.refl s).setRegs rfl
  refine (checkSymcnt_yields s).bind fun _ hlen => (checkBitlen_yields s).bind fun _ _ => ?_
  dsimp only
  split
  · exact .ok h0
  · refine (checkModel_yields _).bind fun _ _ => Yields.forLoop h0 fun k u _ hk hu => ?_
    have hn : k < s.regs.symcnt.toNat := by rwa [Nat.zero_add] at hk
    have hku : k < u.cfg.sMax := by rw [hu.cfg]; omega
    exact (decodeSymbol_yields hku).mono fun _ => hu.trans

theorem packSymbol_yields (k : Nat) (s : State) : Yields (Runs s) (packSymbol k s) := by
  unfold packSymbol
  split
  · exact .error (by decide)
  · refine (Yields.forLoop (Runs.refl s) fun t u _ _ hu => ?_).bind fun _ h1 => .ok (h1.setRegs rfl)
    exact (emit_yields _ u).mono fun _ => hu.trans

theorem bpEncBody_yields (s : State) : Yields (Runs s) (bpEncBody s) :=
  (checkSymcnt_yields s).bind fun _ _ => (checkTable_yields _).bind fun _ _ =>
    Yields.forLoop ((Runs.refl s).setRegs rfl) fun k u _ _ hu => (packSymbol_yields k u).mono fun _ => hu.trans

/-- One bit of `BP_DEC`: a symbol is written below `S_MAX` only, and it is one of the table's, so it fits (R51, R112). -/
theorem unpackBit_yields (p : Nat) (x : State × List Bool) : Yields (fun y => Runs x.1 y.1) (unpackBit p x) := by
  have h0 : Runs x.1 (x.1.setBptr (BitVec.ofNat 32 (p + 1))) := (Runs.refl _).setRegs rfl
  unfold unpackBit
  dsimp only
  split
  · exact .ok h0
  · rename_i j _
    split
    · exact .error (by decide)
    · rename_i hroom
      exact .ok ((h0.memWrite (a := .symmem) (Nat.lt_of_not_le hroom) fun ha => memRead_lt ha .csym j).setRegs rfl)

theorem bpDecBody_yields (s : State) : Yields (Runs s) (bpDecBody s) := by
  have h0 : Runs s ((s.setSidx 0).setBptr 0) := (Runs.refl s).setRegs rfl
  refine (checkBitlen_yields s).bind fun _ _ => (checkTable_yields _).bind fun _ _ => ?_
  refine (Yields.forLoop (P := fun x : State × List Bool => Runs s x.1) h0 fun p x _ _ hx => ?_).bind
    fun x hx => .ok (hx.setRegs rfl)
  exact (unpackBit_yields p x).mono fun _ => hx.trans

/-- Clearing pad bits makes no byte larger (R125). -/
theorem clearPad_le (y : Word) (r : Nat) : (clearPad y r).toNat ≤ y.toNat := by
  have h : y.toNat / 2 ^ (8 - r) * 2 ^ (8 - r) ≤ y.toNat := Nat.div_mul_le_self _ _
  simp only [clearPad, trunc32, BitVec.toNat_ofNat]
  exact (Nat.mod_le _ _).trans h

theorem packByte_yields {n r b : Nat} {s : State} (hb : 1 + b < s.cfg.fMax) : Yields (Runs s) (packByte n r b s) := by
  have hy := memRead_bitmem_lt s b
  refine .ok ((Runs.refl s).memWrite (a := .filemem) hb fun _ => ?_)
  split
  · exact Nat.lt_of_le_of_lt (clearPad_le _ _) hy
  · exact hy

theorem bsPackBody_yields (s : State) : Yields (Runs s) (bsPackBody s) := by
  refine (checkBitlen_yields s).bind fun _ _ => ?_
  dsimp only
  split
  · exact .error (by decide)
  · rename_i hroom
    have h0 : Runs s (memWrite s .filemem 0 (trunc32 ((8 - s.regs.bitlen.toNat % 8) % 8))) := by
      refine (Runs.refl s).memWrite (a := .filemem) (show 0 < s.cfg.fMax by omega) fun _ => ?_
      simp only [trunc32, BitVec.toNat_ofNat, Arr.width]
      omega
    refine (Yields.forLoop h0 fun b u _ hb hu => ?_).bind fun t ht => .ok (ht.setRegs rfl)
    exact (packByte_yields (by rw [hu.cfg]; omega)).mono fun _ => hu.trans

theorem unpackByte_yields {b : Nat} {s : State} (hb : b < s.cfg.bMax) : Yields (Runs s) (unpackByte b s) :=
  .ok ((Runs.refl s).memWrite (a := .bitmem) hb fun _ => memRead_filemem_lt s _)

theorem bsUnpackBody_yields (s : State) : Yields (Runs s) (bsUnpackBody s) := by
  refine (checkFilelen_yields s).bind fun _ _ => ?_
  split
  · exact .ok ((Runs.refl s).setRegs rfl)
  · dsimp only
    split
    · exact .error (by decide)
    · split
      · exact .error (by decide)
      · split
        · exact .error (by decide)
        · refine (Yields.forLoop (Runs.refl s) fun b u _ hb hu => ?_).bind fun t ht => .ok (ht.setRegs rfl)
          exact (unpackByte_yields (by rw [hu.cfg]; omega)).mono fun _ => hu.trans

/-! ### What a fault leaves (R151) -/

/-- A bit memory in canonical form, and a later draw. -/
theorem ArraysOk.replaceBitmem {s : State} (h : ArraysOk s.cfg s.arr s.draws) {m : Memory 8}
    (hm : m.wf s.cfg.bMax (s.draws + 1)) :
    ArraysOk s.cfg { s.arr with bitmem := m } (s.draws + 1) := by
  obtain ⟨h1, h2, h3, h4, h5, h6, h7, _, h9⟩ := h.mono (Nat.le_succ _)
  exact ⟨h1, h2, h3, h4, h5, h6, h7, hm, h9⟩

/-- A symbol memory in canonical form whose symbols fit, and a later draw. -/
theorem ArraysOk.replaceSymmem {s : State} (h : ArraysOk s.cfg s.arr s.draws) {m : Memory 32}
    (hm : m.wf s.cfg.sMax (s.draws + 1)) (hf : m.fits s.cfg.symW) :
    ArraysOk s.cfg { s.arr with symmem := m } (s.draws + 1) := by
  obtain ⟨h1, h2, h3, h4, h5, h6, _, h8, h9⟩ := h.mono (Nat.le_succ _)
  exact ⟨h1, h2, h3, h4, h5, h6, ⟨hm, hf⟩, h8, h9⟩

/-- A file memory in canonical form, and a later draw. -/
theorem ArraysOk.replaceFilemem {s : State} (h : ArraysOk s.cfg s.arr s.draws) {m : Memory 8}
    (hm : m.wf s.cfg.fMax (s.draws + 1)) :
    ArraysOk s.cfg { s.arr with filemem := m } (s.draws + 1) := by
  obtain ⟨h1, h2, h3, h4, h5, h6, h7, h8, _⟩ := h.mono (Nat.le_succ _)
  exact ⟨h1, h2, h3, h4, h5, h6, h7, h8, hm⟩

section
variable (s : State)

theorem spoilRcEnc_keeps : Keeps s (spoilRcEnc s) :=
  ⟨rfl, rfl, fun h => h.replaceBitmem (Memory.unspecified_wf (Nat.lt_succ_self _))⟩

theorem spoilRcDec_keeps : Keeps s (spoilRcDec s) where
  cfg := rfl
  flags := rfl
  arrays := fun h => by
    have ⟨_, _, _, _, _, _, ⟨hw, hf⟩, _, _⟩ := h
    exact ArraysOk.replaceSymmem h
      (Memory.spoil_wf (Memory.wf_mono hw (Nat.le_succ _)) (Nat.min_le_right _ _) (Nat.lt_succ_self _))
      (Memory.spoil_fits _ _ hf)

theorem spoilBpEnc_keeps : Keeps s (spoilBpEnc s) :=
  ⟨rfl, rfl, fun h => h.replaceBitmem (Memory.unspecified_wf (Nat.lt_succ_self _))⟩

theorem spoilBpDec_keeps : Keeps s (spoilBpDec s) :=
  ⟨rfl, rfl, fun h => h.replaceSymmem (Memory.unspecified_wf (Nat.lt_succ_self _)) (Memory.unspecified_fits _ _)⟩

theorem spoilBsPack_keeps : Keeps s (spoilBsPack s) where
  cfg := rfl
  flags := rfl
  arrays := fun h => by
    have ⟨_, _, _, _, _, _, _, _, hw⟩ := h
    exact ArraysOk.replaceFilemem h
      (Memory.spoil_wf (Memory.wf_mono hw (Nat.le_succ _)) (Nat.min_le_right _ _) (Nat.lt_succ_self _))

theorem spoilBsUnpack_keeps : Keeps s (spoilBsUnpack s) where
  cfg := rfl
  flags := rfl
  arrays := fun h => by
    have ⟨_, _, _, _, _, _, _, hw, _⟩ := h
    exact ArraysOk.replaceBitmem h
      (Memory.spoil_wf (Memory.wf_mono hw (Nat.le_succ _)) (Nat.min_le_right _ _) (Nat.lt_succ_self _))

end

/-! ### Dispatch -/

/-- Every command but `SRESET` is dispatched (R135) with a body that ends as above and a fault that keeps as above. -/
theorem exec_dispatches (i : Instr) (h : i ≠ .sreset) :
    ∃ body spoil, (∀ s, exec i s = .next (runCommand body spoil s)) ∧ (∀ s, Yields (Runs s) (body s)) ∧
      ∀ s, Keeps s (spoil s) := by
  cases i with
  | nop => exact ⟨_, _, fun _ => rfl, fun s => .ok (Runs.refl s), fun s => (Runs.refl s).toKeeps⟩
  | rcEnc => exact ⟨_, _, fun _ => rfl, rcEncBody_yields, spoilRcEnc_keeps⟩
  | rcDec => exact ⟨_, _, fun _ => rfl, rcDecBody_yields, spoilRcDec_keeps⟩
  | bpEnc => exact ⟨_, _, fun _ => rfl, bpEncBody_yields, spoilBpEnc_keeps⟩
  | bpDec => exact ⟨_, _, fun _ => rfl, bpDecBody_yields, spoilBpDec_keeps⟩
  | bsPack => exact ⟨_, _, fun _ => rfl, bsPackBody_yields, spoilBsPack_keeps⟩
  | bsUnpack => exact ⟨_, _, fun _ => rfl, bsUnpackBody_yields, spoilBsUnpack_keeps⟩
  | sreset => exact absurd rfl h

/-- The codes of R145 are 1 to 9. -/
theorem Cause.code_range (c : Cause) : 1 ≤ c.code.toNat ∧ c.code.toNat ≤ 9 := by
  cases c <;> decide

/-- Dispatch keeps the invariant, when the body and the fault keep their part of it (R16, R135, R150). -/
theorem runCommand_inv {body : State → Except Raise State} {spoil : State → State} {s : State} (h : Inv s)
    (hb : ∀ u t, body u = .ok t → Runs u t) (hsp : ∀ u, Keeps u (spoil u)) :
    Inv (runCommand body spoil s) ∧ (runCommand body spoil s).cfg = s.cfg := by
  obtain ⟨hcfg, harr, hclear, hset⟩ := h
  rcases runCommand_cases body spoil s with ⟨_, he⟩ | ⟨hf, t, ht, he⟩ | ⟨hf, r, _, he⟩
  · rw [he]; exact ⟨⟨hcfg, harr, hclear, hset⟩, rfl⟩
  · have hr := hb _ _ ht
    obtain ⟨_, hfault, herr, hinfo⟩ := hr.flag_eqs
    have hc : t.cfg = s.cfg := hr.cfg
    have hno : t.regs.fault = false := hfault.trans hf
    obtain ⟨herr0, hinfo0⟩ := hclear hf
    rw [he]
    refine ⟨⟨by simpa [hc] using hcfg, hr.arrays harr, fun _ => ?_, fun hyes => ?_⟩, hc⟩
    · exact ⟨herr.trans herr0, hinfo.trans hinfo0⟩
    · exact absurd (hno.symm.trans hyes) (by decide)
  · have hk := hsp (s.setDone false)
    obtain ⟨hdone, _, _, _⟩ := hk.flag_eqs
    have hc : (spoil (s.setDone false)).cfg = s.cfg := hk.cfg
    rw [he]
    exact ⟨⟨by simpa [hc] using hcfg, hk.arrays harr, fun hno => absurd hno (by simp),
      fun _ => ⟨hdone, r.cause.code_range⟩⟩, hc⟩

/-- Registers back at their reset values (R39, R137) keep the invariant. -/
theorem resetRegs_inv {s : State} (h : Inv s) : Inv (resetRegs s) := by
  obtain ⟨hcfg, harr, _⟩ := h
  exact ⟨hcfg, harr, by simp only [resetRegs_regs]; decide⟩

theorem hardReset_inv {s : State} (h : Inv s) : Inv (hardReset s) := by
  obtain ⟨hcfg, _, hst⟩ := resetRegs_inv h
  exact ⟨hcfg, Arrays.unspecified_ok _ (Nat.lt_succ_self _), hst⟩

/-- Every command keeps the invariant and the parameters. -/
theorem exec_inv {i : Instr} {s t : State} (h : Inv s) (he : exec i s = .next t) : Inv t ∧ t.cfg = s.cfg := by
  by_cases hi : i = .sreset
  · subst hi
    obtain rfl : resetRegs s = t := by simpa [exec, execSreset] using he
    exact ⟨resetRegs_inv h, rfl⟩
  · obtain ⟨body, spoil, hx, hb, hsp⟩ := exec_dispatches i hi
    obtain rfl : runCommand body spoil s = t := by simpa [hx] using he
    exact runCommand_inv h (fun u t ht => (hb u).of_ok ht) hsp

/-- An illegal word keeps the invariant and the parameters (R64). -/
theorem illegalCommand_inv {s : State} (h : Inv s) (w : Word) :
    Inv (illegalCommand w s) ∧ (illegalCommand w s).cfg = s.cfg :=
  runCommand_inv h (fun _ _ ht => absurd ht (by simp)) fun u => (Runs.refl u).toKeeps

/-! ### The host's moves -/

/-- What an address that is mapped names (R17, R45): it is aligned, and it is the offset of the register or lies in the
array's window, at an element below the array's size. -/
theorem locate_some {c : Config} {addr : Word} {t : Target} (h : locate c addr = some t) :
    addr.toNat % 4 = 0 ∧
      ((∃ r, t = .reg r ∧ addr.toNat = r.offset) ∨
        ∃ a i, t = .elem a i ∧ i < a.size c ∧ addr.toNat = a.base + 4 * i) := by
  unfold locate at h
  split at h
  · exact absurd h (by simp)
  · rename_i hal
    have hal : addr.toNat % 4 = 0 := by omega
    refine ⟨hal, ?_⟩
    split at h
    · rename_i r hr
      have hoff : (r.offset == addr.toNat) = true :=
        List.find?_some (p := fun x : Reg => x.offset == addr.toNat) hr
      exact .inl ⟨r, by simpa using h.symm, (beq_iff_eq.1 hoff).symm⟩
    · split at h
      · rename_i a ha
        obtain ⟨⟨hlo, _⟩, hsz⟩ : (a.base ≤ addr.toNat ∧ addr.toNat ≤ a.windowEnd) ∧
            (addr.toNat - a.base) / 4 < a.size c := by simpa [Arr.holds] using List.find?_some ha
        have hbase : a.base % 4 = 0 := by cases a <;> rfl
        exact .inr ⟨a, _, by simpa using h.symm, hsz, by omega⟩
      · exact absurd h (by simp)

/-- A register write changes no flag, `ERR` or `ERRINFO` (R17). -/
theorem writeReg_flags {r r' : Regs} {v : Word} {x : Reg} (h : writeReg r v x = some r') : r'.flags = r.flags := by
  cases x <;> simp only [writeReg, Option.some.injEq, reduceCtorEq] at h <;> subst h <;> rfl

theorem Runs.inv {s t : State} (h : Runs s t) (hs : Inv s) : Inv t := by
  obtain ⟨hcfg, harr, hst⟩ := hs
  obtain ⟨hdone, hfault, herr, hinfo⟩ := h.flag_eqs
  refine ⟨by simpa [h.cfg] using hcfg, h.arrays harr, ?_⟩
  simpa only [StatusOk, hdone, hfault, herr, hinfo] using hst

/-- A host write stores inside the map and within the element's width, or is refused (R44, R46): either way it is, but
for the response, one access as a command makes it. -/
theorem hostWrite_runs (s : State) (addr data : Word) :
    ∃ t resp, hostWrite s addr data = t.respond resp ∧ Runs s t := by
  unfold hostWrite
  split
  · exact ⟨s, _, rfl, Runs.refl s⟩
  · split
    · exact ⟨_, _, rfl, (Runs.refl s).setRegs (writeReg_flags ‹_›)⟩
    · exact ⟨s, _, rfl, Runs.refl s⟩
  · rename_i a i hl
    split
    · rename_i hfit
      obtain ⟨_, ⟨r, hr, _⟩ | ⟨b, j, hbj, hsz, _⟩⟩ := locate_some hl
      · exact absurd hr (by simp)
      · obtain ⟨rfl, rfl⟩ : a = b ∧ i = j := by simpa using hbj
        exact ⟨_, _, rfl, (Runs.refl s).memWrite hsz fun _ => hfit⟩
    · exact ⟨s, _, rfl, Runs.refl s⟩

theorem plainMove_inv {s : State} (h : Inv s) (op : HostOp) :
    Inv (plainMove op s) ∧ (plainMove op s).cfg = s.cfg := by
  cases op with
  | read addr => exact ⟨h, rfl⟩
  | write addr data =>
    obtain ⟨t, resp, he, hr⟩ := hostWrite_runs s addr data
    have ht := hr.inv h
    simp only [plainMove, he]
    exact ⟨ht, hr.cfg⟩
  | reset => exact ⟨hardReset_inv h, rfl⟩

/-! ### The obligations -/

/-- Settles O57, by the cases of a step; a command by what its body and its fault keep. -/
theorem everyStepKeepsInv : Obligations.EveryStepKeepsInv := by
  intro s t hs h
  rcases step_cases h with ⟨_, rfl⟩ | ⟨op, rest, _, _, rfl⟩ | ⟨op, rest, w, i, u, _, _, _, hx, rfl⟩ |
    ⟨op, rest, w, e, _, _, _, rfl⟩
  · exact ⟨hs, rfl⟩
  · exact plainMove_inv (s := { s with host := rest }) hs op
  · obtain ⟨hu, hc⟩ := exec_inv (s := { s with host := rest }) hs hx
    exact ⟨hu, hc⟩
  · exact illegalCommand_inv (s := { s with host := rest }) hs w

/-- Settles O8, by the cases of dispatch: a body keeps the flags, and raises no `ILLEGAL_CMD`. -/
theorem commandsCompleteOrFault : Obligations.CommandsCompleteOrFault := by
  intro s i hf hi
  obtain ⟨body, spoil, hx, hb, hsp⟩ := exec_dispatches i hi
  refine ⟨_, hx s, ?_⟩
  rcases runCommand_cases body spoil s with ⟨hyes, _⟩ | ⟨_, t, ht, he⟩ | ⟨_, r, hr, he⟩
  · exact absurd (hf.symm.trans hyes) (by decide)
  · have hruns := (hb _).of_ok ht
    obtain ⟨_, hfault, herr, hinfo⟩ := hruns.flag_eqs
    rw [he]
    exact .inl ⟨⟨rfl, hfault.trans hf⟩, herr, hinfo, hruns.draws⟩
  · obtain ⟨hdone, _, _, _⟩ := (hsp (s.setDone false)).flag_eqs
    rw [he]
    exact .inr ⟨r.cause, r.info, ⟨hdone, rfl, rfl, rfl⟩, (hb _).of_error hr⟩

end Sys2Proof.Machine
end

section
/-! PROOFS. The host's side: where an address leads, what a read, a register write and a `CMD` write do in one step, and
the values after reset; with the obligations on reads, register writes, command writes, `STATUS`, the derived counts
and reset. -/

namespace Sys2Proof.Machine

/-! ### Where an address leads (R17, R45) -/

theorem Reg.addr_toNat (r : Reg) : r.addr.toNat = r.offset := by
  cases r <;> rfl

/-- The offset of a register leads to it. -/
theorem locate_reg (c : Config) (r : Reg) : locate c r.addr = some (.reg r) := by
  simp only [locate, Reg.addr_toNat]
  cases r <;> rfl

theorem Reg.offset_le (r : Reg) : r.offset ≤ 0x44 := by
  cases r <;> decide

theorem Arr.base_ge (a : Arr) : 0x1000 ≤ a.base := by
  cases a <;> decide

/-- The windows of R45 do not overlap. -/
theorem Arr.windows_apart {a b : Arr} (h : a ≠ b) : a.windowEnd < b.base ∨ b.windowEnd < a.base := by
  revert h
  cases a <;> cases b <;> decide

/-- Legal parameters give every array room in its window (R5, R45). -/
theorem Arr.fits_window {c : Config} (h : c.Ok) (a : Arr) : a.base + 4 * a.size c ≤ a.windowEnd + 1 := by
  obtain ⟨_, ⟨_, hm, _⟩, ⟨_, hct, _⟩, _, ⟨_, hs⟩, ⟨_, hb⟩, ⟨_, hf⟩, _⟩ := h
  cases a <;> simp only [Arr.base, Arr.size, Arr.windowEnd] <;> omega

theorem Arr.holds_iff (c : Config) (a : Arr) (addr : Nat) :
    a.holds c addr = true ↔ (a.base ≤ addr ∧ addr ≤ a.windowEnd) ∧ (addr - a.base) / 4 < a.size c := by
  simp [Arr.holds]

theorem Arr.mem_all (a : Arr) : a ∈ Arr.all := by
  cases a <;> decide

/-- The address of an element leads to it. -/
theorem locate_elem {c : Config} (h : c.Ok) {a : Arr} {i : Nat} (hi : i < a.size c) {addr : Word}
    (ha : addr.toNat = a.base + 4 * i) : locate c addr = some (.elem a i) := by
  have hroom := Arr.fits_window h a
  have hbase := a.base_ge
  have hal : addr.toNat % 4 = 0 := by
    have : a.base % 4 = 0 := by cases a <;> rfl
    omega
  have hidx : (addr.toNat - a.base) / 4 = i := by omega
  have hreg : Reg.all.find? (fun r => r.offset == addr.toNat) = none := by
    refine List.find?_eq_none.2 fun r _ => ?_
    have := r.offset_le
    simpa using (show r.offset ≠ addr.toNat by omega)
  have hholds : a.holds c addr.toNat = true := (a.holds_iff c _).2 ⟨by omega, by omega⟩
  have harr : Arr.all.find? (fun b => b.holds c addr.toNat) = some a := by
    cases hb : Arr.all.find? (fun b => b.holds c addr.toNat) with
    | none => exact absurd hholds (List.find?_eq_none.1 hb a a.mem_all)
    | some b =>
      obtain ⟨⟨hlo, hhi⟩, _⟩ := (b.holds_iff c _).1 (List.find?_some (p := fun x : Arr => x.holds c addr.toNat) hb)
      by_cases hab : a = b
      · rw [hab]
      · rcases Arr.windows_apart hab with hap | hap <;> omega
  simp [locate, hal, hreg, harr, hidx]

theorem Arr.row_mem_windows (c : Config) (a : Arr) : (a.base, a.size c, a.width c) ∈ windows c := by
  cases a <;> simp [windows, Arr.base, Arr.size, Arr.width]

/-- A misaligned or unmapped address leads nowhere (R42, R46). -/
theorem locate_none {c : Config} {addr : Word} (h : addr.toNat % 4 ≠ 0 ∨ ¬ Mapped c addr.toNat) :
    locate c addr = none := by
  cases hl : locate c addr with
  | none => rfl
  | some t =>
    obtain ⟨hal, hwhere⟩ := locate_some hl
    rcases h with h | h
    · exact absurd hal h
    · refine absurd ?_ h
      rcases hwhere with ⟨r, _, hr⟩ | ⟨a, i, _, hi, ha⟩
      · exact .inl ⟨hal, hr ▸ r.offset_le⟩
      · exact .inr ⟨_, a.row_mem_windows c, i, hi, ha⟩

/-! ### One move of the host -/

/-- A read answers what its address holds and changes nothing else (R46). -/
theorem step_read {s : State} {addr : Word} {rest : List HostOp} (h : s.host = .read addr :: rest) :
    step s = .next { s with host := rest, responses := hostRead s addr :: s.responses } :=
  step_move h rfl

/-- A write to a register that stores it (R17), other than `CMD`. -/
theorem step_write_reg {s : State} {r : Reg} {v : Word} {rest : List HostOp} {regs : Regs}
    (h : s.host = .write r.addr v :: rest) (hr : r ≠ .cmd) (hw : writeReg s.regs v r = some regs) :
    step s = .next { s with host := rest, responses := .ok :: s.responses, regs := regs } := by
  have hl := locate_reg s.cfg r
  have hno : commandWord s.cfg (.write r.addr v) = none := by simp [commandWord, hl, hr]
  rw [step_move h hno]
  simp [plainMove, hostWrite, hl, hw, State.respond]

/-- A write to address 0 issues its word as a command (R18). -/
theorem commandWord_write_cmd (c : Config) (w : Word) : commandWord c (.write 0 w) = some w := by
  have hl : locate c 0#32 = some (.reg .cmd) := locate_reg c .cmd
  simp [commandWord, hl]

/-! ### The obligations -/

/-- Settles O16, by where each address leads. -/
theorem readsReturnDataAndChangeNothing : Obligations.ReadsReturnDataAndChangeNothing := by
  intro s addr rest hc hs returns
  have hnone (h : addr.toNat % 4 ≠ 0 ∨ ¬ Mapped s.cfg addr.toNat) :
      step s = .next { s with host := rest, responses := .buserr :: s.responses } := by
    rw [step_read hs, hostRead, locate_none h]
  have hreg (r : Reg) (h : addr = r.addr) : returns (readReg s.regs r) := by
    show step s = _
    rw [step_read hs, hostRead, h, locate_reg]
  have helem (a : Arr) (i : Nat) (hi : i < a.size s.cfg) (ha : addr.toNat = a.base + 4 * i) :
      returns (memRead s a i) := by
    show step s = _
    rw [step_read hs, hostRead, locate_elem hc hi ha]
  have herr (h : addr = 0x08) : returns (BitVec.ofNat 32 s.regs.err.toNat) := by
    rw [BitVec.ofNat_toNat]
    exact hreg .err h
  exact ⟨hnone, hreg .cmd, hreg .status, herr, hreg .errinfo, hreg .symcnt, hreg .bitlen, hreg .padcnt,
    hreg .bitbytes, hreg .filelen, hreg .total, hreg .mcount, hreg .ccount, hreg .resid, hreg .low, hreg .high,
    hreg .value, hreg .bptr, hreg .sidx, helem .msym, helem .mfreq, helem .mcum, helem .csym, helem .clen,
    helem .cbits, helem .symmem, helem .bitmem, helem .filemem⟩

/-- Settles O18, a register at a time. -/
theorem writableRegistersStore : Obligations.WritableRegistersStore := by
  intro s addr v rest hs after
  have hwrite (r : Reg) (hr : r ≠ .cmd) {regs : Regs} (hw : writeReg s.regs v r = some regs) (h : addr = r.addr) :
      step s = after regs := step_write_reg (h ▸ hs) hr hw
  exact ⟨hwrite .symcnt (by decide) rfl, hwrite .bitlen (by decide) rfl, hwrite .filelen (by decide) rfl,
    hwrite .total (by decide) rfl, hwrite .mcount (by decide) rfl, hwrite .ccount (by decide) rfl⟩

/-- Settles O5. -/
theorem stepRunsTheDecodedCommand : Obligations.StepRunsTheDecodedCommand := by
  intro s w rest i hs hd
  obtain ⟨t, ht⟩ := exec_next i { s with host := rest }
  refine ⟨t, ht, ?_⟩
  rw [step_command hs (commandWord_write_cmd _ w) hd, ht]
  rfl

/-- Settles O19: the three flags are the binary digits of a number below 8. -/
theorem statusWordFields : Obligations.StatusWordFields := by
  intro r
  have hlt : r.done.toNat + 2 * r.fault.toNat + 4 * r.trunc.toNat < 2 ^ 3 := by
    have := r.done.toNat_le; have := r.fault.toNat_le; have := r.trunc.toNat_le
    omega
  have hbits : (readReg r .status).getLsbD 0 = r.done ∧ (readReg r .status).getLsbD 1 = r.fault ∧
      (readReg r .status).getLsbD 2 = r.trunc := by
    simp only [readReg, Regs.status]
    cases r.done <;> cases r.fault <;> cases r.trunc <;> decide
  obtain ⟨h0, h1, h2⟩ := hbits
  refine ⟨h0, h1, h2, fun j hj => ?_⟩
  have hj' : (r.done.toNat + 2 * r.fault.toNat + 4 * r.trunc.toNat).testBit j = false :=
    Nat.testBit_lt_two_pow (Nat.lt_of_lt_of_le hlt (Nat.pow_le_pow_right (by decide) hj))
  simp only [readReg, Regs.status, BitVec.getLsbD_ofNat, hj', Bool.and_false]

/-- Settles O20. -/
theorem derivedCountsFollowBitlen : Obligations.DerivedCountsFollowBitlen := by
  intro r
  have hlen := r.bitlen.isLt
  have hbytes : (readReg r .bitbytes).toNat = (r.bitlen.toNat + 7) / 8 := by
    simp only [readReg, Regs.bitbytes, bytesOf, BitVec.toNat_ofNat]
    omega
  refine ⟨?_, hbytes, by omega⟩
  simp only [readReg, Regs.padcnt, padOf, BitVec.toNat_ofNat]
  omega

/-- After a draw of all arrays every element reads its free value of that draw (R39). -/
theorem memRead_unspecified {s : State} {d : Nat} (h : s.arr = .unspecified d) (a : Arr) (i : Nat) :
    memRead s a i = BitVec.ofNat 32 ((Config.freeAt d (a.base + 4 * i)).toNat % 2 ^ a.width s.cfg) := by
  have hnarrow (w x : Nat) (hw : w ≤ 32) :
      (BitVec.ofNat w (x % 2 ^ w)).setWidth 32 = BitVec.ofNat 32 (x % 2 ^ w) := by
    apply BitVec.eq_of_toNat_eq
    simp
  cases a <;> simp only [memRead, h, Arrays.unspecified, Memory.read_unspecified]
  case clen => exact hnarrow 6 _ (by decide)
  case bitmem => exact hnarrow 8 _ (by decide)
  case filemem => exact hnarrow 8 _ (by decide)

/-- Settles O11: the registers by their reset values, the elements by the draw numbered 0. -/
theorem resetLeavesTheTabledValues : Obligations.ResetLeavesTheTabledValues := by
  refine ⟨fun r => ?_, fun a i => ⟨0, memRead_unspecified rfl a i⟩⟩
  cases r <;> decide

/-- Settles O58. -/
theorem resetMeetsInv : Obligations.ResetMeetsInv :=
  ⟨by decide, Arrays.unspecified_ok _ Nat.zero_lt_one, by decide⟩

end Sys2Proof.Machine
end

section
/-! PROOFS. Two runs in lockstep, on arrays of which some are replaced: the rules, said once, by which a replacement the
command cannot see goes through its accesses, its loops and its dispatch. -/

namespace Sys2Proof.Machine

/-! ### Two runs in lockstep -/

/-- Two runs end alike: both with results that `R` relates, or both with the same fault. -/
inductive Lockstep {α β : Type} (R : α → β → Prop) : Except Raise α → Except Raise β → Prop where
  | ok {a : α} {b : β} (h : R a b) : Lockstep R (.ok a) (.ok b)
  | error (r : Raise) : Lockstep R (.error r) (.error r)

namespace Lockstep
variable {α β γ δ : Type} {R : α → β → Prop} {S : γ → δ → Prop}

theorem of_eq {x y : Except Raise α} (h : y = x) : Lockstep Eq x y := by
  subst h
  cases y with
  | ok a => exact .ok rfl
  | error r => exact .error r

theorem bind {x : Except Raise α} {y : Except Raise β} {f : α → Except Raise γ} {g : β → Except Raise δ}
    (h : Lockstep R x y) (hf : ∀ a b, R a b → Lockstep S (f a) (g b)) : Lockstep S (x >>= f) (y >>= g) := by
  cases h with
  | ok hab => exact hf _ _ hab
  | error r => exact .error r

theorem mono {R' : α → β → Prop} {x : Except Raise α} {y : Except Raise β} (h : Lockstep R x y)
    (hR : ∀ a b, R a b → R' a b) : Lockstep R' x y := by
  cases h with
  | ok hab => exact .ok (hR _ _ hab)
  | error r => exact .error r

theorem forLoop {f : Nat → α → Except Raise α} {g : Nat → β → Except Raise β} {n a : Nat} {x : α} {y : β}
    (h0 : R x y) (hs : ∀ k u v, k < a + n → R u v → Lockstep R (f k u) (g k v)) :
    Lockstep R (forLoop f n a x) (forLoop g n a y) := by
  induction n generalizing a x y with
  | zero => exact .ok h0
  | succ n ih =>
    rw [forLoop_succ, forLoop_succ]
    exact (hs a x y (by omega) h0).bind fun u v huv => ih huv fun k u v hk => hs k u v (by omega)

end Lockstep

/-! ### Replacing arrays -/

/-- Arrays to put in the place of the model table, the code table or the symbol memory. -/
inductive Swap where
  | model (msym mfreq mcum : Memory 32)
  | code (csym : Memory 32) (clen : Memory 6) (cbits : Memory 32)
  | symbols (symmem : Memory 32)

/-- The arrays after the replacement. -/
def Swap.on : Swap → Arrays → Arrays
  | .model msym mfreq mcum, a => { a with msym := msym, mfreq := mfreq, mcum := mcum }
  | .code csym clen cbits, a => { a with csym := csym, clen := clen, cbits := cbits }
  | .symbols symmem, a => { a with symmem := symmem }

/-- The replacement leaves the symbol memory, so that it commutes with writes there. -/
def Swap.OfTable : Swap → Prop
  | .model .. | .code .. => True
  | .symbols _ => False

/-- The state with the arrays replaced. -/
def State.swap (s : State) (w : Swap) : State := { s with arr := w.on s.arr }

section
variable (s : State) (w : Swap)

@[simp] theorem swap_cfg : (s.swap w).cfg = s.cfg := rfl
@[simp] theorem swap_regs : (s.swap w).regs = s.regs := rfl

@[simp] theorem memRead_swap_bitmem (i : Nat) : memRead (s.swap w) .bitmem i = memRead s .bitmem i := by
  cases w <;> rfl

@[simp] theorem memRead_swap_filemem (i : Nat) : memRead (s.swap w) .filemem i = memRead s .filemem i := by
  cases w <;> rfl

@[simp] theorem memWrite_swap_bitmem (i : Nat) (v : Word) :
    memWrite (s.swap w) .bitmem i v = (memWrite s .bitmem i v).swap w := by
  cases w <;> rfl

@[simp] theorem memWrite_swap_filemem (i : Nat) (v : Word) :
    memWrite (s.swap w) .filemem i v = (memWrite s .filemem i v).swap w := by
  cases w <;> rfl

theorem memWrite_swap_symmem {w : Swap} (hw : w.OfTable) (i : Nat) (v : Word) :
    memWrite (s.swap w) .symmem i v = (memWrite s .symmem i v).swap w := by
  cases w with
  | model | code => rfl
  | symbols => exact hw.elim

@[simp] theorem getbit_swap (p : Nat) : getbit (s.swap w) p = getbit s p := by simp [getbit]

end

/-- The second state is the first with the arrays replaced. -/
abbrev Swapped (w : Swap) (s u : State) : Prop := u = s.swap w

/-- The same, where the first state has a property that the lookups of a command rest on. -/
abbrev Twins (w : Swap) (I : State → Prop) (s u : State) : Prop := u = s.swap w ∧ I s

/-- A property that rests on the parameters, the table counts, `TOTAL` and arrays other than the bit memory. -/
structure Stable (I : State → Prop) : Prop where
  regs {s : State} {r : Regs} : I s → r.mcount = s.regs.mcount → r.ccount = s.regs.ccount → r.total = s.regs.total →
    I { s with regs := r }
  bitmem {s : State} (i : Nat) (v : Word) : I s → I (memWrite s .bitmem i v)

/-! ### Dispatch -/

/-- In the state `s` command `i` does the same with the arrays replaced. -/
def Blind (w : Swap) (i : Instr) (s : State) : Prop :=
  ∀ t, exec i s = .next t → exec i (s.swap w) = .next (t.swap w)

/-- Dispatch is blind to a replacement that the body and its fault are blind to (R135, R151). -/
theorem runCommand_swap {w : Swap} {body : State → Except Raise State} {spoil : State → State} {s : State}
    (hb : Lockstep (Swapped w) (body (s.setDone false)) (body ((s.setDone false).swap w)))
    (hsp : ∀ t : State, spoil (t.swap w) = (spoil t).swap w) :
    runCommand body spoil (s.swap w) = (runCommand body spoil s).swap w := by
  have hd : (s.swap w).setDone false = (s.setDone false).swap w := rfl
  rcases runCommand_cases body spoil s with ⟨hf, he⟩ | ⟨hf, t, ht, he⟩ | ⟨hf, r, hr, he⟩ <;> rw [he]
  · exact runCommand_ignored hf
  · rw [ht] at hb
    generalize hx : body ((s.setDone false).swap w) = x at hb
    cases hb with
    | ok hu => rw [runCommand_completes (s := s.swap w) hf (hd ▸ hx), hu]; rfl
  · rw [hr] at hb
    generalize hx : body ((s.setDone false).swap w) = x at hb
    cases hb with
    | error => rw [runCommand_raises (s := s.swap w) hf (hd ▸ hx), hd, hsp]; rfl

theorem Blind.of_runCommand {w : Swap} {i : Instr} {s : State} {body : State → Except Raise State}
    {spoil : State → State} (hx : ∀ t, exec i t = .next (runCommand body spoil t))
    (hb : Lockstep (Swapped w) (body (s.setDone false)) (body ((s.setDone false).swap w)))
    (hsp : ∀ t : State, spoil (t.swap w) = (spoil t).swap w) : Blind w i s := by
  intro t ht
  obtain rfl : runCommand body spoil s = t := by simpa [hx] using ht
  rw [hx, runCommand_swap hb hsp]

/-! ### What a fault leaves (R151) -/

section
variable (w : Swap) (s : State)

theorem spoilRcEnc_swap : spoilRcEnc (s.swap w) = (spoilRcEnc s).swap w := by cases w <;> rfl
theorem spoilBpEnc_swap : spoilBpEnc (s.swap w) = (spoilBpEnc s).swap w := by cases w <;> rfl
theorem spoilBsPack_swap : spoilBsPack (s.swap w) = (spoilBsPack s).swap w := by cases w <;> rfl
theorem spoilBsUnpack_swap : spoilBsUnpack (s.swap w) = (spoilBsUnpack s).swap w := by cases w <;> rfl

theorem spoilRcDec_swap {w : Swap} (hw : w.OfTable) : spoilRcDec (s.swap w) = (spoilRcDec s).swap w := by
  cases w with
  | model | code => rfl
  | symbols => exact hw.elim

theorem spoilBpDec_swap {w : Swap} (hw : w.OfTable) : spoilBpDec (s.swap w) = (spoilBpDec s).swap w := by
  cases w with
  | model | code => rfl
  | symbols => exact hw.elim

end

/-! ### Appending bits (R53) -/

theorem emit_lockstep {w : Swap} {I : State → Prop} (hI : Stable I) {s : State} (h : I s) (b : Bool) :
    Lockstep (Twins w I) (emit b s) (emit b (s.swap w)) := by
  simp only [emit, swap_cfg, swap_regs, memRead_swap_bitmem, memWrite_swap_bitmem]
  split
  · exact .error _
  · exact .ok ⟨rfl, hI.regs (hI.bitmem _ _ h) rfl rfl rfl⟩

/-! ### The file commands, which see neither table nor the symbol memory -/

theorem bsPackBody_lockstep (w : Swap) (s : State) : Lockstep (Swapped w) (bsPackBody s) (bsPackBody (s.swap w)) := by
  have hbyte (n r b : Nat) (u : State) : Lockstep (Swapped w) (packByte n r b u) (packByte n r b (u.swap w)) := by
    simp only [packByte, memRead_swap_bitmem, memWrite_swap_filemem]
    exact .ok rfl
  refine (Lockstep.of_eq (y := checkBitlen (s.swap w)) rfl).bind fun _ _ _ => ?_
  simp only [swap_cfg, swap_regs, memWrite_swap_filemem]
  split
  · exact .error _
  · refine (Lockstep.forLoop (R := Swapped w) rfl fun b u v _ huv => ?_).bind fun t v htv => ?_
    · rw [huv]; exact hbyte _ _ b u
    · rw [htv]; exact .ok rfl

theorem bsUnpackBody_lockstep (w : Swap) (s : State) :
    Lockstep (Swapped w) (bsUnpackBody s) (bsUnpackBody (s.swap w)) := by
  have hbyte (b : Nat) (u : State) : Lockstep (Swapped w) (unpackByte b u) (unpackByte b (u.swap w)) := by
    simp only [unpackByte, memRead_swap_filemem, memWrite_swap_bitmem]
    exact .ok rfl
  refine (Lockstep.of_eq (y := checkFilelen (s.swap w)) rfl).bind fun _ _ _ => ?_
  simp only [swap_cfg, swap_regs, memRead_swap_filemem]
  split
  · exact .ok rfl
  · split
    · exact .error _
    · split
      · exact .error _
      · split
        · exact .error _
        · refine (Lockstep.forLoop (R := Swapped w) rfl fun b u v _ huv => ?_).bind fun t v htv => ?_
          · rw [huv]; exact hbyte b u
          · rw [htv]; exact .ok rfl

theorem bsPack_blind (w : Swap) (s : State) : Blind w .bsPack s :=
  .of_runCommand (fun _ => rfl) (bsPackBody_lockstep w _) (spoilBsPack_swap w)

theorem bsUnpack_blind (w : Swap) (s : State) : Blind w .bsUnpack s :=
  .of_runCommand (fun _ => rfl) (bsUnpackBody_lockstep w _) (spoilBsUnpack_swap w)

theorem nop_blind (w : Swap) (s : State) : Blind w .nop s :=
  .of_runCommand (fun _ => rfl) (.ok rfl) fun _ => rfl

theorem sreset_blind (w : Swap) (s : State) : Blind w .sreset s := by
  intro t ht
  obtain rfl : resetRegs s = t := by simpa [exec, execSreset] using ht
  rfl

end Sys2Proof.Machine
end

section
/-! PROOFS. The range commands do not see a replacement that leaves the model entries and the symbols they read. -/

namespace Sys2Proof.Machine

/-- `MCOUNT` is `m`, and the replacement leaves the model entries below `m` and the symbols below `n`. -/
structure ModelAgrees (w : Swap) (m n : Nat) (s : State) : Prop where
  count : s.regs.mcount.toNat = m
  msym : ∀ i < m, memRead (s.swap w) .msym i = memRead s .msym i
  mfreq : ∀ i < m, memRead (s.swap w) .mfreq i = memRead s .mfreq i
  mcum : ∀ i < m, memRead (s.swap w) .mcum i = memRead s .mcum i
  symbols : ∀ k < n, memRead (s.swap w) .symmem k = memRead s .symmem k

theorem ModelAgrees.stable (w : Swap) (m n : Nat) : Stable (ModelAgrees w m n) where
  regs := fun h hm _ _ => ⟨(congrArg BitVec.toNat hm).trans h.count, h.msym, h.mfreq, h.mcum, h.symbols⟩
  bitmem := fun _ _ h => by cases w <;> exact ⟨h.count, h.msym, h.mfreq, h.mcum, h.symbols⟩

theorem ModelAgrees.memWrite_symmem {w : Swap} (hw : w.OfTable) {m n : Nat} {s : State} (h : ModelAgrees w m n s)
    (i : Nat) (v : Word) : ModelAgrees w m n (memWrite s .symmem i v) := by
  cases w with
  | model | code => exact ⟨h.count, h.msym, h.mfreq, h.mcum, fun _ _ => rfl⟩
  | symbols => exact hw.elim

/-- `ModelOk` rests on the counts and the entries in use (R31). -/
theorem modelOk_of_reads {s u : State} (hc : u.cfg = s.cfg) (hr : u.regs = s.regs)
    (hsym : ∀ i < s.regs.mcount.toNat, memRead u .msym i = memRead s .msym i)
    (hfreq : ∀ i < s.regs.mcount.toNat, memRead u .mfreq i = memRead s .mfreq i)
    (hcum : ∀ i < s.regs.mcount.toNat, memRead u .mcum i = memRead s .mcum i)
    (h : ModelOk s) : ModelOk u := by
  have hmsym (i : Nat) (hi : i < s.regs.mcount.toNat) : msymAt u i = msymAt s i := congrArg _ (hsym i hi)
  have hmfreq (i : Nat) (hi : i < s.regs.mcount.toNat) : mfreqAt u i = mfreqAt s i := congrArg _ (hfreq i hi)
  have hmcum (i : Nat) (hi : i < s.regs.mcount.toNat) : mcumAt u i = mcumAt s i := congrArg _ (hcum i hi)
  obtain ⟨⟨hpos, hmax⟩, htotal, hone, hrise, hzero, hsum, hlast⟩ := h
  simp only [ModelOk, hc, hr]
  refine ⟨⟨hpos, hmax⟩, htotal, fun i hi => ?_, fun i hi => ?_, ?_, fun i hi => ?_, ?_⟩
  · rw [hmfreq i hi]; exact hone i hi
  · rw [hmsym i (by omega), hmsym (i + 1) (by omega)]; exact hrise i hi
  · rw [hmcum 0 (by omega)]; exact hzero
  · rw [hmcum i (by omega), hmcum (i + 1) (by omega), hmfreq i (by omega)]; exact hsum i hi
  · rw [hmcum _ (by omega), hmfreq _ (by omega)]; exact hlast

section
variable {w : Swap} {m n : Nat} {s : State} (h : ModelAgrees w m n s)
include h

theorem ModelAgrees.mfreqAt {i : Nat} (hi : i < m) : mfreqAt (s.swap w) i = mfreqAt s i :=
  congrArg BitVec.toNat (h.mfreq i hi)

theorem ModelAgrees.mcumAt {i : Nat} (hi : i < m) : mcumAt (s.swap w) i = mcumAt s i :=
  congrArg BitVec.toNat (h.mcum i hi)

theorem ModelAgrees.modelOk_iff : ModelOk (s.swap w) ↔ ModelOk s := by
  obtain ⟨hm, hsym, hfreq, hcum, _⟩ := h
  rw [← hm] at hsym hfreq hcum
  constructor
  · exact modelOk_of_reads rfl rfl (fun i hi => (hsym i hi).symm) (fun i hi => (hfreq i hi).symm)
      fun i hi => (hcum i hi).symm
  · exact modelOk_of_reads rfl rfl hsym hfreq hcum

/-- The entries in use are those below `m`. -/
theorem ModelAgrees.lt_of_mem {i : Nat} (hi : i ∈ List.range s.regs.mcount.toNat) : i < m :=
  h.count ▸ List.mem_range.1 hi

theorem ModelAgrees.checkModel : checkModel (s.swap w) = checkModel s := by
  by_cases hok : ModelOk s
  · rw [checkModel_ok hok, checkModel_ok (h.modelOk_iff.2 hok)]
  · rw [checkModel_error hok, checkModel_error (mt h.modelOk_iff.1 hok)]

theorem ModelAgrees.modelEntry (sym : Word) : modelEntry (s.swap w) sym = modelEntry s sym :=
  List.find?_congr fun i hi => by rw [h.msym i (h.lt_of_mem hi)]

theorem ModelAgrees.modelShare (x : Nat) : modelShare (s.swap w) x = modelShare s x :=
  List.find?_congr fun i hi => by rw [h.mcumAt (h.lt_of_mem hi), h.mfreqAt (h.lt_of_mem hi)]

theorem narrow_lockstep {i : Nat} (hi : i < m) (k : Nat) :
    Lockstep (Twins w (ModelAgrees w m n)) (narrow i k s) (narrow i k (s.swap w)) := by
  have hrange : rangeOf (s.swap w) = rangeOf s := rfl
  simp only [narrow, hrange, swap_regs, h.mcumAt hi, h.mfreqAt hi]
  split
  · exact .error _
  · exact .ok ⟨rfl, (ModelAgrees.stable w m n).regs h rfl rfl rfl⟩

theorem lookupModel_lockstep (sym : Word) (k : Nat) :
    Lockstep (fun i j => j = i ∧ i < m) (lookupModel sym k s) (lookupModel sym k (s.swap w)) := by
  simp only [lookupModel, h.modelEntry]
  split
  · exact .ok ⟨rfl, h.count ▸ (modelEntry_some ‹_›).1⟩
  · exact .error _

theorem decSelect_lockstep (k : Nat) :
    Lockstep (fun i j => j = i ∧ i < m) (decSelect k s) (decSelect k (s.swap w)) := by
  have hscaled : scaledOf (s.swap w) = scaledOf s := rfl
  simp only [decSelect, swap_regs, hscaled, h.modelShare]
  split
  · exact .error _
  · split
    · exact .ok ⟨rfl, h.count ▸ (modelShare_some ‹_›).1⟩
    · exact .error _

end

/-! ### `RC_ENC` -/

theorem renormEnc_lockstep {w : Swap} {I : State → Prop} (hI : Stable I) {s : State} (h : I s) (m : Nat) :
    Lockstep (Twins w I) (renormEnc m s) (renormEnc m (s.swap w)) := by
  induction m generalizing s with
  | zero => exact .ok ⟨rfl, h⟩
  | succ m ih =>
    have htop : topBitsAgree (s.swap w) = topBitsAgree s := rfl
    cases hs : topBitsAgree s with
    | false => rw [renormEnc_stop hs, renormEnc_stop (htop.trans hs)]; exact .ok ⟨rfl, h⟩
    | true =>
      rw [renormEnc_go hs, renormEnc_go (htop.trans hs)]
      refine (emit_lockstep hI h _).bind fun t u ⟨hu, ht⟩ => ?_
      subst hu
      exact ih (hI.regs ht rfl rfl rfl)

theorem flush_lockstep {w : Swap} {I : State → Prop} (hI : Stable I) {s : State} (h : I s) :
    Lockstep (Twins w I) (flush s) (flush (s.swap w)) := by
  refine Lockstep.forLoop ⟨rfl, h⟩ fun k t u _ ⟨hu, ht⟩ => ?_
  subst hu
  rw [flushBit_eq_bind, flushBit_eq_bind]
  refine (emit_lockstep hI ht _).bind fun t' u' ⟨hu', ht'⟩ => ?_
  subst hu'
  exact .ok ⟨rfl, hI.regs ht' rfl rfl rfl⟩

theorem encodeSymbol_lockstep {w : Swap} {m n k : Nat} {s : State} (h : ModelAgrees w m n s) (hk : k < n) :
    Lockstep (Twins w (ModelAgrees w m n)) (encodeSymbol k s) (encodeSymbol k (s.swap w)) := by
  have hI := ModelAgrees.stable w m n
  simp only [encodeSymbol, h.symbols k hk]
  refine (lookupModel_lockstep h _ k).bind fun i j ⟨hj, hi⟩ => ?_
  subst hj
  refine (narrow_lockstep h hi k).bind fun s1 u1 ⟨hu1, h1⟩ => ?_
  subst hu1
  refine (renormEnc_lockstep hI h1 32).bind fun s2 u2 ⟨hu2, h2⟩ => ?_
  subst hu2
  exact .ok ⟨rfl, hI.regs h2 rfl rfl rfl⟩

theorem rcEncBody_lockstep {w : Swap} {m : Nat} {s : State} (h : ModelAgrees w m s.regs.symcnt.toNat s) :
    Lockstep (Swapped w) (rcEncBody s) (rcEncBody (s.swap w)) := by
  have hI := ModelAgrees.stable w m s.regs.symcnt.toNat
  have h0 : ModelAgrees w m s.regs.symcnt.toNat ((startBounds s).setBitlen 0) :=
    hI.regs (s := s) (r := ((startBounds s).setBitlen 0).regs) h rfl rfl rfl
  refine (Lockstep.of_eq (y := checkSymcnt (s.swap w)) rfl).bind fun _ _ _ => ?_
  have hu : (startBounds (s.swap w)).setBitlen 0 = ((startBounds s).setBitlen 0).swap w := rfl
  simp only [hu, swap_regs]
  split
  · exact .ok rfl
  · refine (Lockstep.of_eq h0.checkModel).bind fun _ _ _ => ?_
    refine (Lockstep.forLoop (R := Twins w (ModelAgrees w m s.regs.symcnt.toNat)) ⟨rfl, h0⟩
      fun k t u hk ⟨hu, ht⟩ => ?_).bind fun t u ⟨hu, ht⟩ => ?_
    · subst hu
      exact encodeSymbol_lockstep ht (by rwa [Nat.zero_add] at hk)
    · subst hu
      exact (flush_lockstep hI ht).mono fun _ _ ⟨hv, _⟩ => hv

theorem rcEnc_blind {w : Swap} {m : Nat} {s : State} (h : ModelAgrees w m s.regs.symcnt.toNat s) : Blind w .rcEnc s :=
  .of_runCommand (fun _ => rfl) (rcEncBody_lockstep ((ModelAgrees.stable _ _ _).regs h rfl rfl rfl)) (spoilRcEnc_swap w)

/-! ### `RC_DEC` -/

theorem renormDec_swap (w : Swap) (m : Nat) (s : State) : renormDec m (s.swap w) = (renormDec m s).swap w := by
  induction m generalizing s with
  | zero => rfl
  | succ m ih =>
    have htop : topBitsAgree (s.swap w) = topBitsAgree s := rfl
    cases hs : topBitsAgree s with
    | false => rw [renormDec_stop hs, renormDec_stop (htop.trans hs)]
    | true => rw [renormDec_go hs, renormDec_go (htop.trans hs), getbit_swap, ← ih]; rfl

theorem Stable.renormDec {I : State → Prop} (hI : Stable I) {s : State} (h : I s) (m : Nat) : I (renormDec m s) := by
  obtain ⟨lo, hi, v, p, he⟩ := renormDec_frame m s
  rw [he]
  exact hI.regs (hI.regs (r := (s.setBounds lo hi).regs) h rfl rfl rfl) rfl rfl rfl

theorem decodeSymbol_lockstep {w : Swap} (hw : w.OfTable) {m n : Nat} {s : State} (h : ModelAgrees w m n s) (k : Nat) :
    Lockstep (Twins w (ModelAgrees w m n)) (decodeSymbol k s) (decodeSymbol k (s.swap w)) := by
  have hI := ModelAgrees.stable w m n
  refine (decSelect_lockstep h k).bind fun i j ⟨hj, hi⟩ => ?_
  subst hj
  refine (narrow_lockstep h hi k).bind fun s1 u1 ⟨hu1, h1⟩ => ?_
  subst hu1
  have hsym : memRead (s1.swap w) .msym j = memRead s1 .msym j := h1.msym j hi
  simp only [hsym, memWrite_swap_symmem _ hw, renormDec_swap]
  exact .ok ⟨rfl, hI.regs (hI.renormDec (h1.memWrite_symmem hw _ _) 32) rfl rfl rfl⟩

theorem rcDecBody_lockstep {w : Swap} (hw : w.OfTable) {m n : Nat} {s : State} (h : ModelAgrees w m n s) :
    Lockstep (Swapped w) (rcDecBody s) (rcDecBody (s.swap w)) := by
  have hinit : decInit (startBounds (s.swap w)) = (decInit (startBounds s)).swap w := by
    have hbits : getbit (startBounds (s.swap w)) = getbit (startBounds s) :=
      funext fun p => getbit_swap (startBounds s) w p
    simp only [decInit, hbits]
    rfl
  have h0 : ModelAgrees w m n (decInit (startBounds s)) :=
    (ModelAgrees.stable w m n).regs (s := s) (r := (decInit (startBounds s)).regs) h rfl rfl rfl
  refine (Lockstep.of_eq (y := checkSymcnt (s.swap w)) rfl).bind fun _ _ _ => ?_
  refine (Lockstep.of_eq (y := checkBitlen (s.swap w)) rfl).bind fun _ _ _ => ?_
  simp only [hinit, swap_regs]
  split
  · exact .ok rfl
  · refine (Lockstep.of_eq h0.checkModel).bind fun _ _ _ => ?_
    refine (Lockstep.forLoop (R := Twins w (ModelAgrees w m n)) ⟨rfl, h0⟩ fun k t u _ ⟨hu, ht⟩ => ?_).mono
      fun _ _ ⟨hv, _⟩ => hv
    subst hu
    exact decodeSymbol_lockstep hw ht k

theorem rcDec_blind {w : Swap} (hw : w.OfTable) {m n : Nat} {s : State} (h : ModelAgrees w m n s) : Blind w .rcDec s :=
  .of_runCommand (fun _ => rfl) (rcDecBody_lockstep hw ((ModelAgrees.stable _ _ _).regs h rfl rfl rfl))
    fun t => spoilRcDec_swap t hw

end Sys2Proof.Machine
end

section
/-! PROOFS. The table commands do not see the order of the code table: what `CodeOk` says of the lookups, and a
replacement that renames the entries in use. -/

namespace Sys2Proof.Machine

/-! ### Lookups in a valid table (R113) -/

theorem CodeOk.csym_inj {s : State} (h : CodeOk s) {i j : Nat} (hi : i < s.regs.ccount.toNat)
    (hj : j < s.regs.ccount.toNat) (he : memRead s .csym i = memRead s .csym j) : i = j := by
  obtain ⟨_, _, _, hsym, _⟩ := h
  rcases Nat.lt_trichotomy i j with hlt | heq | hgt
  · exact absurd he (hsym j hj i hlt)
  · exact heq
  · exact absurd he.symm (hsym i hi j hgt)

theorem CodeOk.codeword_inj {s : State} (h : CodeOk s) {i j : Nat} (hi : i < s.regs.ccount.toNat)
    (hj : j < s.regs.ccount.toNat) (he : codeword s i = codeword s j) : i = j := by
  obtain ⟨_, _, _, _, hprefix⟩ := h
  by_contra hne
  exact hprefix i hi j hj hne (he ▸ List.prefix_rfl)

/-- A symbol selects an entry exactly when it is the entry's symbol. -/
theorem codeEntry_eq_some_iff {s : State} (h : CodeOk s) {sym : Word} {j : Nat} :
    codeEntry s sym = some j ↔ j < s.regs.ccount.toNat ∧ memRead s .csym j = sym := by
  refine ⟨codeEntry_some, fun ⟨hj, hsym⟩ => ?_⟩
  cases he : codeEntry s sym with
  | none => exact absurd hsym (codeEntry_none he hj)
  | some i =>
    obtain ⟨hi, hsym'⟩ := codeEntry_some he
    rw [h.csym_inj hi hj (hsym'.trans hsym.symm)]

/-- The two tests of `BP_DEC` hold together exactly when the buffer is the entry's codeword (R67, R112). -/
theorem codeword_eq_iff {s : State} (h : CodeOk s) {q : List Bool} {j : Nat} (hj : j < s.regs.ccount.toNat) :
    codeword s j = q ↔ clenAt s j = q.length ∧ cbitsAt s j = val q := by
  obtain ⟨_, _, hbits, _⟩ := h
  have hval := val_codeword (hbits j hj)
  constructor
  · rintro rfl
    exact ⟨(codeword_length s j).symm, hval.symm⟩
  · rintro ⟨hl, hv⟩
    exact val_injective ((codeword_length s j).trans hl) (hval.trans hv)

/-- A buffer matches an entry exactly when it is the entry's codeword. -/
theorem codeMatch_eq_some_iff {s : State} (h : CodeOk s) {q : List Bool} {j : Nat} :
    codeMatch s q = some j ↔ j < s.regs.ccount.toNat ∧ codeword s j = q := by
  constructor
  · intro he
    obtain ⟨hj, htests⟩ := codeMatch_some he
    exact ⟨hj, (codeword_eq_iff h hj).2 htests⟩
  · rintro ⟨hj, hq⟩
    cases he : codeMatch s q with
    | none => exact absurd ((codeword_eq_iff h hj).1 hq) (codeMatch_none he hj)
    | some i =>
      obtain ⟨hi, htests⟩ := codeMatch_some he
      rw [h.codeword_inj hi hj (((codeword_eq_iff h hi).2 htests).trans hq.symm)]

/-! ### Renaming the entries in use -/

/-- Both states have `c` code table entries in use, and entry `j` of `u` is entry `σ j` of `s`. -/
structure Renames (σ : Nat → Nat) (c : Nat) (s u : State) : Prop where
  cfg : u.cfg = s.cfg
  count : s.regs.ccount.toNat = c
  count' : u.regs.ccount.toNat = c
  lt : ∀ j < c, σ j < c
  inj : ∀ j < c, ∀ k < c, σ j = σ k → j = k
  csym : ∀ j < c, memRead u .csym j = memRead s .csym (σ j)
  clen : ∀ j < c, memRead u .clen j = memRead s .clen (σ j)
  cbits : ∀ j < c, memRead u .cbits j = memRead s .cbits (σ j)

namespace Renames
variable {σ : Nat → Nat} {c : Nat} {s u : State} (h : Renames σ c s u)
include h

theorem clenAt {j : Nat} (hj : j < c) : clenAt u j = clenAt s (σ j) := congrArg BitVec.toNat (h.clen j hj)

theorem cbitsAt {j : Nat} (hj : j < c) : cbitsAt u j = cbitsAt s (σ j) := congrArg BitVec.toNat (h.cbits j hj)

theorem codeword {j : Nat} (hj : j < c) : codeword u j = codeword s (σ j) := by
  simp only [Machine.codeword, h.clenAt hj, h.cbits j hj]

/-- An injection of the entries in use into themselves is onto. -/
theorem surj : ∀ i < c, ∃ j, j < c ∧ σ j = i := by
  intro i hi
  have hmaps : Set.MapsTo σ (Finset.range c) (Finset.range c) := fun j hj => by
    simpa using h.lt j (by simpa using hj)
  have hinj : Set.InjOn σ (Finset.range c) := fun j hj k hk => h.inj j (by simpa using hj) k (by simpa using hk)
  obtain ⟨j, hj, hji⟩ := Finset.surjOn_of_injOn_of_card_le σ hmaps hinj (Nat.le_refl _)
    (show i ∈ _ by simpa using hi)
  exact ⟨j, by simpa using hj, hji⟩

/-- So the renaming has an inverse. -/
theorem inverse : ∃ τ, Renames τ c u s := by
  choose! τ hlt hinv using h.surj
  exact ⟨τ,
    { cfg := h.cfg.symm
      count := h.count'
      count' := h.count
      lt := hlt
      inj := fun j hj k hk hjk => by rw [← hinv j hj, hjk, hinv k hk]
      csym := fun j hj => by rw [h.csym _ (hlt j hj), hinv j hj]
      clen := fun j hj => by rw [h.clen _ (hlt j hj), hinv j hj]
      cbits := fun j hj => by rw [h.cbits _ (hlt j hj), hinv j hj] }⟩

theorem codeOk (hok : CodeOk s) : CodeOk u := by
  have hsymInj {i j : Nat} (hi : i < c) (hj : j < c) := hok.csym_inj (h.count.symm ▸ hi) (h.count.symm ▸ hj)
  obtain ⟨hmax, hlen, hbits, _, hprefix⟩ := hok
  simp only [h.count] at hmax hlen hbits hprefix
  simp only [CodeOk, h.count', h.cfg]
  refine ⟨hmax, fun j hj => ?_, fun j hj => ?_, fun k hk j hjk heq => ?_, fun j hj k hk hne => ?_⟩
  · rw [h.clenAt hj]; exact hlen _ (h.lt j hj)
  · rw [h.clenAt hj, h.cbitsAt hj]; exact hbits _ (h.lt j hj)
  · have hj : j < c := hjk.trans hk
    rw [h.csym j hj, h.csym k hk] at heq
    exact hjk.ne (h.inj j hj k hk (hsymInj (h.lt j hj) (h.lt k hk) heq))
  · rw [h.codeword hj, h.codeword hk]
    exact hprefix _ (h.lt j hj) _ (h.lt k hk) fun he => hne (h.inj j hj k hk he)

theorem codeOk_iff : CodeOk u ↔ CodeOk s := by
  obtain ⟨τ, hτ⟩ := h.inverse
  exact ⟨hτ.codeOk, h.codeOk⟩

theorem checkTable : checkTable u = checkTable s := by
  by_cases hok : CodeOk s
  · rw [checkTable_ok hok, checkTable_ok (h.codeOk hok)]
  · rw [checkTable_error hok, checkTable_error (mt h.codeOk_iff.1 hok)]

/-- A lookup that only entries with `P` answer finds the same entry, under its other name. -/
theorem lookup_eq {P Q : Nat → Prop} {x y : Option Nat} (hx : ∀ i, x = some i ↔ i < c ∧ P i)
    (hy : ∀ j, y = some j ↔ j < c ∧ Q j) (hPQ : ∀ j < c, Q j ↔ P (σ j)) : x = y.map σ := by
  refine Option.ext fun i => ?_
  rw [hx, Option.map_eq_some_iff]
  constructor
  · rintro ⟨hi, hP⟩
    obtain ⟨j, hj, rfl⟩ := h.surj i hi
    exact ⟨j, (hy j).2 ⟨hj, (hPQ j hj).2 hP⟩, rfl⟩
  · rintro ⟨j, hyj, rfl⟩
    obtain ⟨hj, hQ⟩ := (hy j).1 hyj
    exact ⟨h.lt j hj, (hPQ j hj).1 hQ⟩

theorem codeEntry (hok : CodeOk s) (sym : Word) : codeEntry s sym = (codeEntry u sym).map σ :=
  h.lookup_eq (fun _ => h.count ▸ codeEntry_eq_some_iff hok)
    (fun _ => h.count' ▸ codeEntry_eq_some_iff (h.codeOk hok))
    fun j hj => by rw [h.csym j hj]

theorem codeMatch (hok : CodeOk s) (q : List Bool) : codeMatch s q = (codeMatch u q).map σ :=
  h.lookup_eq (fun _ => h.count ▸ codeMatch_eq_some_iff hok)
    (fun _ => h.count' ▸ codeMatch_eq_some_iff (h.codeOk hok))
    fun j hj => by rw [h.codeword hj]

end Renames

/-! ### Replacements that rename -/

/-- The code table is valid with `c` entries in use, which the replacement renames by `σ`, and the replacement leaves the
symbols below `n`. -/
structure CodeAgrees (w : Swap) (σ : Nat → Nat) (c n : Nat) (s : State) : Prop where
  symbols : ∀ k < n, memRead (s.swap w) .symmem k = memRead s .symmem k
  renames : Renames σ c s (s.swap w)
  ok : CodeOk s

/-- A write to a register that is no table count keeps the renaming. -/
theorem Renames.setRegs {w : Swap} {σ : Nat → Nat} {c : Nat} {s : State} (h : Renames σ c s (s.swap w)) {r : Regs}
    (hc : r.ccount = s.regs.ccount) :
    Renames σ c { s with regs := r } (State.swap { s with regs := r } w) :=
  have hcount := (congrArg BitVec.toNat hc).trans h.count
  ⟨rfl, hcount, hcount, h.lt, h.inj, h.csym, h.clen, h.cbits⟩

theorem CodeAgrees.stable (w : Swap) (σ : Nat → Nat) (c n : Nat) : Stable (CodeAgrees w σ c n) where
  regs := fun h _ hc _ => ⟨h.symbols, h.renames.setRegs hc, by simp only [CodeOk, hc]; exact h.ok⟩
  bitmem := fun i v h => by
    obtain ⟨hsym, hr, hok⟩ := h
    cases w <;> exact ⟨hsym, ⟨rfl, hr.count, hr.count', hr.lt, hr.inj, hr.csym, hr.clen, hr.cbits⟩, hok⟩

theorem CodeAgrees.memWrite_symmem {w : Swap} (hw : w.OfTable) {σ : Nat → Nat} {c n : Nat} {s : State}
    (h : CodeAgrees w σ c n s) (i : Nat) (v : Word) : CodeAgrees w σ c n (memWrite s .symmem i v) := by
  obtain ⟨_, hr, hok⟩ := h
  cases w with
  | model | code =>
    exact ⟨fun _ _ => rfl, ⟨rfl, hr.count, hr.count', hr.lt, hr.inj, hr.csym, hr.clen, hr.cbits⟩, hok⟩
  | symbols => exact hw.elim

section
variable {w : Swap} {σ : Nat → Nat} {c n : Nat} {s : State}

/-! ### `BP_ENC` -/

theorem emitCodeBit_lockstep (h : CodeAgrees w σ c n s) {j : Nat} (hj : j < c) (t : Nat) :
    Lockstep (Twins w (CodeAgrees w σ c n)) (emitCodeBit (σ j) t s) (emitCodeBit j t (s.swap w)) := by
  simp only [emitCodeBit, h.renames.clenAt hj, h.renames.cbits j hj]
  exact emit_lockstep (CodeAgrees.stable w σ c n) h _

theorem packSymbol_lockstep (h : CodeAgrees w σ c n s) {k : Nat} (hk : k < n) :
    Lockstep (Twins w (CodeAgrees w σ c n)) (packSymbol k s) (packSymbol k (s.swap w)) := by
  simp only [packSymbol, h.symbols k hk, h.renames.codeEntry h.ok]
  cases hj : codeEntry (s.swap w) (memRead s .symmem k) with
  | none => exact .error _
  | some j =>
    have hlt : j < c := h.renames.count' ▸ (codeEntry_some hj).1
    simp only [Option.map_some, h.renames.clenAt hlt]
    refine (Lockstep.forLoop (R := Twins w (CodeAgrees w σ c n)) ⟨rfl, h⟩ fun t u v _ ⟨hv, hu⟩ => ?_).bind
      fun t v ⟨hv, ht⟩ => ?_
    · subst hv
      exact emitCodeBit_lockstep hu hlt t
    · subst hv
      exact .ok ⟨rfl, (CodeAgrees.stable w σ c n).regs ht rfl rfl rfl⟩

/-- Two results of a table check that are equal, and with it the table is valid. -/
theorem checkTable_lockstep (h : Renames σ c s (s.swap w)) :
    Lockstep (fun _ _ => CodeOk s) (checkTable s) (checkTable (s.swap w)) := by
  rw [h.checkTable]
  by_cases hok : CodeOk s
  · rw [checkTable_ok hok]; exact .ok hok
  · rw [checkTable_error hok]; exact .error _

theorem bpEncBody_lockstep (h : Renames σ c s (s.swap w))
    (hsym : ∀ k < s.regs.symcnt.toNat, memRead (s.swap w) .symmem k = memRead s .symmem k) :
    Lockstep (Swapped w) (bpEncBody s) (bpEncBody (s.swap w)) := by
  have hu : ((s.swap w).setSidx 0).setBitlen 0 = ((s.setSidx 0).setBitlen 0).swap w := rfl
  have h0 : Renames σ c ((s.setSidx 0).setBitlen 0) (((s.setSidx 0).setBitlen 0).swap w) :=
    h.setRegs (r := ((s.setSidx 0).setBitlen 0).regs) rfl
  refine (Lockstep.of_eq (y := checkSymcnt (s.swap w)) rfl).bind fun _ _ _ => ?_
  simp only [hu, swap_regs]
  refine (checkTable_lockstep h0).bind fun _ _ hok => ?_
  have hstart : CodeAgrees w σ c s.regs.symcnt.toNat ((s.setSidx 0).setBitlen 0) := ⟨hsym, h0, hok⟩
  refine (Lockstep.forLoop (R := Twins w (CodeAgrees w σ c s.regs.symcnt.toNat)) ⟨rfl, hstart⟩
    fun k t v hk ⟨hv, ht⟩ => ?_).mono fun _ _ ⟨hv, _⟩ => hv
  subst hv
  exact packSymbol_lockstep ht (by rwa [Nat.zero_add] at hk)

theorem bpEnc_blind (h : Renames σ c s (s.swap w))
    (hsym : ∀ k < s.regs.symcnt.toNat, memRead (s.swap w) .symmem k = memRead s .symmem k) : Blind w .bpEnc s :=
  .of_runCommand (fun _ => rfl) (bpEncBody_lockstep (h.setRegs rfl) hsym) (spoilBpEnc_swap w)

/-! ### `BP_DEC` -/

/-- The same with the match buffer, which is the same in both runs (R38). -/
abbrev BufferTwins (w : Swap) (I : State → Prop) (x y : State × List Bool) : Prop := Twins w I x.1 y.1 ∧ y.2 = x.2

theorem unpackBit_lockstep (hw : w.OfTable) (h : CodeAgrees w σ c n s) (p : Nat) (buf : List Bool) :
    Lockstep (BufferTwins w (CodeAgrees w σ c n)) (unpackBit p (s, buf)) (unpackBit p (s.swap w, buf)) := by
  have hI := CodeAgrees.stable w σ c n
  have hu : (s.swap w).setBptr (BitVec.ofNat 32 (p + 1)) = (s.setBptr (BitVec.ofNat 32 (p + 1))).swap w := rfl
  have h1 : CodeAgrees w σ c n (s.setBptr (BitVec.ofNat 32 (p + 1))) := hI.regs h rfl rfl rfl
  simp only [unpackBit, hu, getbit_swap, h1.renames.codeMatch h1.ok]
  cases hj : codeMatch ((s.setBptr (BitVec.ofNat 32 (p + 1))).swap w) (buf ++ [getbit s p]) with
  | none => exact .ok ⟨⟨rfl, h1⟩, rfl⟩
  | some j =>
    have hlt : j < c := h1.renames.count' ▸ (codeMatch_some hj).1
    simp only [Option.map_some, h1.renames.csym j hlt, swap_cfg, swap_regs, memWrite_swap_symmem _ hw]
    split
    · exact .error _
    · exact .ok ⟨⟨rfl, hI.regs (h1.memWrite_symmem hw _ _) rfl rfl rfl⟩, rfl⟩

theorem bpDecBody_lockstep (hw : w.OfTable) (h : Renames σ c s (s.swap w)) :
    Lockstep (Swapped w) (bpDecBody s) (bpDecBody (s.swap w)) := by
  have hu : ((s.swap w).setSidx 0).setBptr 0 = ((s.setSidx 0).setBptr 0).swap w := rfl
  have h0 : Renames σ c ((s.setSidx 0).setBptr 0) (((s.setSidx 0).setBptr 0).swap w) :=
    h.setRegs (r := ((s.setSidx 0).setBptr 0).regs) rfl
  refine (Lockstep.of_eq (y := checkBitlen (s.swap w)) rfl).bind fun _ _ _ => ?_
  simp only [hu, swap_regs]
  refine (checkTable_lockstep h0).bind fun _ _ hok => ?_
  have hstart : CodeAgrees w σ c 0 ((s.setSidx 0).setBptr 0) := ⟨fun _ hk => absurd hk (Nat.not_lt_zero _), h0, hok⟩
  have hboth : BufferTwins w (CodeAgrees w σ c 0) ((s.setSidx 0).setBptr 0, [])
      (((s.setSidx 0).setBptr 0).swap w, []) := ⟨⟨rfl, hstart⟩, rfl⟩
  refine (Lockstep.forLoop hboth
    fun p ⟨t, buf⟩ ⟨v, buf'⟩ _ ⟨⟨hv, ht⟩, hbuf⟩ => ?_).bind fun ⟨t, buf⟩ ⟨v, buf'⟩ ⟨⟨hv, _⟩, hbuf⟩ => ?_
  · dsimp only at hv hbuf
    subst hv hbuf
    exact unpackBit_lockstep hw ht p buf'
  · dsimp only at hv hbuf
    subst hv hbuf
    exact .ok rfl

theorem bpDec_blind (hw : w.OfTable) (h : Renames σ c s (s.swap w)) : Blind w .bpDec s :=
  .of_runCommand (fun _ => rfl) (bpDecBody_lockstep hw (h.setRegs rfl)) fun t => spoilBpDec_swap t hw

end

/-! ### The obligations -/

/-- A replacement that leaves the code table entries in use renames each to itself. -/
theorem Renames.of_reads {w : Swap} {s : State}
    (h : ∀ j < s.regs.ccount.toNat, memRead (s.swap w) .csym j = memRead s .csym j ∧
      memRead (s.swap w) .clen j = memRead s .clen j ∧ memRead (s.swap w) .cbits j = memRead s .cbits j) :
    Renames id s.regs.ccount.toNat s (s.swap w) :=
  ⟨rfl, rfl, rfl, fun _ hj => hj, fun _ _ _ _ he => he, fun j hj => (h j hj).1, fun j hj => (h j hj).2.1,
    fun j hj => (h j hj).2.2⟩

/-- Settles O43: the table commands see a renaming of the entries in use, and the others see no code table at all. -/
theorem codeTableOrderDoesNotMatter : Obligations.CodeTableOrderDoesNotMatter := by
  intro s csym clen cbits perm u hlt hinj hreads i
  have hr : Renames perm s.regs.ccount.toNat s (s.swap (.code csym clen cbits)) :=
    ⟨rfl, rfl, rfl, hlt, fun j hj k hk => hinj j k hj hk, fun j hj => (hreads j hj).1, fun j hj => (hreads j hj).2.1,
      fun j hj => (hreads j hj).2.2⟩
  have hm : ModelAgrees (.code csym clen cbits) s.regs.mcount.toNat s.regs.symcnt.toNat s :=
    ⟨rfl, fun _ _ => rfl, fun _ _ => rfl, fun _ _ => rfl, fun _ _ => rfl⟩
  have hblind : Blind (.code csym clen cbits) i s := by
    cases i with
    | nop => exact nop_blind _ s
    | rcEnc => exact rcEnc_blind hm
    | rcDec => exact rcDec_blind (w := .code ..) trivial hm
    | bpEnc => exact bpEnc_blind hr fun _ _ => rfl
    | bpDec => exact bpDec_blind (w := .code ..) trivial hr
    | bsPack => exact bsPack_blind _ s
    | bsUnpack => exact bsUnpack_blind _ s
    | sreset => exact sreset_blind _ s
  exact hblind

/-- Every command answers, so what it is blind to shows in no answer. -/
theorem Blind.answers {w : Swap} {i : Instr} {s : State} (h : Blind w i s) :
    ∃ t, exec i s = .next t ∧ exec i (s.swap w) = .next (t.swap w) := by
  obtain ⟨t, ht⟩ := exec_next i s
  exact ⟨t, ht, h t ht⟩

/-- Settles O50: each command that reads the table or the symbols is blind to a replacement past the count. -/
theorem entriesPastTheCountNeverMatter : Obligations.EntriesPastTheCountNeverMatter := by
  intro s
  refine ⟨?_, ?_, ?_⟩
  · intro i msym mfreq mcum u hi hreads
    have hm : ModelAgrees (.model msym mfreq mcum) s.regs.mcount.toNat s.regs.symcnt.toNat s :=
      ⟨rfl, fun i hi => (hreads i hi).1, fun i hi => (hreads i hi).2.1, fun i hi => (hreads i hi).2.2,
        fun _ _ => rfl⟩
    refine Blind.answers (w := .model msym mfreq mcum) ?_
    rcases hi with rfl | rfl
    · exact rcEnc_blind hm
    · exact rcDec_blind (w := .model ..) trivial hm
  · intro i csym clen cbits u hi hreads
    have hr : Renames id s.regs.ccount.toNat s (s.swap (.code csym clen cbits)) := .of_reads hreads
    refine Blind.answers (w := .code csym clen cbits) ?_
    rcases hi with rfl | rfl
    · exact bpEnc_blind hr fun _ _ => rfl
    · exact bpDec_blind (w := .code ..) trivial hr
  · intro i symmem u hi hreads
    refine Blind.answers (w := .symbols symmem) ?_
    rcases hi with rfl | rfl
    · exact rcEnc_blind ⟨rfl, fun _ _ => rfl, fun _ _ => rfl, fun _ _ => rfl, hreads⟩
    · exact bpEnc_blind (.of_reads fun _ _ => ⟨rfl, rfl, rfl⟩) hreads

end Sys2Proof.Machine
end

section
/-! PROOFS. The host's writes: what each kind of write does in one step, that no command touches the port, and from both
which writes are refused and that a written element reads back. -/

namespace Sys2Proof.Machine

/-! ### The map written out (R17, R45) -/

/-- The aligned words up to 0x44 are the registers (R17). -/
theorem Reg.exists_addr {addr : Word} (hal : addr.toNat % 4 = 0) (hle : addr.toNat ≤ 0x44) :
    ∃ r : Reg, addr = r.addr := by
  have hoff : ∀ n ≤ 0x44, n % 4 = 0 → ∃ r ∈ Reg.all, n = r.offset := by decide
  obtain ⟨r, _, hr⟩ := hoff _ hle hal
  exact ⟨r, BitVec.eq_of_toNat_eq (hr.trans r.addr_toNat.symm)⟩

theorem readOnly_aligned : ∀ n ∈ readOnly, n % 4 = 0 ∧ n ≤ 0x44 := by decide

/-- The read-only rows of R17 are the registers that a write does not store. -/
theorem writeReg_eq_none_iff {r : Regs} {v : Word} {x : Reg} : writeReg r v x = none ↔ x.addr.toNat ∈ readOnly := by
  rw [x.addr_toNat]
  cases x <;> simp [writeReg, Reg.offset, readOnly]

/-- The rows of R45 are the arrays. -/
theorem mem_windows_iff {c : Config} {row : Nat × Nat × Nat} :
    row ∈ windows c ↔ ∃ a : Arr, row = (a.base, a.size c, a.width c) := by
  constructor
  · intro h
    have hmap : windows c = Arr.all.map fun a => (a.base, a.size c, a.width c) := rfl
    rw [hmap, List.mem_map] at h
    obtain ⟨a, _, ha⟩ := h
    exact ⟨a, ha.symm⟩
  · rintro ⟨a, rfl⟩
    exact a.row_mem_windows c

/-! ### One write of the host (R44, R46) -/

section
variable {s : State} {addr data : Word} {rest : List HostOp} (h : s.host = .write addr data :: rest)
include h

/-- A write that issues no command. -/
theorem step_write (hc : locate s.cfg addr ≠ some (.reg .cmd)) :
    step s = .next (hostWrite { s with host := rest } addr data) :=
  step_move h (if_neg hc)

theorem step_write_unmapped (hl : locate s.cfg addr = none) :
    step s = .next { s with host := rest, responses := .buserr :: s.responses } := by
  rw [step_write h (by simp [hl]), hostWrite, hl]
  rfl

theorem step_write_readOnly (hr : addr.toNat ∈ readOnly) :
    step s = .next { s with host := rest, responses := .buserr :: s.responses } := by
  obtain ⟨hal, hle⟩ := readOnly_aligned _ hr
  obtain ⟨r, rfl⟩ := Reg.exists_addr hal hle
  have hl := locate_reg s.cfg r
  have hcmd : r ≠ .cmd := by rintro rfl; exact absurd hr (by decide)
  rw [step_write h (by simp [hl, hcmd]), hostWrite, hl]
  simp only [writeReg_eq_none_iff.2 hr]
  rfl

theorem step_write_tooWide {a : Arr} {i : Nat} (hl : locate s.cfg addr = some (.elem a i))
    (hw : 2 ^ a.width s.cfg ≤ data.toNat) :
    step s = .next { s with host := rest, responses := .buserr :: s.responses } := by
  rw [step_write h (by simp [hl]), hostWrite, hl]
  simp only [if_neg (Nat.not_lt.2 hw)]
  rfl

theorem step_write_elem {a : Arr} {i : Nat} (hl : locate s.cfg addr = some (.elem a i))
    (hw : data.toNat < 2 ^ a.width s.cfg) :
    step s = .next ((memWrite { s with host := rest } a i data).respond .ok) := by
  rw [step_write h (by simp [hl]), hostWrite, hl]
  simp only [if_pos hw]

end

/-- Settles O17: the write's step stores the element, and a store changes that element alone. -/
theorem writtenElementsReadBack : Obligations.WrittenElementsReadBack := by
  intro s a i addr data rest hc hi ha hfit hs
  refine ⟨_, step_write_elem hs (locate_elem hc hi ha) hfit, ?_, memWrite_regs _ _ _ _, memWrite_cfg _ _ _ _, ?_⟩
  · exact memRead_memWrite_same _ a i data hfit
  · intro b j hother
    have hkeep : memRead (memWrite { s with host := rest } a i data) b j = memRead { s with host := rest } b j := by
      by_cases hb : b = a
      · subst hb
        exact memRead_memWrite_index _ b data (hother.resolve_left fun hne => hne rfl)
      · exact memRead_memWrite_array _ i j data hb
    exact hkeep.trans (memRead_congr b j rfl rfl)

/-! ### No command touches the port (R46, R48) -/

/-- The moves still to take and the responses given so far are the same. -/
abbrev SamePort (s t : State) : Prop := t.host = s.host ∧ t.responses = s.responses

section
variable {s t : State} (h : SamePort s t)
include h

theorem SamePort.memWrite (a : Arr) (i : Nat) (v : Word) : SamePort s (memWrite t a i v) := by
  simpa only [SamePort, memWrite_host, memWrite_responses] using h

theorem emit_port (b : Bool) : Yields (SamePort s) (emit b t) := by
  obtain ⟨hhost, hresp⟩ := h
  rcases emit_cases b t with ⟨_, he⟩ | ⟨_, u, he, _, _, _, _, hhost', hresp', _⟩ <;> rw [he]
  · exact .error (by decide)
  · exact .ok ⟨hhost'.trans hhost, hresp'.trans hresp⟩

theorem narrow_port (i k : Nat) : Yields (SamePort s) (narrow i k t) := by
  rcases narrow_cases i k t with ⟨_, he⟩ | ⟨_, he⟩ <;> rw [he]
  · exact .error (by decide)
  · exact .ok h

theorem renormEnc_port (n : Nat) : Yields (SamePort s) (renormEnc n t) := by
  induction n generalizing t with
  | zero => exact .ok h
  | succ n ih =>
    cases hs : topBitsAgree t with
    | false => rw [renormEnc_stop hs]; exact .ok h
    | true => rw [renormEnc_go hs]; exact (emit_port h _).bind fun u hu => ih (t := shiftBounds u) hu

theorem flush_port : Yields (SamePort s) (flush t) :=
  Yields.forLoop h fun k u _ _ hu => by
    rw [flushBit_eq_bind]
    exact (emit_port hu _).bind fun _ hv => .ok hv

theorem rcEncBody_port : Yields (SamePort s) (rcEncBody t) := by
  have h0 : SamePort s ((startBounds t).setBitlen 0) := h
  refine (checkSymcnt_yields t).bind fun _ _ => ?_
  dsimp only
  split
  · exact .ok h0
  · refine (checkModel_yields _).bind fun _ _ =>
      (Yields.forLoop h0 fun k u _ _ hu => ?_).bind fun _ hv => flush_port hv
    exact (lookupModel_yields _ k u).bind fun i _ => (narrow_port hu i k).bind fun _ h1 =>
      (renormEnc_port h1 32).bind fun _ h2 => .ok h2

theorem SamePort.renormDec (n : Nat) : SamePort s (renormDec n t) := by
  obtain ⟨lo, hi, v, p, he⟩ := renormDec_frame n t
  rw [he]
  exact h

theorem rcDecBody_port : Yields (SamePort s) (rcDecBody t) := by
  have h0 : SamePort s (decInit (startBounds t)) := h
  refine (checkSymcnt_yields t).bind fun _ _ => (checkBitlen_yields t).bind fun _ _ => ?_
  dsimp only
  split
  · exact .ok h0
  · refine (checkModel_yields _).bind fun _ _ => Yields.forLoop h0 fun k u _ _ hu => ?_
    exact (decSelect_yields k u).bind fun i _ => (narrow_port hu i k).bind fun _ h1 =>
      .ok (SamePort.renormDec (t := memWrite _ .symmem k _) h1 32)

theorem packSymbol_port (k : Nat) : Yields (SamePort s) (packSymbol k t) := by
  unfold packSymbol
  split
  · exact .error (by decide)
  · exact (Yields.forLoop h fun _ _ _ _ hu => emit_port hu _).bind fun _ hv => .ok hv

theorem bpEncBody_port : Yields (SamePort s) (bpEncBody t) :=
  (checkSymcnt_yields t).bind fun _ _ => (checkTable_yields _).bind fun _ _ =>
    Yields.forLoop (P := SamePort s) h fun k _ _ _ hu => packSymbol_port hu k

theorem unpackBit_port (p : Nat) (buf : List Bool) : Yields (fun y => SamePort s y.1) (unpackBit p (t, buf)) := by
  unfold unpackBit
  dsimp only
  split
  · exact .ok h
  · split
    · exact .error (by decide)
    · exact .ok h

theorem bpDecBody_port : Yields (SamePort s) (bpDecBody t) := by
  refine (checkBitlen_yields t).bind fun _ _ => (checkTable_yields _).bind fun _ _ => ?_
  exact (Yields.forLoop (P := fun x : State × List Bool => SamePort s x.1) h
    fun p x _ _ hx => unpackBit_port hx p x.2).bind fun _ hx => .ok hx

theorem bsPackBody_port : Yields (SamePort s) (bsPackBody t) := by
  refine (checkBitlen_yields t).bind fun _ _ => ?_
  dsimp only
  split
  · exact .error (by decide)
  · refine (Yields.forLoop (P := SamePort s) ?_ fun _ _ _ _ hu => ?_).bind fun _ hv => .ok hv
    · exact h
    · exact .ok hu

theorem bsUnpackBody_port : Yields (SamePort s) (bsUnpackBody t) := by
  refine (checkFilelen_yields t).bind fun _ _ => ?_
  split
  · exact .ok h
  · dsimp only
    split
    · exact .error (by decide)
    · split
      · exact .error (by decide)
      · split
        · exact .error (by decide)
        · refine (Yields.forLoop h fun _ _ _ _ hu => ?_).bind fun _ hv => .ok hv
          exact .ok hu

end

/-- Dispatch leaves the port, when the body and the fault leave it (R135, R150). -/
theorem runCommand_port {body : State → Except Raise State} {spoil : State → State} {s : State}
    (hb : ∀ t, body (s.setDone false) = .ok t → SamePort s t) (hsp : SamePort s (spoil (s.setDone false))) :
    SamePort s (runCommand body spoil s) := by
  rcases runCommand_cases body spoil s with ⟨_, he⟩ | ⟨_, t, ht, he⟩ | ⟨_, r, _, he⟩ <;> rw [he]
  · exact ⟨rfl, rfl⟩
  · exact hb t ht
  · exact hsp

theorem exec_port (i : Instr) (s : State) : ∃ t, exec i s = .next t ∧ SamePort s t := by
  have h0 : SamePort s (s.setDone false) := ⟨rfl, rfl⟩
  cases i with
  | nop => exact ⟨_, rfl, runCommand_port (fun _ ht => Except.ok.inj ht ▸ h0) h0⟩
  | rcEnc => exact ⟨_, rfl, runCommand_port (fun _ => (rcEncBody_port h0).of_ok) ⟨rfl, rfl⟩⟩
  | rcDec => exact ⟨_, rfl, runCommand_port (fun _ => (rcDecBody_port h0).of_ok) ⟨rfl, rfl⟩⟩
  | bpEnc => exact ⟨_, rfl, runCommand_port (fun _ => (bpEncBody_port h0).of_ok) ⟨rfl, rfl⟩⟩
  | bpDec => exact ⟨_, rfl, runCommand_port (fun _ => (bpDecBody_port h0).of_ok) ⟨rfl, rfl⟩⟩
  | bsPack => exact ⟨_, rfl, runCommand_port (fun _ => (bsPackBody_port h0).of_ok) ⟨rfl, rfl⟩⟩
  | bsUnpack => exact ⟨_, rfl, runCommand_port (fun _ => (bsUnpackBody_port h0).of_ok) ⟨rfl, rfl⟩⟩
  | sreset => exact ⟨_, rfl, rfl, rfl⟩

theorem illegalCommand_port (w : Word) (s : State) : SamePort s (illegalCommand w s) :=
  runCommand_port (fun _ ht => absurd ht (by simp)) ⟨rfl, rfl⟩

/-! ### Which writes are refused (R46) -/

/-- Any word written to `CMD` is answered `ok`: the command it selects leaves the port, and so does an illegal word. -/
theorem step_write_cmd {s : State} {w : Word} {rest : List HostOp} (h : s.host = .write Reg.cmd.addr w :: rest) :
    ∃ t, step s = .next t ∧ t.responses = .ok :: s.responses ∧ t.host = rest := by
  have hc : commandWord s.cfg (.write Reg.cmd.addr w) = some w := commandWord_write_cmd _ w
  cases hd : decode w with
  | ok i =>
    obtain ⟨t, ht, hhost, hresp⟩ := exec_port i { s with host := rest }
    exact ⟨t.respond .ok, by rw [step_command h hc hd, ht]; rfl, congrArg _ hresp, hhost⟩
  | error e =>
    obtain ⟨hhost, hresp⟩ := illegalCommand_port w { s with host := rest }
    exact ⟨_, step_illegal h hc hd, congrArg _ hresp, hhost⟩

/-- Settles O15: a refused write by its reason, any other by the register or the element it goes to. -/
theorem writesAreRefusedExactly : Obligations.WritesAreRefusedExactly := by
  intro s addr data rest hc hs
  constructor
  · rintro (hal | hmap | hro | ⟨row, hrow, i, hi, ha, hwide⟩)
    · exact step_write_unmapped hs (locate_none (.inl hal))
    · exact step_write_unmapped hs (locate_none (.inr hmap))
    · exact step_write_readOnly hs hro
    · obtain ⟨a, rfl⟩ := mem_windows_iff.1 hrow
      exact step_write_tooWide hs (locate_elem hc hi ha) hwide
  · intro hok
    have hmap : Mapped s.cfg addr.toNat := by_contra fun hno => hok (.inr (.inl hno))
    rcases hmap with ⟨hal, hle⟩ | ⟨row, hrow, i, hi, ha⟩
    · obtain ⟨r, rfl⟩ := Reg.exists_addr hal hle
      by_cases hr : r = .cmd
      · exact step_write_cmd (hr ▸ hs)
      · obtain ⟨regs, hregs⟩ := Option.ne_none_iff_exists'.1 fun hnone =>
          hok (.inr (.inr (.inl ((writeReg_eq_none_iff (r := s.regs) (v := data)).1 hnone))))
        exact ⟨_, step_write_reg hs hr hregs, rfl, rfl⟩
    · have hfit : data.toNat < 2 ^ row.2.2 := Nat.lt_of_not_le fun hwide =>
        hok (.inr (.inr (.inr ⟨row, hrow, i, hi, ha, hwide⟩)))
      obtain ⟨a, rfl⟩ := mem_windows_iff.1 hrow
      obtain ⟨hhost, hresp⟩ := SamePort.memWrite (s := { s with host := rest }) ⟨rfl, rfl⟩ a i data
      exact ⟨_, step_write_elem hs (locate_elem hc hi ha) hfit, congrArg _ hresp, hhost⟩

end Sys2Proof.Machine
end

section
/-! PROOFS. The commands that read the bit memory, on two bit memories with the same bits below `BITLEN`, in
lockstep. -/

namespace Sys2Proof.Machine

/-! ### Replacing the bit memory -/

/-- The state with another bit memory. -/
def State.withBitmem (s : State) (m : Memory 8) : State := { s with arr := { s.arr with bitmem := m } }

/-- `BITLEN` is `n`, and the other bit memory has the same bit sequence (R52). -/
structure BitsAgree (m : Memory 8) (n : Nat) (s : State) : Prop where
  len : s.regs.bitlen.toNat = n
  bits : ∀ p, getbit (s.withBitmem m) p = getbit s p

/-- The second state is the first with the other bit memory, which has the same bit sequence. -/
abbrev BitTwins (m : Memory 8) (n : Nat) (s u : State) : Prop := u = s.withBitmem m ∧ BitsAgree m n s

section
variable {m : Memory 8} {n : Nat} {s : State}

/-- Agreement below `BITLEN` is enough: from there on both read 0. -/
theorem BitsAgree.of_lt (h : ∀ p < s.regs.bitlen.toNat, getbit (s.withBitmem m) p = getbit s p) :
    BitsAgree m s.regs.bitlen.toNat s where
  len := rfl
  bits := fun p => by
    rcases Nat.lt_or_ge p s.regs.bitlen.toNat with hp | hp
    · exact h p hp
    · rw [getbit_of_ge s hp, getbit_of_ge (s.withBitmem m) hp]

/-- The agreement rests on `BITLEN` and the bit memory alone. -/
theorem BitsAgree.congr {t : State} (h : BitsAgree m n s) (hb : t.regs.bitlen = s.regs.bitlen)
    (hm : t.arr.bitmem = s.arr.bitmem) : BitsAgree m n t where
  len := hb ▸ h.len
  bits := fun p => by
    have hs : getbit t p = getbit s p := getbit_congr p hb (by simp only [memRead, hm, Arr.width])
    rw [hs, ← h.bits p]
    exact getbit_congr p hb rfl

end

/-- A test that comes out the same in both runs. -/
theorem Lockstep.ite {α β : Type} {R : α → β → Prop} {c : Prop} [Decidable c] {x x' : Except Raise α}
    {y y' : Except Raise β} (hpos : c → Lockstep R x y) (hneg : ¬ c → Lockstep R x' y') :
    Lockstep R (if c then x else x') (if c then y else y') := by
  split
  · exact hpos ‹_›
  · exact hneg ‹_›

/-! ### Dispatch -/

/-- Dispatch commutes with a change of state that the flags, the body and its fault do not see (R135, R151). -/
theorem runCommand_commutes {f : State → State} {body : State → Except Raise State} {spoil : State → State}
    {s : State}
    (hfault : (f s).regs.fault = s.regs.fault) (hdone : ∀ t b, (f t).setDone b = f (t.setDone b))
    (hentry : ∀ r t, faultEntry r (f t) = f (faultEntry r t)) (hsp : ∀ t, spoil (f t) = f (spoil t))
    (hb : Lockstep (fun t u => u = f t) (body (s.setDone false)) (body (f (s.setDone false)))) :
    runCommand body spoil (f s) = f (runCommand body spoil s) := by
  simp only [runCommand, hfault, hdone]
  split
  · rfl
  · generalize body (s.setDone false) = x, body (f (s.setDone false)) = y at hb
    cases hb with
    | ok hu => rw [hu]; exact hdone _ true
    | error r => rw [hsp]; exact hentry r _

section
variable {m : Memory 8} {n : Nat} {s : State}

/-! ### `RC_DEC` -/

theorem renormDec_withBitmem (h : BitsAgree m n s) (k : Nat) :
    BitTwins m n (renormDec k s) (renormDec k (s.withBitmem m)) := by
  induction k generalizing s with
  | zero => exact ⟨rfl, h⟩
  | succ k ih =>
    have htop : topBitsAgree (s.withBitmem m) = topBitsAgree s := rfl
    cases hs : topBitsAgree s with
    | false => rw [renormDec_stop hs, renormDec_stop (htop.trans hs)]; exact ⟨rfl, h⟩
    | true =>
      rw [renormDec_go hs, renormDec_go (htop.trans hs), h.bits]
      exact ih (h.congr rfl rfl)

theorem decInit_withBitmem (h : BitsAgree m n s) : decInit (s.withBitmem m) = (decInit s).withBitmem m := by
  simp only [decInit, funext h.bits]
  rfl

theorem narrow_withBitmem (h : BitsAgree m n s) (i k : Nat) :
    Lockstep (BitTwins m n) (narrow i k s) (narrow i k (s.withBitmem m)) := by
  unfold narrow
  exact Lockstep.ite (fun _ => .error _) fun _ => .ok ⟨rfl, h.congr rfl rfl⟩

theorem decodeSymbol_withBitmem (h : BitsAgree m n s) (k : Nat) :
    Lockstep (BitTwins m n) (decodeSymbol k s) (decodeSymbol k (s.withBitmem m)) := by
  refine (Lockstep.of_eq (y := decSelect k (s.withBitmem m)) rfl).bind fun i j hij => ?_
  subst hij
  refine (narrow_withBitmem h i k).bind fun t u ⟨hu, ht⟩ => ?_
  subst hu
  obtain ⟨hu', ht'⟩ := renormDec_withBitmem (s := memWrite t .symmem k (memRead t .msym i)) (ht.congr rfl rfl) 32
  exact .ok ⟨congrArg (State.setSidx · _) hu', ht'.congr rfl rfl⟩

theorem rcDecBody_withBitmem (h : BitsAgree m n s) :
    Lockstep (BitTwins m n) (rcDecBody s) (rcDecBody (s.withBitmem m)) := by
  have hstart : BitsAgree m n (startBounds s) := h.congr rfl rfl
  have hinit : decInit (startBounds (s.withBitmem m)) = (decInit (startBounds s)).withBitmem m :=
    decInit_withBitmem hstart
  have h0 : BitTwins m n (decInit (startBounds s)) ((decInit (startBounds s)).withBitmem m) :=
    ⟨rfl, hstart.congr rfl rfl⟩
  refine (Lockstep.of_eq (y := checkSymcnt (s.withBitmem m)) rfl).bind fun _ _ _ => ?_
  refine (Lockstep.of_eq (y := checkBitlen (s.withBitmem m)) rfl).bind fun _ _ _ => ?_
  simp only [hinit]
  refine Lockstep.ite (fun _ => .ok h0) fun _ => ?_
  refine (Lockstep.of_eq (y := checkModel ((decInit (startBounds s)).withBitmem m)) rfl).bind fun _ _ _ => ?_
  refine Lockstep.forLoop h0 fun k t u _ ⟨hu, ht⟩ => ?_
  subst hu
  exact decodeSymbol_withBitmem ht k

/-! ### `BP_DEC` -/

/-- The same with the match buffer, which is the same in both runs (R38). -/
abbrev BitBufferTwins (m : Memory 8) (n : Nat) (x y : State × List Bool) : Prop := BitTwins m n x.1 y.1 ∧ y.2 = x.2

theorem unpackBit_withBitmem (h : BitsAgree m n s) (p : Nat) (buf : List Bool) :
    Lockstep (BitBufferTwins m n) (unpackBit p (s, buf)) (unpackBit p (s.withBitmem m, buf)) := by
  have hmatch (q : List Bool) : codeMatch ((s.withBitmem m).setBptr (BitVec.ofNat 32 (p + 1))) q =
      codeMatch (s.setBptr (BitVec.ofNat 32 (p + 1))) q := rfl
  simp only [unpackBit, h.bits, hmatch]
  cases codeMatch (s.setBptr (BitVec.ofNat 32 (p + 1))) (buf ++ [getbit s p]) with
  | none => exact .ok ⟨⟨rfl, h.congr rfl rfl⟩, rfl⟩
  | some j => exact Lockstep.ite (fun _ => .error _) fun _ => .ok ⟨⟨rfl, h.congr rfl rfl⟩, rfl⟩

theorem bpDecBody_withBitmem (h : BitsAgree m n s) :
    Lockstep (BitTwins m n) (bpDecBody s) (bpDecBody (s.withBitmem m)) := by
  have hstart : BitBufferTwins m n ((s.setSidx 0).setBptr 0, []) (((s.setSidx 0).setBptr 0).withBitmem m, []) :=
    ⟨⟨rfl, h.congr rfl rfl⟩, rfl⟩
  refine (Lockstep.of_eq (y := checkBitlen (s.withBitmem m)) rfl).bind fun _ _ _ => ?_
  refine (Lockstep.of_eq (y := checkTable (((s.setSidx 0).setBptr 0).withBitmem m)) rfl).bind fun _ _ _ => ?_
  refine (Lockstep.forLoop hstart fun p ⟨t, buf⟩ ⟨u, buf'⟩ _ ⟨⟨hu, ht⟩, hbuf⟩ => ?_).bind
    fun ⟨t, buf⟩ ⟨u, buf'⟩ ⟨⟨hu, ht⟩, hbuf⟩ => ?_
  · dsimp only at hu hbuf
    subst hu hbuf
    exact unpackBit_withBitmem ht p buf'
  · dsimp only at hu hbuf
    subst hu hbuf
    exact .ok ⟨rfl, ht.congr rfl rfl⟩

/-! ### `BS_PACK` -/

/-- Bit `j` of byte `b` lies at position `8 b + 7 - j` of the sequence (R65): below `BITLEN` the bytes agree. -/
theorem BitsAgree.byte_bit (h : BitsAgree m n s) {b j : Nat} (hj : j < 8) (hp : 8 * b + (7 - j) < n) :
    (memRead (s.withBitmem m) .bitmem b).getLsbD j = (memRead s .bitmem b).getLsbD j := by
  have hbit := h.bits (8 * b + (7 - j))
  have hlt : 8 * b + (7 - j) < s.regs.bitlen.toNat := h.len ▸ hp
  have hlt' : 8 * b + (7 - j) < (s.withBitmem m).regs.bitlen.toNat := hlt
  have hb : (8 * b + (7 - j)) / 8 = b := by omega
  have hj' : 7 - (8 * b + (7 - j)) % 8 = j := by omega
  simpa only [getbit, if_pos hlt, if_pos hlt', hb, hj'] using hbit

/-- Two bytes with the same bits from bit `d` on are the same above it. -/
theorem byte_div_eq_of_getLsbD {x y : Word} {d : Nat} (hx : x.toNat < 2 ^ 8) (hy : y.toNat < 2 ^ 8)
    (h : ∀ j, d ≤ j → j < 8 → x.getLsbD j = y.getLsbD j) : x.toNat / 2 ^ d = y.toNat / 2 ^ d := by
  refine Nat.eq_of_testBit_eq fun j => ?_
  rw [Nat.testBit_div_two_pow, Nat.testBit_div_two_pow]
  rcases Nat.lt_or_ge (j + d) 8 with hj | hj
  · exact h _ (Nat.le_add_left _ _) hj
  · have hhigh {z : Nat} (hz : z < 2 ^ 8) : z.testBit (j + d) = false :=
      Nat.testBit_lt_two_pow (Nat.lt_of_lt_of_le hz (Nat.pow_le_pow_right (by decide) hj))
    rw [hhigh hx, hhigh hy]

/-- What is packed of a byte of the sequence agrees: the last byte is cut at `BITLEN`, every other lies below it
(R125). -/
theorem packByte_withBitmem (h : BitsAgree m n s) {b : Nat} (hb : b < bytesOf n) :
    Lockstep (BitTwins m n) (packByte (bytesOf n) (n % 8) b s) (packByte (bytesOf n) (n % 8) b (s.withBitmem m)) := by
  have hsame (d : Nat) (hd : ∀ j, d ≤ j → j < 8 → 8 * b + (7 - j) < n) :
      (memRead (s.withBitmem m) .bitmem b).toNat / 2 ^ d = (memRead s .bitmem b).toNat / 2 ^ d :=
    byte_div_eq_of_getLsbD (memRead_bitmem_lt _ b) (memRead_bitmem_lt s b) fun j hdj hj => h.byte_bit hj (hd j hdj hj)
  unfold bytesOf at hb
  simp only [packByte]
  split
  · rename_i hlast
    unfold bytesOf at hlast
    have hclear : clearPad (memRead (s.withBitmem m) .bitmem b) (n % 8) = clearPad (memRead s .bitmem b) (n % 8) := by
      simp only [clearPad, hsame (8 - n % 8) fun j hdj hj => by omega]
    rw [hclear]
    exact .ok ⟨rfl, h.congr rfl rfl⟩
  · rename_i hfull
    unfold bytesOf at hfull
    have hbyte : memRead (s.withBitmem m) .bitmem b = memRead s .bitmem b :=
      BitVec.eq_of_toNat_eq (by simpa using hsame 0 fun j _ hj => by omega)
    rw [hbyte]
    exact .ok ⟨rfl, h.congr rfl rfl⟩

theorem bsPackBody_withBitmem (h : BitsAgree m n s) :
    Lockstep (BitTwins m n) (bsPackBody s) (bsPackBody (s.withBitmem m)) := by
  obtain rfl := h.len
  have hstart : BitTwins m s.regs.bitlen.toNat
      (memWrite s .filemem 0 (trunc32 ((8 - s.regs.bitlen.toNat % 8) % 8)))
      ((memWrite s .filemem 0 (trunc32 ((8 - s.regs.bitlen.toNat % 8) % 8))).withBitmem m) := ⟨rfl, h.congr rfl rfl⟩
  refine (Lockstep.of_eq (y := checkBitlen (s.withBitmem m)) rfl).bind fun _ _ _ => ?_
  refine Lockstep.ite (fun _ => .error _) fun _ => ?_
  refine (Lockstep.forLoop hstart fun b t u hb ⟨hu, ht⟩ => ?_).bind fun t u ⟨hu, ht⟩ => ?_
  · subst hu
    exact packByte_withBitmem ht (by rwa [Nat.zero_add] at hb)
  · subst hu
    exact .ok ⟨rfl, ht.congr rfl rfl⟩

end

/-- A command answers the same on both bit memories, when its body and its fault do. -/
theorem exec_withBitmem {m : Memory 8} {n : Nat} {s : State} {i : Instr} {body : State → Except Raise State}
    {spoil : State → State} (hx : ∀ t, exec i t = .next (runCommand body spoil t))
    (hsp : ∀ t : State, spoil (t.withBitmem m) = (spoil t).withBitmem m)
    (hb : Lockstep (BitTwins m n) (body (s.setDone false)) (body ((s.setDone false).withBitmem m))) :
    ∃ t, exec i s = .next t ∧ exec i (s.withBitmem m) = .next (t.withBitmem m) := by
  refine ⟨_, hx s, (hx _).trans (congrArg _ ?_)⟩
  exact runCommand_commutes (f := (State.withBitmem · m)) rfl (fun _ _ => rfl) (fun _ _ => rfl) hsp
    (hb.mono fun _ _ ⟨hu, _⟩ => hu)

/-- Settles O49: each of the three commands sees the bit sequence alone. -/
theorem bitsPastBitlenNeverMatter : Obligations.BitsPastBitlenNeverMatter := by
  intro s m i u hi hbits
  have h : BitsAgree m s.regs.bitlen.toNat (s.setDone false) := (BitsAgree.of_lt hbits).congr rfl rfl
  rcases hi with rfl | rfl | rfl
  · exact exec_withBitmem (fun _ => rfl) (fun _ => rfl) (rcDecBody_withBitmem h)
  · exact exec_withBitmem (fun _ => rfl) (fun _ => rfl) (bpDecBody_withBitmem h)
  · exact exec_withBitmem (fun _ => rfl) (fun _ => rfl) (bsPackBody_withBitmem h)

end Sys2Proof.Machine
end

section
/-! PROOFS. The decoder as an equivalence: a word decodes to a command exactly when it is the command's word, so that a
word of R64 decodes to none; and what the port does with such a word. -/

namespace Sys2Proof

/-! ### Fields of a command word (R60) -/

@[simp] theorem fieldsOf_word (f : FormatC) : fieldsOf f.word = f := by
  rw [fieldsOf, FormatC.word, BitVec.extractLsb'_append_eq_left, BitVec.extractLsb'_append_eq_right]

@[simp] theorem word_fieldsOf (w : Word) : (fieldsOf w).word = w :=
  BitVec.extractLsb'_append_extractLsb'

/-! ### Opcodes (R63) -/

theorem Instr.opcode_le (i : Instr) : i.opcode.toNat ≤ 0x07 := by
  cases i <;> decide

theorem ofOpcode_eq_some_iff {op : BitVec 8} {i : Instr} : ofOpcode op = some i ↔ op = i.opcode := by
  constructor
  · intro h
    apply BitVec.eq_of_toNat_eq
    unfold ofOpcode at h
    split at h <;> cases h <;> assumption
  · rintro rfl
    cases i <;> rfl

/-! ### The decoder (R63, R64) -/

theorem fieldsOf_encode (i : Instr) : fieldsOf (encode i) = { rsv := 0#24, op := i.opcode } :=
  fieldsOf_word _

theorem eq_encode_iff {w : Word} {i : Instr} :
    w = encode i ↔ (fieldsOf w).rsv = 0#24 ∧ (fieldsOf w).op = i.opcode := by
  constructor
  · rintro rfl
    simp [fieldsOf_encode]
  · rintro ⟨hrsv, hop⟩
    rw [encode, ← hrsv, ← hop, word_fieldsOf]

theorem decode_eq_ok_iff (w : Word) (i : Instr) : decode w = .ok i ↔ w = encode i := by
  rw [eq_encode_iff, ← ofOpcode_eq_some_iff]
  by_cases hrsv : (fieldsOf w).rsv = 0#24
  · cases hop : ofOpcode (fieldsOf w).op <;> simp [decode, FormatC.reservedOk, hrsv, hop]
  · simp [decode, FormatC.reservedOk, hrsv]

/-- A word with a non-zero reserved field or an opcode above 0x07 is no command (R64). -/
theorem decode_illegal {w : Word} (h : w.extractLsb' 8 24 ≠ 0 ∨ 0x07 < (w.extractLsb' 0 8).toNat) :
    ∃ e, decode w = .error e := by
  cases hd : decode w with
  | error e => exact ⟨e, rfl⟩
  | ok i =>
    obtain ⟨hrsv, hop⟩ := eq_encode_iff.1 ((decode_eq_ok_iff w i).1 hd)
    rcases h with h | h
    · exact absurd hrsv h
    · have hle := hop ▸ i.opcode_le
      exact absurd h (Nat.not_lt.2 hle)

/-! ### The obligations -/

/-- Settles O1: the words of R63 are those of `encode`. -/
theorem decodeAcceptsExactlyTheOpcodeMap : Obligations.DecodeAcceptsExactlyTheOpcodeMap := fun w =>
  ⟨decode_eq_ok_iff w .nop, decode_eq_ok_iff w .rcEnc, decode_eq_ok_iff w .rcDec, decode_eq_ok_iff w .bpEnc,
    decode_eq_ok_iff w .bpDec, decode_eq_ok_iff w .bsPack, decode_eq_ok_iff w .bsUnpack, decode_eq_ok_iff w .sreset⟩

/-- Settles O2. -/
theorem encodedCommandsDecodeBack : Obligations.EncodedCommandsDecodeBack := fun i =>
  ⟨by cases i <;> rfl, (decode_eq_ok_iff _ i).2 rfl⟩

/-- Settles O3, six closed words. -/
theorem spelledWordsDecode : Obligations.SpelledWordsDecode := by
  unfold Obligations.SpelledWordsDecode
  decide

end Sys2Proof

namespace Sys2Proof.Machine

/-! ### Illegal words at the port (R64, R135) -/

theorem illegalCommand_raises {s : State} (h : s.regs.fault = false) (w : Word) :
    illegalCommand w s = faultEntry { cause := .illegalCmd, info := w } (s.setDone false) :=
  runCommand_raises h rfl

/-- Settles O4: the word decodes to no command, and dispatch raises on it or ignores it. -/
theorem illegalWordsRaiseIllegalCmd : Obligations.IllegalWordsRaiseIllegalCmd := by
  intro s w rest hs hw
  obtain ⟨e, he⟩ := decode_illegal hw
  have hstep := step_illegal hs (commandWord_write_cmd s.cfg w) he
  constructor
  · intro hf
    rw [hstep, illegalCommand_raises (s := { s with host := rest }) hf]
    rfl
  · intro hf
    rw [hstep, illegalCommand, runCommand_ignored (s := { s with host := rest }) hf]
    rfl

end Sys2Proof.Machine
end

section
/-! PROOFS. The two encoders write the bit memory through `emit` alone, so they keep every property of the bit sequence
that `emit` keeps; and from it that they leave the pad bits 0. -/

namespace Sys2Proof.Machine

/-! ### What the encoders keep -/

/-- A property of the bit memory and `BITLEN` that appending a bit keeps (R53). -/
structure EmitStable (I : State → Prop) : Prop where
  regs {s : State} {r : Regs} : I s → r.bitlen = s.regs.bitlen → I { s with regs := r }
  emit {s : State} (b : Bool) : I s → Yields I (emit b s)

section
variable {I : State → Prop} (hI : EmitStable I) {s : State}
include hI

theorem EmitStable.narrow (h : I s) (i k : Nat) : Yields I (narrow i k s) := by
  rcases narrow_cases i k s with ⟨_, he⟩ | ⟨_, he⟩ <;> rw [he]
  · exact .error (by decide)
  · exact .ok (hI.regs h rfl)

theorem EmitStable.renormEnc (h : I s) (n : Nat) : Yields I (renormEnc n s) := by
  induction n generalizing s with
  | zero => exact .ok h
  | succ n ih =>
    cases htop : topBitsAgree s with
    | false => rw [renormEnc_stop htop]; exact .ok h
    | true => rw [renormEnc_go htop]; exact (hI.emit _ h).bind fun _ ht => ih (hI.regs ht rfl)

theorem EmitStable.flush (h : I s) : Yields I (flush s) :=
  Yields.forLoop h fun k t _ _ ht => by
    rw [flushBit_eq_bind]
    exact (hI.emit _ ht).bind fun _ hu => .ok (hI.regs hu rfl)

theorem EmitStable.encodeSymbol (h : I s) (k : Nat) : Yields I (encodeSymbol k s) :=
  (lookupModel_yields _ k s).bind fun i _ => (hI.narrow h i k).bind fun _ h1 =>
    (hI.renormEnc h1 32).bind fun _ h2 => .ok (hI.regs h2 rfl)

/-- `RC_ENC` keeps the property from the empty bit sequence on (R90). -/
theorem EmitStable.rcEncBody (h : I (s.setBitlen 0)) : Yields I (rcEncBody s) := by
  have h0 : I ((startBounds s).setBitlen 0) := hI.regs (s := s.setBitlen 0) h rfl
  refine (checkSymcnt_yields s).bind fun _ _ => ?_
  dsimp only
  split
  · exact .ok h0
  · refine (checkModel_yields _).bind fun _ _ => ?_
    exact (Yields.forLoop h0 fun k t _ _ ht => hI.encodeSymbol ht k).bind fun _ hu => hI.flush hu

theorem EmitStable.packSymbol (h : I s) (k : Nat) : Yields I (packSymbol k s) := by
  unfold Machine.packSymbol
  split
  · exact .error (by decide)
  · exact (Yields.forLoop h fun _ _ _ _ ht => hI.emit _ ht).bind fun _ hu => .ok (hI.regs hu rfl)

/-- `BP_ENC` keeps the property from the empty bit sequence on (R111). -/
theorem EmitStable.bpEncBody (h : I (s.setBitlen 0)) : Yields I (bpEncBody s) := by
  have h0 : I ((s.setSidx 0).setBitlen 0) := hI.regs (s := s.setBitlen 0) h rfl
  exact (checkSymcnt_yields s).bind fun _ _ => (checkTable_yields _).bind fun _ _ =>
    Yields.forLoop h0 fun k _ _ _ ht => hI.packSymbol ht k

/-- A command that shows completion ran its body to the end, so it has what the body keeps (R135). -/
theorem EmitStable.of_completed {body : State → Except Raise State} {spoil : State → State}
    (hb : Yields I (body (s.setDone false))) (hf : s.regs.fault = false) (hc : Completed (runCommand body spoil s)) :
    I (runCommand body spoil s) := by
  rcases runCommand_cases body spoil s with ⟨hfault, _⟩ | ⟨_, t, ht, he⟩ | ⟨_, r, _, he⟩
  · exact absurd (hf.symm.trans hfault) (by decide)
  · rw [he]
    exact hI.regs (hb.of_ok ht) rfl
  · obtain ⟨_, hno⟩ := he ▸ hc
    exact absurd hno (by simp)

end

/-! ### Pad bits (R53, R65) -/

/-- Bit `7 - p % 8` of byte `p / 8` of the bit memory, whether or not it belongs to the bit sequence (R35, R65). -/
def storedBit (s : State) (p : Nat) : Bool := (memRead s .bitmem (p / 8)).getLsbD (7 - p % 8)

/-- The bits after the last valid one, to the end of its byte, are 0; the bit memory is small enough that `BITLEN` does
not wrap (R5). -/
structure PadsZero (s : State) : Prop where
  bound : s.cfg.bMax ≤ 2 ^ 19
  zero (p : Nat) : s.regs.bitlen.toNat ≤ p → p < 8 * ((s.regs.bitlen.toNat + 7) / 8) → storedBit s p = false

theorem PadsZero.of_empty {s : State} (hc : s.cfg.Ok) : PadsZero (s.setBitlen 0) where
  bound := by
    obtain ⟨_, _, _, _, _, ⟨_, hb⟩, _⟩ := hc
    exact hb
  zero p _ hp := by simp at hp

/-- The new bit opens a byte, whose other bits are then 0, or takes the place of the first pad bit (R53). -/
theorem PadsZero.emit {s : State} (h : PadsZero s) (b : Bool) : Yields PadsZero (emit b s) := by
  rcases emit_cases b s with ⟨_, he⟩ | ⟨hroom, t, he, hregs, _, hcfg, _, _, _, hbyte, _⟩ <;> rw [he]
  · exact .error (by decide)
  have hbound := h.bound
  have hlen : t.regs.bitlen.toNat = s.regs.bitlen.toNat + 1 := (emit_getbit he (by omega)).1
  refine .ok ⟨hcfg ▸ hbound, fun p hge hlt => ?_⟩
  rw [hlen] at hge hlt
  have hdiv : p / 8 = s.regs.bitlen.toNat / 8 := by omega
  have hne : 7 - p % 8 ≠ 7 - s.regs.bitlen.toNat % 8 := by omega
  rw [storedBit, hdiv, hbyte, putBit_bit _ _ (Nat.mod_lt _ (by decide)) (by omega), if_neg hne]
  split
  · rfl
  · rw [← hdiv]
    exact h.zero p (by omega) (by omega)

theorem PadsZero.stable : EmitStable PadsZero where
  regs h hr := ⟨h.bound, fun p hge hlt => h.zero p (hr ▸ hge) (hr ▸ hlt)⟩
  emit b h := h.emit b

/-- Settles O48: both encoders start from no bits, and append bits only. -/
theorem enginePadBitsAreZero : Obligations.EnginePadBitsAreZero := by
  intro s t i hc hf hi ht hdone
  have h0 : PadsZero ((s.setDone false).setBitlen 0) := .of_empty hc
  have hpads : PadsZero t := by
    rcases hi with rfl | rfl <;> cases ht
    · exact PadsZero.stable.of_completed (PadsZero.stable.rcEncBody h0) hf hdone
    · exact PadsZero.stable.of_completed (PadsZero.stable.bpEncBody h0) hf hdone
  exact hpads.zero

end Sys2Proof.Machine
end

section
/-! PROOFS. Interval coding on exact numbers: what bit sequences and windows spell, how an interval is doubled and
narrowed, and which windows lie in it (R80 to R83, R85, R86, R93 to R95). Nothing here speaks of a state. -/

namespace Sys2Proof.Machine

/-! ### The number a bit sequence spells -/

theorem val_cons (b : Bool) (q : List Bool) : val (b :: q) = 2 ^ q.length * b.toNat + val q := by
  induction q using List.reverseRecOn with
  | nil => simp [val]
  | append_singleton q c ih =>
    rw [← List.cons_append, val_append_one, val_append_one, ih, List.length_append, List.length_singleton, Nat.pow_succ]
    ring

theorem val_natBits (w n : Nat) : val (natBits w n) = n % 2 ^ w := val_testBits n w

/-- The bits of the number a sequence spells are the sequence. -/
theorem natBits_val {q : List Bool} {w : Nat} (h : q.length = w) : natBits w (val q) = q := by
  refine val_injective (by simp [h]) ?_
  rw [val_natBits, Nat.mod_eq_of_lt (h ▸ val_lt q)]

theorem natBits_zero (w : Nat) : natBits w 0 = List.replicate w false := by
  simp [natBits, List.map_const']

/-! ### Windows on a sequence followed by zeros (R93, R95) -/

theorem windowAt_lt (q : List Bool) (n : Nat) : windowAt q n < 2 ^ 32 := by
  have := val_lt ((List.range 32).map fun p => q.getD (n + p) false)
  rwa [List.length_map, List.length_range] at this

/-- Shifting the window by one bit: the first bit leaves and the bit after the window enters. -/
theorem windowAt_succ (q : List Bool) (n : Nat) :
    2 * windowAt q n + (q.getD (n + 32) false).toNat =
      2 ^ 32 * (q.getD n false).toNat + windowAt q (n + 1) := by
  have hlast : val ((List.range 33).map fun p => q.getD (n + p) false) =
      2 * windowAt q n + (q.getD (n + 32) false).toNat := by
    rw [List.range_succ, List.map_append, List.map_singleton, val_append_one]
    rfl
  have hfirst : val ((List.range 33).map fun p => q.getD (n + p) false) =
      2 ^ 32 * (q.getD n false).toNat + windowAt q (n + 1) := by
    rw [List.range_succ_eq_map, List.map_cons, val_cons, List.map_map, List.length_map, List.length_range, Nat.add_zero]
    simp only [Function.comp_def, Nat.succ_eq_add_one, windowAt, Nat.add_assoc, Nat.add_comm 1]
  rw [← hlast, hfirst]

/-- The window on a sequence that goes on with the 32 bits of `x`. -/
theorem windowAt_natBits {q : List Bool} {n x : Nat} (hx : x < 2 ^ 32) (h : natBits 32 x <+: q.drop n) :
    windowAt q n = x := by
  have hbits : (List.range 32).map (fun p => q.getD (n + p) false) = natBits 32 x := by
    obtain ⟨rest, hrest⟩ := h
    refine List.ext_getElem (by simp) fun p hp _ => ?_
    have hp : p < 32 := by simpa using hp
    have hp' : p < (natBits 32 x).length := by simpa using hp
    have hget : q[n + p]? = some (natBits 32 x)[p] := by
      rw [← List.getElem?_drop, ← hrest, List.getElem?_append_left hp', List.getElem?_eq_getElem hp']
    simp [hget]
  rw [windowAt, hbits, val_natBits, Nat.mod_eq_of_lt hx]

/-! ### Intervals -/

/-- The bounds are in order and fit 32 bits (R81). -/
abbrev InOrder (b : Nat × Nat) : Prop := b.1 ≤ b.2 ∧ b.2 < 2 ^ 32

/-- The interval lies in one half of the range, so that it is doubled (R86). -/
abbrev OneHalf (b : Nat × Nat) : Prop := b.2 < 2 ^ 31 ∨ 2 ^ 31 ≤ b.1

/-- The number lies in the interval. -/
abbrev Holds (b : Nat × Nat) (w : Nat) : Prop := b.1 ≤ w ∧ w ≤ b.2

/-- The interval after one shift of both bounds (R86, R95). -/
def doubled (b : Nat × Nat) : Nat × Nat := (2 * b.1 % 2 ^ 32, 2 * b.2 % 2 ^ 32 + 1)

/-- The bounds at the start of a range command (R90, R96). -/
theorem inOrder_start : InOrder (0, 2 ^ 32 - 1) := by decide

theorem inOrder_doubled {b : Nat × Nat} (h : InOrder b) (hb : OneHalf b) : InOrder (doubled b) := by
  simp only [doubled, InOrder, OneHalf] at *
  omega

/-! ### Doubling (R86) -/

theorem refRenorm_stop {n : Nat} {b : Nat × Nat} (h : ¬ OneHalf b) : refRenorm n b = ([], b) := by
  cases n with
  | zero => rfl
  | succ n =>
    obtain ⟨hhi, hlo⟩ := not_or.1 h
    simp only [refRenorm, hhi, hlo, if_false]

theorem refRenorm_go {n : Nat} {b : Nat × Nat} (h : InOrder b) (hb : OneHalf b) :
    refRenorm (n + 1) b =
      (decide (2 ^ 31 ≤ b.1) :: (refRenorm n (doubled b)).1, (refRenorm n (doubled b)).2) := by
  obtain ⟨lo, hi⟩ := b
  simp only [InOrder, OneHalf] at h hb
  by_cases hhi : hi < 2 ^ 31
  · have hd : doubled (lo, hi) = (2 * lo, 2 * hi + 1) := by simp only [doubled, Prod.mk.injEq]; omega
    have hlo : ¬ 2 ^ 31 ≤ lo := by omega
    simp only [refRenorm, hhi, if_true, hd, hlo, decide_false]
  · have hlo : 2 ^ 31 ≤ lo := by omega
    have hd : doubled (lo, hi) = (2 * (lo - 2 ^ 31), 2 * (hi - 2 ^ 31) + 1) := by
      simp only [doubled, Prod.mk.injEq]; omega
    simp only [refRenorm, hhi, hlo, if_true, if_false, hd, decide_true]

/-- Induction over the doublings of an interval: it is not doubled, or it lies in one half and is doubled. -/
theorem refRenorm_induction {P : Nat → Nat × Nat → List Bool × (Nat × Nat) → Prop}
    (stop : ∀ n b, InOrder b → n = 0 ∨ ¬ OneHalf b → P n b ([], b))
    (go : ∀ n b bits last, InOrder b → OneHalf b → P n (doubled b) (bits, last) →
      P (n + 1) b (decide (2 ^ 31 ≤ b.1) :: bits, last))
    (n : Nat) {b : Nat × Nat} (h : InOrder b) : P n b (refRenorm n b) := by
  induction n generalizing b with
  | zero => exact stop 0 b h (.inl rfl)
  | succ n ih =>
    by_cases hb : OneHalf b
    · rw [refRenorm_go h hb]
      exact go n b _ _ h hb (ih (inOrder_doubled h hb))
    · rw [refRenorm_stop hb]
      exact stop _ b h (.inr hb)

/-- The bits that leave are no more than the doublings allowed (R87). -/
theorem refRenorm_length_le (n : Nat) {b : Nat × Nat} (h : InOrder b) : (refRenorm n b).1.length ≤ n := by
  refine refRenorm_induction (P := fun n _ r => r.1.length ≤ n) ?_ ?_ n h
  · exact fun n b _ _ => Nat.zero_le n
  · exact fun n b bits last _ _ ih => Nat.succ_le_succ ih

theorem inOrder_refRenorm (n : Nat) {b : Nat × Nat} (h : InOrder b) : InOrder (refRenorm n b).2 :=
  refRenorm_induction (P := fun _ _ r => InOrder r.2) (fun _ _ h _ => h) (fun _ _ _ _ _ _ ih => ih) n h

/-- A window that lies in an interval lies, once the bits that leave are shifted out, in the interval after the
doublings. -/
theorem Holds.refRenorm {q : List Bool} {b : Nat × Nat} {n : Nat} (k : Nat) (h : InOrder b)
    (hw : Holds b (windowAt q n)) :
    Holds (refRenorm k b).2 (windowAt q (n + (refRenorm k b).1.length)) := by
  refine refRenorm_induction
    (P := fun _ b r => ∀ n, Holds b (windowAt q n) → Holds r.2 (windowAt q (n + r.1.length))) ?_ ?_ k h n hw
  · exact fun _ _ _ _ _ hw => hw
  · intro k b bits last h hb ih n hw
    rw [List.length_cons, Nat.add_comm bits.length 1, ← Nat.add_assoc]
    refine ih (n + 1) ?_
    have hshift := windowAt_succ q n
    have hlt := windowAt_lt q (n + 1)
    have hin := Bool.toNat_le (q.getD (n + 32) false)
    have hout := Bool.toNat_le (q.getD n false)
    simp only [doubled, Holds, InOrder, OneHalf] at *
    omega

/-- The same the other way round, on a sequence that has the bits that leave before the later window. -/
theorem Holds.of_refRenorm {q : List Bool} {b : Nat × Nat} {n : Nat} (k : Nat) (h : InOrder b)
    (hbits : (Machine.refRenorm k b).1 <+: q.drop n)
    (hw : Holds (Machine.refRenorm k b).2 (windowAt q (n + (Machine.refRenorm k b).1.length))) :
    Holds b (windowAt q n) := by
  refine refRenorm_induction (P := fun _ b r => ∀ n, r.1 <+: q.drop n →
    Holds r.2 (windowAt q (n + r.1.length)) → Holds b (windowAt q n)) ?_ ?_ k h n hbits hw
  · exact fun _ _ _ _ _ _ hw => hw
  · intro k b bits last h hb ih n hbits hw
    rw [List.length_cons, Nat.add_comm bits.length 1, ← Nat.add_assoc] at hw
    obtain ⟨rest, hrest⟩ := hbits
    have hfirst : q.getD n false = decide (2 ^ 31 ≤ b.1) := by
      have : (q.drop n)[0]? = some (decide (2 ^ 31 ≤ b.1)) := by rw [← hrest]; rfl
      rw [List.getElem?_drop, Nat.add_zero] at this
      simp [List.getD, this]
    have hmore : bits <+: q.drop (n + 1) := ⟨rest, by rw [← List.drop_drop, ← hrest]; rfl⟩
    have hnext := ih (n + 1) hmore hw
    have hshift := windowAt_succ q n
    have hin := Bool.toNat_le (q.getD (n + 32) false)
    rw [hfirst] at hshift
    simp only [doubled, Holds, InOrder, OneHalf] at *
    rcases hb with hb | hb
    · rw [decide_eq_false (by omega), Bool.toNat_false] at hshift
      omega
    · rw [decide_eq_true hb, Bool.toNat_true] at hshift
      omega

/-! ### Narrowing (R85) -/

/-- The parts of `total` that the share covers: below `share.1 + share.2`, from `share.1` on. -/
abbrev InShare (share : Nat × Nat) (x : Nat) : Prop := share.1 ≤ x ∧ x < share.1 + share.2

/-- `scaled` of R94: the part of `total` that the window `w` points at in the interval `b`. -/
def refScaled (total w : Nat) (b : Nat × Nat) : Nat := ((w + 1 - b.1) * total - 1) / (b.2 + 1 - b.1)

theorem refNarrow_eq_some {total : Nat} {share b c : Nat × Nat} : refNarrow total share b = some c ↔
    (b.2 + 1 - b.1) * share.1 / total < (b.2 + 1 - b.1) * (share.1 + share.2) / total ∧
    c = (b.1 + (b.2 + 1 - b.1) * share.1 / total, b.1 + ((b.2 + 1 - b.1) * (share.1 + share.2) / total - 1)) := by
  unfold refNarrow
  dsimp only
  split
  · exact ⟨fun h => by simp at h, fun h => absurd h.1 (by omega)⟩
  · exact ⟨fun h => ⟨by omega, by simpa using h.symm⟩, fun h => by rw [h.2]⟩

theorem share_starts_le (total width : Nat) (share : Nat × Nat) :
    width * share.1 / total ≤ width * (share.1 + share.2) / total :=
  Nat.div_le_div_right (Nat.mul_le_mul_left _ (Nat.le_add_right _ _))

/-- A share that is not empty is taken. -/
theorem refNarrow_of_ne {total : Nat} {share b : Nat × Nat}
    (h : (b.2 + 1 - b.1) * (share.1 + share.2) / total ≠ (b.2 + 1 - b.1) * share.1 / total) :
    refNarrow total share b = some (b.1 + (b.2 + 1 - b.1) * share.1 / total,
      b.1 + ((b.2 + 1 - b.1) * (share.1 + share.2) / total - 1)) :=
  refNarrow_eq_some.2 ⟨Nat.lt_of_le_of_ne (share_starts_le total _ share) (Ne.symm h), rfl⟩

/-- A share inside `total` ends inside the interval (R85). -/
theorem width_mul_div_le {total x width : Nat} (h : x ≤ total) : width * x / total ≤ width :=
  Nat.div_le_of_le_mul (by rw [Nat.mul_comm total]; exact Nat.mul_le_mul_left _ h)

/-- The narrowed interval is in order and lies inside the old one (R85). -/
theorem refNarrow_inside {total : Nat} {share b c : Nat × Nat} (h : InOrder b) (hs : share.1 + share.2 ≤ total)
    (hc : refNarrow total share b = some c) : InOrder c ∧ b.1 ≤ c.1 ∧ c.2 ≤ b.2 := by
  obtain ⟨hlt, rfl⟩ := refNarrow_eq_some.1 hc
  have hle := width_mul_div_le (width := b.2 + 1 - b.1) hs
  generalize (b.2 + 1 - b.1) * share.1 / total = below, (b.2 + 1 - b.1) * (share.1 + share.2) / total = upto at *
  simp only [InOrder] at *
  omega

theorem refScaled_lt {total w : Nat} {b : Nat × Nat} (ht : 0 < total) (hw : Holds b w) :
    refScaled total w b < total := by
  have hd : w + 1 - b.1 ≤ b.2 + 1 - b.1 := by simp only [Holds] at hw; omega
  have hpos : 0 < b.2 + 1 - b.1 := by simp only [Holds] at hw; omega
  have hmul := Nat.mul_le_mul_right total hd
  have hprod := Nat.mul_pos hpos ht
  rw [refScaled, Nat.div_lt_iff_lt_mul hpos, Nat.mul_comm total]
  omega

/-- The share holds `scaled` exactly when the narrowed interval holds the window, and is then not empty (R94, R98). -/
theorem inShare_refScaled_iff {total w : Nat} {share b : Nat × Nat} (ht : 0 < total) (hw : Holds b w) :
    InShare share (refScaled total w b) ↔ ∃ c, refNarrow total share b = some c ∧ Holds c w := by
  obtain ⟨hlo, hhi⟩ := hw
  obtain ⟨d, rfl⟩ := Nat.exists_eq_add_of_le hlo
  have hpos : 0 < b.2 + 1 - b.1 := by omega
  have hd : b.1 + d + 1 - b.1 = d + 1 := by omega
  simp only [refNarrow_eq_some, InShare, refScaled, hd]
  generalize b.2 + 1 - b.1 = width at hpos ⊢
  have hprod : 0 < (d + 1) * total := Nat.mul_pos (Nat.succ_pos d) ht
  have hlow : share.1 ≤ ((d + 1) * total - 1) / width ↔ width * share.1 / total < d + 1 := by
    rw [Nat.le_div_iff_mul_le hpos, Nat.div_lt_iff_lt_mul ht, Nat.mul_comm share.1]
    omega
  have hupper : ((d + 1) * total - 1) / width < share.1 + share.2 ↔ d + 1 ≤ width * (share.1 + share.2) / total := by
    rw [Nat.div_lt_iff_lt_mul hpos, Nat.le_div_iff_mul_le ht, Nat.mul_comm (share.1 + share.2)]
    omega
  rw [hlow, hupper]
  generalize width * share.1 / total = below, width * (share.1 + share.2) / total = upto
  constructor
  · exact fun ⟨h1, h2⟩ => ⟨_, ⟨by omega, rfl⟩, by simp only; omega, by simp only; omega⟩
  · rintro ⟨c, ⟨h1, rfl⟩, h2, h3⟩
    simp only at h2 h3
    omega

/-! ### Coding shares (R90) -/

theorem refEncode_cons {total : Nat} {share b b1 : Nat × Nat} {rest : List (Nat × Nat)}
    (h : refNarrow total share b = some b1) :
    refEncode total (share :: rest) b =
      (refEncode total rest (refRenorm 32 b1).2).map fun r => ((refRenorm 32 b1).1 ++ r.1, r.2) := by
  simp only [refEncode, h]
  cases refEncode total rest (refRenorm 32 b1).2 <;> rfl

theorem refEncode_cons_eq_some {total : Nat} {share b last : Nat × Nat} {rest : List (Nat × Nat)} {bits : List Bool} :
    refEncode total (share :: rest) b = some (bits, last) ↔ ∃ b1 more, refNarrow total share b = some b1 ∧
      refEncode total rest (refRenorm 32 b1).2 = some (more, last) ∧ bits = (refRenorm 32 b1).1 ++ more := by
  cases h : refNarrow total share b with
  | none => simp [refEncode, h]
  | some b1 =>
    rw [refEncode_cons h]
    simp only [Option.map_eq_some_iff, Prod.mk.injEq, Option.some.injEq]
    constructor
    · rintro ⟨⟨more, _⟩, hr, rfl, rfl⟩
      exact ⟨b1, more, rfl, hr, rfl⟩
    · rintro ⟨_, more, rfl, hr, rfl⟩
      exact ⟨(more, last), hr, rfl, rfl⟩

/-- Coding one share more goes on from where the others ended. -/
theorem refEncode_append_one {total : Nat} {shares : List (Nat × Nat)} {share b last : Nat × Nat} {bits : List Bool}
    (h : refEncode total shares b = some (bits, last)) :
    refEncode total (shares ++ [share]) b =
      (refNarrow total share last).map fun b1 => (bits ++ (refRenorm 32 b1).1, (refRenorm 32 b1).2) := by
  induction shares generalizing b bits with
  | nil =>
    obtain ⟨rfl, rfl⟩ : [] = bits ∧ b = last := by simpa [refEncode] using h
    cases hn : refNarrow total share b <;> simp [refEncode, hn]
  | cons s rest ih =>
    obtain ⟨b1, more, h1, hr, rfl⟩ := refEncode_cons_eq_some.1 h
    rw [List.cons_append, refEncode_cons h1, ih hr, Option.map_map]
    simp [Function.comp_def]

/-- A symbol gives at most 32 bits (R87, R101), and the bounds stay in order. -/
theorem refEncode_bounds {total : Nat} {shares : List (Nat × Nat)} {b last : Nat × Nat} {bits : List Bool}
    (h : InOrder b) (hs : ∀ share ∈ shares, share.1 + share.2 ≤ total)
    (he : refEncode total shares b = some (bits, last)) : InOrder last ∧ bits.length ≤ 32 * shares.length := by
  induction shares generalizing b bits with
  | nil =>
    obtain ⟨rfl, rfl⟩ : [] = bits ∧ b = last := by simpa [refEncode] using he
    exact ⟨h, Nat.le_refl _⟩
  | cons s rest ih =>
    obtain ⟨b1, more, h1, hr, rfl⟩ := refEncode_cons_eq_some.1 he
    have hb1 := (refNarrow_inside h (hs s List.mem_cons_self) h1).1
    obtain ⟨hlast, hmore⟩ := ih (inOrder_refRenorm 32 hb1) (fun x hx => hs x (List.mem_cons_of_mem _ hx)) hr
    have := refRenorm_length_le 32 hb1
    rw [List.length_append, List.length_cons]
    exact ⟨hlast, by omega⟩

/-! ### Decoding (R94 to R96) -/

theorem refDecode_succ {total k i n : Nat} {shares : List (Nat × Nat)} {q : List Bool} {b b1 : Nat × Nat}
    (hi : shares.findIdx? (fun share => decide (share.1 ≤ refScaled total (windowAt q n) b) &&
      decide (refScaled total (windowAt q n) b < share.1 + share.2)) = some i)
    (hn : refNarrow total (shares.getD i (0, 0)) b = some b1) :
    refDecode total shares q (k + 1) b n =
      (refDecode total shares q k (refRenorm 32 b1).2 (n + (refRenorm 32 b1).1.length)).map
        fun r => (i :: r.1, r.2) := by
  rw [refScaled] at hi
  simp only [refDecode, hi, hn]
  cases refDecode total shares q k (refRenorm 32 b1).2 (n + (refRenorm 32 b1).1.length) <;> rfl

end Sys2Proof.Machine
end

section
/-! PROOFS. A valid model divides `TOTAL` among its entries, so that one entry holds each part (R31, R94, R98); what
`NARROW` and `DEC_SELECT` answer, in terms of exact intervals. -/

namespace Sys2Proof.Machine

/-! ### The shares of a valid model (R31) -/

/-- The share of entry `i` (R31). -/
def shareAt (s : State) (i : Nat) : Nat × Nat := (mcumAt s i, mfreqAt s i)

section
variable {s : State} (h : ModelOk s)
include h

theorem ModelOk.total_pos : 0 < s.regs.total.toNat := by
  obtain ⟨_, htotal, _⟩ := h
  omega

/-- A later share begins where an earlier one ends, or after it. -/
theorem ModelOk.shares_rise {i j : Nat} (hij : i < j) (hj : j < s.regs.mcount.toNat) :
    mcumAt s i + mfreqAt s i ≤ mcumAt s j := by
  obtain ⟨_, _, _, _, _, hsum, _⟩ := h
  induction j with
  | zero => omega
  | succ j ih =>
    have hnext := hsum j (by omega)
    rcases Nat.lt_or_ge i j with hlt | hge
    · have := ih hlt (by omega)
      omega
    · obtain rfl : i = j := by omega
      omega

theorem ModelOk.share_le_total {i : Nat} (hi : i < s.regs.mcount.toNat) :
    mcumAt s i + mfreqAt s i ≤ s.regs.total.toNat := by
  have hrise := h.shares_rise (i := i) (j := s.regs.mcount.toNat - 1)
  obtain ⟨_, _, _, _, _, _, hlast⟩ := h
  by_cases hlt : i = s.regs.mcount.toNat - 1
  · rw [hlt]; omega
  · have := hrise (by omega) (by omega)
    omega

/-- Each part of `TOTAL` lies in the share of some entry in use. -/
theorem ModelOk.exists_inShare {x : Nat} (hx : x < s.regs.total.toNat) :
    ∃ i < s.regs.mcount.toNat, InShare (shareAt s i) x := by
  obtain ⟨⟨hpos, _⟩, _, _, _, hzero, hsum, hlast⟩ := h
  have hupto (n : Nat) (hn : n < s.regs.mcount.toNat) (hxn : x < mcumAt s n + mfreqAt s n) :
      ∃ i < s.regs.mcount.toNat, InShare (shareAt s i) x := by
    induction n with
    | zero => exact ⟨0, hn, by simp only [shareAt]; omega, hxn⟩
    | succ n ih =>
      have hnext := hsum n (by omega)
      rcases Nat.lt_or_ge x (mcumAt s (n + 1)) with hlt | hge
      · exact ih (by omega) (by omega)
      · exact ⟨n + 1, hn, hge, hxn⟩
  exact hupto (s.regs.mcount.toNat - 1) (by omega) (by omega)

/-- No part lies in the shares of two entries. -/
theorem ModelOk.inShare_inj {i j x : Nat} (hi : i < s.regs.mcount.toNat) (hj : j < s.regs.mcount.toNat)
    (hxi : InShare (shareAt s i) x) (hxj : InShare (shareAt s j) x) : i = j := by
  simp only [InShare, shareAt] at hxi hxj
  rcases Nat.lt_trichotomy i j with hlt | heq | hgt
  · have := h.shares_rise hlt hj
    omega
  · exact heq
  · have := h.shares_rise hgt hi
    omega

/-- No symbol is that of two entries. -/
theorem ModelOk.msym_inj {i j : Nat} (hi : i < s.regs.mcount.toNat) (hj : j < s.regs.mcount.toNat)
    (hs : memRead s .msym i = memRead s .msym j) : i = j := by
  obtain ⟨_, _, _, hrise, _⟩ := h
  have hlt {a b : Nat} (hab : a < b) (hb : b < s.regs.mcount.toNat) : msymAt s a < msymAt s b := by
    induction b with
    | zero => omega
    | succ b ih =>
      have hnext := hrise b (by omega)
      rcases Nat.lt_or_ge a b with hlt | hge
      · exact (ih hlt (by omega)).trans hnext
      · obtain rfl : a = b := by omega
        exact hnext
  have heq : msymAt s i = msymAt s j := congrArg BitVec.toNat hs
  rcases Nat.lt_trichotomy i j with hij | hij | hij
  · have := hlt hij hj
    omega
  · exact hij
  · have := hlt hij hi
    omega

/-- The lookup of a symbol finds its one entry (R89). -/
theorem ModelOk.modelEntry_eq {i : Nat} {sym : Word} (hi : i < s.regs.mcount.toNat) (hs : memRead s .msym i = sym) :
    modelEntry s sym = some i := by
  cases he : modelEntry s sym with
  | none => exact absurd hs (modelEntry_none he hi)
  | some j =>
    obtain ⟨hj, hsj⟩ := modelEntry_some he
    rw [h.msym_inj hj hi (hsj.trans hs.symm)]

/-- The lookup of a part finds its one entry (R94). -/
theorem ModelOk.modelShare_eq {i x : Nat} (hi : i < s.regs.mcount.toNat) (hx : InShare (shareAt s i) x) :
    modelShare s x = some i := by
  cases he : modelShare s x with
  | none => exact absurd hx (modelShare_none he hi)
  | some j =>
    obtain ⟨hj, hxj⟩ := modelShare_some he
    rw [h.inShare_inj hj hi hxj hx]

/-- The list of the shares answers as the lookup does. -/
theorem ModelOk.findIdx_modelShares {i x : Nat} (hi : i < s.regs.mcount.toNat) (hx : InShare (shareAt s i) x) :
    (modelShares s).findIdx? (fun share => decide (share.1 ≤ x) && decide (x < share.1 + share.2)) = some i := by
  have hlen : (modelShares s).length = s.regs.mcount.toNat := by simp [modelShares]
  have hget (j : Nat) (hj : j < (modelShares s).length) : (modelShares s)[j] = shareAt s j := by
    simp [modelShares, shareAt]
  refine List.findIdx?_eq_some_iff_getElem.2 ⟨hlen ▸ hi, ?_, fun j hj => ?_⟩
  · rw [hget]
    simpa using hx
  · rw [hget]
    intro hxj
    have := h.inShare_inj (hj.trans hi) hi (by simpa using hxj) hx
    omega

end

theorem modelShares_getD {s : State} {i : Nat} (hi : i < s.regs.mcount.toNat) :
    (modelShares s).getD i (0, 0) = shareAt s i := by
  simp [modelShares, shareAt, hi]

/-! ### States with the same model -/

/-- The parameters, `MCOUNT`, `TOTAL` and the model entries in use are the same (R31). -/
structure SameModel (s t : State) : Prop where
  cfg : t.cfg = s.cfg
  mcount : t.regs.mcount = s.regs.mcount
  total : t.regs.total = s.regs.total
  msym : ∀ i < s.regs.mcount.toNat, memRead t .msym i = memRead s .msym i
  mfreq : ∀ i < s.regs.mcount.toNat, memRead t .mfreq i = memRead s .mfreq i
  mcum : ∀ i < s.regs.mcount.toNat, memRead t .mcum i = memRead s .mcum i

namespace SameModel
variable {s t : State} (h : SameModel s t)
include h

theorem symm : SameModel t s where
  cfg := h.cfg.symm
  mcount := h.mcount.symm
  total := h.total.symm
  msym i hi := (h.msym i (h.mcount ▸ hi)).symm
  mfreq i hi := (h.mfreq i (h.mcount ▸ hi)).symm
  mcum i hi := (h.mcum i (h.mcount ▸ hi)).symm

theorem modelOk (hm : ModelOk s) : ModelOk t := by
  have hu := modelOk_of_reads (u := { t with regs := s.regs }) h.cfg rfl h.msym h.mfreq h.mcum hm
  simp only [ModelOk, h.mcount, h.total]
  exact hu

theorem shareAt {i : Nat} (hi : i < s.regs.mcount.toNat) : shareAt t i = shareAt s i :=
  Prod.ext (congrArg BitVec.toNat (h.mcum i hi)) (congrArg BitVec.toNat (h.mfreq i hi))

theorem modelShares : modelShares t = modelShares s := by
  simp only [Machine.modelShares, h.mcount]
  exact List.map_congr_left fun i hi => h.shareAt (List.mem_range.1 hi)

end SameModel

/-! ### The bounds as an interval (R81) -/

/-- The interval of `LOW` and `HIGH`. -/
def bounds (s : State) : Nat × Nat := (s.regs.low.toNat, s.regs.high.toNat)

theorem inOrder_bounds {s : State} : InOrder (bounds s) ↔ s.regs.low.toNat ≤ s.regs.high.toNat :=
  ⟨fun h => h.1, fun h => ⟨h, s.regs.high.isLt⟩⟩

theorem bounds_setBounds {s : State} {b : Nat × Nat} (h : InOrder b) :
    bounds (s.setBounds (BitVec.ofNat 32 b.1) (BitVec.ofNat 32 b.2)) = b := by
  obtain ⟨hle, hlt⟩ := h
  simp only [bounds, setBounds_low, setBounds_high, BitVec.toNat_ofNat]
  rw [Nat.mod_eq_of_lt hlt, Nat.mod_eq_of_lt (hle.trans_lt hlt)]

theorem bounds_shiftBounds (s : State) : bounds (shiftBounds s) = doubled (bounds s) := by
  simp only [bounds, shiftBounds_low, shiftBounds_high, doubled]

theorem rangeOf_eq {s : State} (h : InOrder (bounds s)) : rangeOf s = (bounds s).2 + 1 - (bounds s).1 := by
  have hle : s.regs.low.toNat ≤ s.regs.high.toNat := h.1
  simp only [rangeOf, bounds]
  omega

/-- `NARROW` collapses when the share of the interval is empty (R85). -/
theorem narrow_collapses {s : State} {i : Nat} (k : Nat) (h : InOrder (bounds s))
    (hn : refNarrow s.regs.total.toNat (shareAt s i) (bounds s) = none) :
    narrow i k s = .error { cause := .rangeCollapse, info := BitVec.ofNat 32 k } := by
  rcases narrow_cases i k s with ⟨_, he⟩ | ⟨hne, _⟩
  · exact he
  · rw [rangeOf_eq h] at hne
    exact absurd (hn.symm.trans (refNarrow_of_ne (share := shareAt s i) hne)) (by simp)

/-- `NARROW` takes the share of the interval, when that share is inside `TOTAL`, and writes the bounds only (R85). -/
theorem narrow_takes {s : State} {i : Nat} {b : Nat × Nat} (k : Nat) (h : InOrder (bounds s))
    (hfit : mcumAt s i + mfreqAt s i ≤ s.regs.total.toNat)
    (hn : refNarrow s.regs.total.toNat (shareAt s i) (bounds s) = some b) :
    ∃ t, narrow i k s = .ok t ∧ bounds t = b ∧ t = s.setBounds t.regs.low t.regs.high := by
  refine ⟨_, ?_, bounds_setBounds (refNarrow_inside h hfit hn).1, rfl⟩
  obtain ⟨hlt, rfl⟩ := refNarrow_eq_some.1 hn
  simp only [shareAt, ← rangeOf_eq h] at hlt ⊢
  rcases narrow_cases i k s with ⟨heq, _⟩ | ⟨_, he⟩
  · exact absurd heq (Nat.ne_of_gt hlt)
  · rw [he, Nat.add_sub_assoc (Nat.lt_of_le_of_lt (Nat.zero_le _) hlt)]
    rfl

theorem scaledOf_eq {s : State} (h : InOrder (bounds s)) (hv : Holds (bounds s) s.regs.value.toNat) :
    scaledOf s = refScaled s.regs.total.toNat s.regs.value.toNat (bounds s) := by
  have hle : s.regs.low.toNat ≤ s.regs.value.toNat := hv.1
  have hd : s.regs.value.toNat - s.regs.low.toNat + 1 = s.regs.value.toNat + 1 - s.regs.low.toNat := by omega
  rw [scaledOf, refScaled, rangeOf_eq h, hd]
  rfl

/-- With `VALUE` in the bounds `DEC_SELECT` finds the one entry of a valid model whose share holds `scaled`
(R94, R98). -/
theorem decSelect_finds {s : State} (k : Nat) (hm : ModelOk s) (h : InOrder (bounds s))
    (hv : Holds (bounds s) s.regs.value.toNat) :
    ∃ i < s.regs.mcount.toNat, decSelect k s = .ok i ∧
      InShare (shareAt s i) (refScaled s.regs.total.toNat s.regs.value.toNat (bounds s)) := by
  obtain ⟨i, hi, hx⟩ := hm.exists_inShare (refScaled_lt hm.total_pos hv)
  refine ⟨i, hi, ?_, hx⟩
  obtain ⟨hlo, hhi⟩ := hv
  have hin : ¬ (s.regs.value.toNat < s.regs.low.toNat ∨ s.regs.high.toNat < s.regs.value.toNat) := by
    simp only [bounds] at hlo hhi
    omega
  rw [decSelect, if_neg hin, scaledOf_eq h ⟨hlo, hhi⟩, hm.modelShare_eq hi hx]

/-! ### The obligations -/

/-- Settles O25, by `NARROW` on exact intervals. -/
theorem narrowTakesTheShare : Obligations.NarrowTakesTheShare := by
  intro s i k hm hle hi
  dsimp only
  have hord : InOrder (bounds s) := inOrder_bounds.2 hle
  have hfit : (shareAt s i).1 + (shareAt s i).2 ≤ s.regs.total.toNat := hm.share_le_total hi
  have hwidth : s.regs.high.toNat - s.regs.low.toNat + 1 = (bounds s).2 + 1 - (bounds s).1 := rangeOf_eq hord
  have hmono := share_starts_le s.regs.total.toNat (s.regs.high.toNat - s.regs.low.toNat + 1) (shareAt s i)
  refine ⟨hmono, width_mul_div_le hfit, fun heq => ?_, fun hroom heq => ?_, fun hne => ?_⟩
  · rcases narrow_cases i k s with ⟨_, he⟩ | ⟨hne, _⟩
    · exact he
    · exact absurd heq hne
  · obtain ⟨_, _, hone, _⟩ := hm
    have hstep : (s.regs.high.toNat - s.regs.low.toNat + 1) * mcumAt s i + s.regs.total.toNat ≤
        (s.regs.high.toNat - s.regs.low.toNat + 1) * (mcumAt s i + mfreqAt s i) := by
      rw [Nat.mul_add]
      exact Nat.add_le_add_left (hroom.trans (Nat.le_mul_of_pos_right _ (hone i hi))) _
    have hdiv := Nat.div_le_div_right (c := s.regs.total.toNat) hstep
    rw [Nat.add_div_right _ (by omega), heq] at hdiv
    omega
  · rw [hwidth] at hne hmono ⊢
    have hn := refNarrow_of_ne (share := shareAt s i) hne
    obtain ⟨hord', hlow, hhigh⟩ := refNarrow_inside hord hfit hn
    obtain ⟨t, ht, hb, hframe⟩ := narrow_takes k hord hfit hn
    obtain ⟨hlo, hhi⟩ := Prod.mk.inj hb
    rw [← hb] at hord' hlow hhigh
    refine ⟨t, ht, hlo, ?_, hlow, hord'.1, hhigh, hframe⟩
    rw [hhi, Nat.add_assoc, Nat.sub_add_cancel]
    · rfl
    · exact Nat.lt_of_le_of_lt (Nat.zero_le _) (Nat.lt_of_le_of_ne hmono (Ne.symm hne))

/-- Settles O29: a valid model divides `TOTAL`, and `scaled` is below it. -/
theorem decSelectFindsTheOneEntry : Obligations.DecSelectFindsTheOneEntry := by
  intro s k hm hlo hhi
  have hord : InOrder (bounds s) := inOrder_bounds.2 (hlo.trans hhi)
  have hv : Holds (bounds s) s.regs.value.toNat := ⟨hlo, hhi⟩
  have hscaled : ((s.regs.value.toNat - s.regs.low.toNat + 1) * s.regs.total.toNat - 1) /
      (s.regs.high.toNat - s.regs.low.toNat + 1) = refScaled s.regs.total.toNat s.regs.value.toNat (bounds s) :=
    scaledOf_eq hord hv
  dsimp only
  rw [hscaled]
  obtain ⟨i, hi, hsel, hx⟩ := decSelect_finds k hm hord hv
  refine ⟨refScaled_lt hm.total_pos hv, i, hsel, hi, fun j hj => ⟨fun hxj => ?_, fun hji => hji ▸ hx⟩⟩
  exact hm.inShare_inj hj hi hxj hx

end Sys2Proof.Machine
end

section
/-! PROOFS. The renormalization loops on any register contents (R86, R87, R95): after `k` shifts the low `k` bits of
`LOW` are 0 and those of `HIGH` are 1, so that after 32 the top bits differ. -/

namespace Sys2Proof.Machine

/-! ### What the shifts leave in the low bits -/

/-- The low `k` bits of the lower bound are 0, and those of the upper bound are 1. -/
def Shifted (k : Nat) (b : Nat × Nat) : Prop := 2 ^ k ∣ b.1 ∧ 2 ^ k ∣ b.2 + 1

theorem shifted_zero (b : Nat × Nat) : Shifted 0 b := ⟨Nat.one_dvd _, Nat.one_dvd _⟩

theorem Shifted.doubled {k : Nat} {b : Nat × Nat} (h : Shifted k b) (hk : k < 32) : Shifted (k + 1) (doubled b) := by
  obtain ⟨hlo, hhi⟩ := h
  have hword : 2 ^ (k + 1) ∣ 2 ^ 32 := Nat.pow_dvd_pow 2 hk
  have htwice {x : Nat} (hx : 2 ^ k ∣ x) : 2 ^ (k + 1) ∣ 2 * x := by
    rw [Nat.pow_succ']
    exact Nat.mul_dvd_mul_left 2 hx
  refine ⟨(Nat.dvd_mod_iff hword).2 (htwice hlo), ?_⟩
  have hmod : (2 * b.2 % 2 ^ 32 + 1 + 1) + 2 ^ 32 * (2 * b.2 / 2 ^ 32) = 2 * (b.2 + 1) := by omega
  refine (Nat.dvd_add_iff_left (hword.mul_right (2 * b.2 / 2 ^ 32))).2 ?_
  simp only [Machine.doubled]
  rw [hmod]
  exact htwice hhi

theorem Shifted.shiftBounds {k : Nat} {s : State} (h : Shifted k (bounds s)) (hk : k < 32) :
    Shifted (k + 1) (bounds (shiftBounds s)) := bounds_shiftBounds s ▸ h.doubled hk

/-- After 32 shifts `LOW` is 0 and `HIGH` all ones. -/
theorem Shifted.all {s : State} (h : Shifted 32 (bounds s)) :
    s.regs.low.toNat = 0 ∧ s.regs.high.toNat + 1 = 2 ^ 32 := by
  obtain ⟨hlo, hhi⟩ := h
  have h1 := s.regs.low.isLt
  have h2 := s.regs.high.isLt
  simp only [bounds] at hlo hhi
  omega

theorem Shifted.topBitsDiffer {s : State} (h : Shifted 32 (bounds s)) : topBitsAgree s = false := by
  obtain ⟨hlo, hhi⟩ := h.all
  rw [← Bool.not_eq_true, topBitsAgree_iff]
  omega

/-- Bounds in order are doubled exactly while their top bits agree (R86). -/
theorem topBitsAgree_iff_oneHalf {s : State} (h : InOrder (bounds s)) : topBitsAgree s = true ↔ OneHalf (bounds s) := by
  rw [topBitsAgree_iff]
  simp only [bounds, InOrder, OneHalf] at *
  omega

theorem topBits_ne {s : State} (h : topBitsAgree s = false) : s.regs.low.getLsbD 31 ≠ s.regs.high.getLsbD 31 := by
  simpa [topBitsAgree] using h

/-- Where the loop stops, bounds in order lie on both sides of the middle of the range. -/
theorem straddles_of_topBits {s : State} (h : topBitsAgree s = false) (hord : InOrder (bounds s)) :
    s.regs.low.toNat < 2 ^ 31 ∧ 2 ^ 31 ≤ s.regs.high.toNat := by
  have := mt (topBitsAgree_iff_oneHalf hord).2 (by simp [h])
  simp only [OneHalf, bounds] at this
  omega

theorem inOrder_shiftBounds {s : State} (h : InOrder (bounds s)) (htop : topBitsAgree s = true) :
    InOrder (bounds (shiftBounds s)) :=
  bounds_shiftBounds s ▸ inOrder_doubled h ((topBitsAgree_iff_oneHalf h).1 htop)

theorem emit_bounds {b : Bool} {s t : State} (h : emit b s = .ok t) : bounds t = bounds s := by
  rcases emit_cases b s with ⟨_, he⟩ | ⟨_, u, he, hregs, _⟩
  · simp [he] at h
  · obtain rfl : u = t := by simpa [he] using h
    simp only [bounds, hregs]

/-! ### `RENORM_ENC` ends -/

/-- Iterations past those that the 32 bits allow are never made (R87). -/
theorem renormEnc_add {n k : Nat} (m : Nat) {s : State} (h : Shifted k (bounds s)) (hk : k + n = 32) :
    renormEnc (n + m) s = renormEnc n s := by
  induction n generalizing k s with
  | zero =>
    obtain rfl : k = 32 := hk
    rw [renormEnc_stop h.topBitsDiffer, renormEnc_stop h.topBitsDiffer]
  | succ n ih =>
    cases htop : topBitsAgree s with
    | false => rw [renormEnc_stop htop, renormEnc_stop htop]
    | true =>
      rw [Nat.add_right_comm, renormEnc_go htop, renormEnc_go htop]
      cases he : emit (s.regs.low.getLsbD 31) s with
      | error r => rfl
      | ok t => exact ih ((emit_bounds he ▸ h : Shifted k (bounds t)).shiftBounds (by omega)) (by omega)

/-- The loop ends with the top bits different, and keeps bounds in order (R87). -/
theorem renormEnc_ends {n k : Nat} {s t : State} (h : Shifted k (bounds s)) (hk : k + n = 32)
    (ht : renormEnc n s = .ok t) : topBitsAgree t = false ∧ (InOrder (bounds s) → InOrder (bounds t)) := by
  induction n generalizing k s with
  | zero =>
    obtain rfl : k = 32 := hk
    obtain rfl : s = t := by simpa [renormEnc] using ht
    exact ⟨h.topBitsDiffer, id⟩
  | succ n ih =>
    cases htop : topBitsAgree s with
    | false =>
      obtain rfl : s = t := by simpa [renormEnc_stop htop] using ht
      exact ⟨htop, id⟩
    | true =>
      rw [renormEnc_go htop, bind_ok_iff] at ht
      obtain ⟨u, hu, ht⟩ := ht
      have hb : bounds (shiftBounds u) = bounds (shiftBounds s) := by
        rw [bounds_shiftBounds, bounds_shiftBounds, emit_bounds hu]
      obtain ⟨htopt, hord⟩ := ih (hb ▸ h.shiftBounds (by omega)) (by omega) ht
      exact ⟨htopt, fun hs => hord (hb ▸ inOrder_shiftBounds hs htop)⟩

/-! ### `RENORM_DEC` ends -/

/-- One iteration of `RENORM_DEC` (R95). -/
def shiftWindow (s : State) : State :=
  (shiftBounds s).setWindow
    (trunc32 (2 * s.regs.value.toNat) + BitVec.ofNat 32 (getbit s s.regs.bptr.toNat).toNat) (s.regs.bptr + 1)

theorem bounds_shiftWindow (s : State) : bounds (shiftWindow s) = doubled (bounds s) := bounds_shiftBounds s

theorem renormDec_shift {n : Nat} {s : State} (h : topBitsAgree s = true) :
    renormDec (n + 1) s = renormDec n (shiftWindow s) := renormDec_go h

/-- Iterations past those that the 32 bits allow are never made (R87), and the top bits differ at the end. -/
theorem renormDec_ends {n k : Nat} (m : Nat) {s : State} (h : Shifted k (bounds s)) (hk : k + n = 32) :
    renormDec (n + m) s = renormDec n s ∧ topBitsAgree (renormDec n s) = false := by
  induction n generalizing k s with
  | zero =>
    obtain rfl : k = 32 := hk
    rw [renormDec_stop h.topBitsDiffer, renormDec_stop h.topBitsDiffer]
    exact ⟨rfl, h.topBitsDiffer⟩
  | succ n ih =>
    cases htop : topBitsAgree s with
    | false =>
      rw [renormDec_stop htop, renormDec_stop htop]
      exact ⟨rfl, htop⟩
    | true =>
      rw [Nat.add_right_comm, renormDec_shift htop, renormDec_shift htop]
      exact ih (h.shiftBounds (by omega)) (by omega)

theorem renormDec_inOrder {n : Nat} {s : State} (h : InOrder (bounds s)) : InOrder (bounds (renormDec n s)) := by
  induction n generalizing s with
  | zero => exact h
  | succ n ih =>
    cases htop : topBitsAgree s with
    | false => rwa [renormDec_stop htop]
    | true =>
      rw [renormDec_shift htop]
      exact ih (inOrder_shiftBounds h htop)

/-- Bounds that agree in all bits above the low `k` ones agree in the top bit. -/
theorem Shifted.topBitsAgree {k : Nat} {s : State} (h : Shifted k (bounds s)) (hk : k < 32)
    (heq : s.regs.high.toNat + 1 = s.regs.low.toNat + 2 ^ k) : topBitsAgree s = true := by
  obtain ⟨⟨a, ha⟩, _⟩ := h
  obtain ⟨e, he⟩ : 2 ^ k ∣ 2 ^ 31 := Nat.pow_dvd_pow 2 (by omega)
  have hpos : 0 < 2 ^ k := Nat.two_pow_pos k
  simp only [bounds] at ha
  rw [topBitsAgree_iff, he, ha]
  rcases Nat.lt_or_ge a e with hlt | hge
  · have hmul := Nat.mul_le_mul_left (2 ^ k) (Nat.succ_le_of_lt hlt)
    rw [Nat.mul_succ] at hmul
    omega
  · have hmul := Nat.mul_le_mul_left (2 ^ k) hge
    omega

/-- All the iterations that the bits allow are made exactly when the bounds agree in the bits above (R87). -/
theorem renormDec_bptr {n k : Nat} {s : State} (h : Shifted k (bounds s)) (hk : k + n = 32) :
    (renormDec n s).regs.bptr = s.regs.bptr + BitVec.ofNat 32 n ↔
      s.regs.high.toNat + 1 = s.regs.low.toNat + 2 ^ k := by
  induction n generalizing k s with
  | zero =>
    obtain rfl : k = 32 := hk
    obtain ⟨hlo, hhi⟩ := h.all
    rw [hlo, hhi]
    simp [renormDec]
  | succ n ih =>
    cases htop : Machine.topBitsAgree s with
    | false =>
      have hne : s.regs.bptr ≠ s.regs.bptr + BitVec.ofNat 32 (n + 1) := by bv_omega
      rw [renormDec_stop htop]
      refine ⟨fun heq => absurd heq hne, fun heq => ?_⟩
      exact absurd (htop.symm.trans (h.topBitsAgree (by omega) heq)) (by decide)
    | true =>
      have hptr : (shiftWindow s).regs.bptr + BitVec.ofNat 32 n = s.regs.bptr + BitVec.ofNat 32 (n + 1) := by
        simp only [shiftWindow, setWindow_bptr]
        bv_omega
      have hd := bounds_shiftWindow s
      simp only [bounds, doubled, Prod.mk.injEq] at hd
      have hs : Shifted (k + 1) (bounds (shiftWindow s)) := h.shiftBounds (by omega)
      rw [renormDec_shift htop, ← hptr, ih hs (by omega), hd.1, hd.2, Nat.pow_succ']
      have htop' := (topBitsAgree_iff s).1 htop
      have := s.regs.low.isLt
      have := s.regs.high.isLt
      omega

/-! ### The obligations -/

/-- Settles O26: after 32 shifts the top bits differ, and all 32 are made when all bits of the bounds agree. -/
theorem renormalizationEndsWithinThirtyTwo : Obligations.RenormalizationEndsWithinThirtyTwo := by
  intro s n
  have h0 : Shifted 0 (bounds s) := shifted_zero _
  obtain ⟨hmore, htop⟩ := renormDec_ends n h0 (Nat.zero_add 32)
  refine ⟨renormEnc_add n h0 (Nat.zero_add 32), hmore, fun t ht => ?_, topBits_ne htop, fun hle => ?_, ?_⟩
  · obtain ⟨htopt, hord⟩ := renormEnc_ends h0 (Nat.zero_add 32) ht
    exact ⟨topBits_ne htopt, fun hle => straddles_of_topBits htopt (hord (inOrder_bounds.2 hle))⟩
  · exact straddles_of_topBits htop (renormDec_inOrder (inOrder_bounds.2 hle))
  · rw [show (32 : Word) = BitVec.ofNat 32 32 from rfl, renormDec_bptr h0 (Nat.zero_add 32), ← BitVec.toNat_inj]
    omega

end Sys2Proof.Machine
end

section
/-! PROOFS. Appending bits: a run that appends given bits to the bit sequence when they fit the bit memory, raises
`OVERFLOW` when they do not, and writes nothing but `BITLEN`, `LOW`, `HIGH`, `SIDX` and the bit memory (R53, R86, R88,
R90); with `FLUSH` and the loading of the decoder's window. -/

namespace Sys2Proof.Machine

/-! ### What the encoder writes -/

/-- States that differ in the bit memory read the same in every other array. -/
theorem memRead_of_bitmem {s t : State} {a : Arr} (ha : a ≠ .bitmem) (hc : t.cfg = s.cfg)
    (harr : t.arr = { s.arr with bitmem := t.arr.bitmem }) (i : Nat) : memRead t a i = memRead s a i := by
  rw [memRead_congr (s := { s with arr := { s.arr with bitmem := t.arr.bitmem } }) a i hc harr]
  cases a with
  | bitmem => exact absurd rfl ha
  | _ => rfl

/-- The second state is the first but for `BITLEN`, `LOW`, `HIGH`, `SIDX` and the bit memory (R90). -/
abbrev EncFrame (s t : State) : Prop :=
  t = { s with
    regs := { s.regs with bitlen := t.regs.bitlen, low := t.regs.low, high := t.regs.high, sidx := t.regs.sidx }
    arr := { s.arr with bitmem := t.arr.bitmem } }

namespace EncFrame
variable {s t u : State}

theorem refl (s : State) : EncFrame s s := rfl

theorem trans (h : EncFrame s t) (k : EncFrame t u) : EncFrame s u := Eq.trans k (by rw [h])

theorem cfg (h : EncFrame s t) : t.cfg = s.cfg := by rw [h]
theorem total (h : EncFrame s t) : t.regs.total = s.regs.total := by rw [h]
theorem mcount (h : EncFrame s t) : t.regs.mcount = s.regs.mcount := by rw [h]

theorem memRead (h : EncFrame s t) {a : Arr} (ha : a ≠ .bitmem) (i : Nat) : memRead t a i = memRead s a i :=
  memRead_of_bitmem ha h.cfg (congrArg State.arr (show t = _ from h)) i

end EncFrame

/-! ### Appending bits -/

/-- The bit sequence fits the bit memory, which is small enough that `BITLEN` does not wrap (R5, R53). -/
structure Room (s : State) : Prop where
  bound : s.cfg.bMax ≤ 2 ^ 19
  fits : s.regs.bitlen.toNat ≤ 8 * s.cfg.bMax

/-- The run appends the bits `q` to the bit sequence and ends in a state that meets `P`, or, when they do not fit the bit
memory, raises `OVERFLOW` (R53). -/
inductive Codes (s : State) (q : List Bool) (P : State → Prop) : Except Raise State → Prop where
  | ok {t : State} (frame : EncFrame s t) (bits : bitSeq t = bitSeq s ++ q) (room : Room t) (h : P t) :
      Codes s q P (.ok t)
  | error (full : 8 * s.cfg.bMax < s.regs.bitlen.toNat + q.length) : Codes s q P (.error { cause := .overflow, info := 0 })

namespace Codes
variable {s : State} {q q' : List Bool} {P P' : State → Prop} {x : Except Raise State}

theorem bitlen_of_bits {t : State} (h : bitSeq t = bitSeq s ++ q) :
    t.regs.bitlen.toNat = s.regs.bitlen.toNat + q.length := by
  simpa using congrArg List.length h

/-- Bits that fit are appended. -/
theorem fit (h : Codes s q P x) (hq : s.regs.bitlen.toNat + q.length ≤ 8 * s.cfg.bMax) :
    ∃ t, x = .ok t ∧ EncFrame s t ∧ bitSeq t = bitSeq s ++ q ∧ Room t ∧ P t := by
  cases h with
  | ok frame bits room h => exact ⟨_, rfl, frame, bits, room, h⟩
  | error full => omega

/-- Bits that do not fit raise `OVERFLOW`. -/
theorem overflow (h : Codes s q P x) (hq : 8 * s.cfg.bMax < s.regs.bitlen.toNat + q.length) :
    x = .error { cause := .overflow, info := 0 } := by
  cases h with
  | ok frame bits room h =>
    have hfits := room.fits
    rw [bitlen_of_bits bits, frame.cfg] at hfits
    omega
  | error full => rfl

/-- Ending at once, when the bits so far fit. -/
theorem pure (hr : Room s) (h : P s) : Codes s [] P (.ok s) := .ok (.refl s) (List.append_nil _).symm hr h

/-- Appending first some bits and then others. -/
theorem bind {f : State → Except Raise State} (hx : Codes s q P x)
    (hf : ∀ t, EncFrame s t → Room t → P t → Codes t q' P' (f t)) : Codes s (q ++ q') P' (x >>= f) := by
  cases hx with
  | @ok t frame bits room h =>
    rw [ok_bind]
    generalize hy : f t = y
    have hcode := hf t frame room h
    rw [hy] at hcode
    cases hcode with
    | ok frame' bits' room' h' =>
      exact .ok (frame.trans frame') (by rw [bits', bits, List.append_assoc]) room' h'
    | error full =>
      refine .error ?_
      rw [bitlen_of_bits bits, frame.cfg] at full
      rw [List.length_append]
      omega
  | error full => exact .error (by rw [List.length_append]; omega)

/-- The bits do not depend on the other registers that the encoder writes, before they are appended. -/
theorem of_regs {t : State} (hf : EncFrame s t) (hb : bitSeq t = bitSeq s) (h : Codes t q P x) : Codes s q P x := by
  have hlen : t.regs.bitlen.toNat = s.regs.bitlen.toNat := bitlen_of_bits (q := []) (by rw [hb, List.append_nil])
  cases h with
  | ok frame bits room h => exact .ok (hf.trans frame) (by rw [bits, hb]) room h
  | error full => exact .error (by rw [← hlen, ← hf.cfg]; exact full)

/-- Nor after. -/
theorem then_set {g : State → State} (hx : Codes s q P x)
    (hg : ∀ t, EncFrame s t → P t → EncFrame t (g t) ∧ bitSeq (g t) = bitSeq t ∧ P' (g t)) :
    Codes s q P' (x >>= fun t => .ok (g t)) := by
  cases hx with
  | @ok t frame bits room h =>
    obtain ⟨hframe, hbits, h'⟩ := hg t frame h
    have hlen : (g t).regs.bitlen.toNat = t.regs.bitlen.toNat :=
      bitlen_of_bits (q := []) (by rw [hbits, List.append_nil])
    have hroom : Room (g t) := ⟨hframe.cfg ▸ room.bound, by rw [hlen, hframe.cfg]; exact room.fits⟩
    exact .ok (frame.trans hframe) (hbits.trans bits) hroom h'
  | error full => exact .error full

theorem mono (hx : Codes s q P x) (h : ∀ t, EncFrame s t → P t → P' t) : Codes s q P' x := by
  cases hx with
  | ok frame bits room hp => exact .ok frame bits room (h _ frame hp)
  | error full => exact .error full

end Codes

/-- A full bit memory takes no bit (R53). -/
theorem emit_full {b : Bool} {s : State} (h : 8 * s.cfg.bMax ≤ s.regs.bitlen.toNat) :
    emit b s = .error { cause := .overflow, info := 0 } := if_pos h

/-- `emit` writes `BITLEN` and the bit memory only (R53). -/
theorem emit_encFrame {b : Bool} {s t : State} (h : emit b s = .ok t) : EncFrame s t := by
  rcases emit_cases b s with ⟨_, he⟩ | ⟨_, u, he, hregs, harr, hcfg, hdraws, hhost, hresp, _⟩
  · simp [he] at h
  · obtain rfl : u = t := by simpa [he] using h
    cases u
    simp only at hregs harr hcfg hdraws hhost hresp
    subst hregs hcfg hdraws hhost hresp
    rw [EncFrame, ← harr]

/-- `emit` appends its bit and writes no register but `BITLEN` (R53). -/
theorem emit_codes (b : Bool) {s : State} (hb : s.cfg.bMax ≤ 2 ^ 19) :
    Codes s [b] (fun t => t.regs = { s.regs with bitlen := s.regs.bitlen + 1 }) (emit b s) := by
  rcases emit_cases b s with ⟨hfull, he⟩ | ⟨hroom, t, he, hregs, _, hcfg, _⟩
  · rw [he]
    exact .error (by rw [List.length_singleton]; omega)
  · have hbits := emit_bitSeq he (by omega)
    have hlen := Codes.bitlen_of_bits hbits
    rw [List.length_singleton] at hlen
    rw [he]
    exact .ok (emit_encFrame he) hbits ⟨hcfg ▸ hb, by rw [hcfg]; omega⟩ hregs

/-- `RENORM_ENC` appends the bits that leave when the interval is doubled (R86). -/
theorem renormEnc_codes (n : Nat) {s : State} (hr : Room s) (h : InOrder (bounds s)) :
    Codes s (refRenorm n (bounds s)).1 (fun t => bounds t = (refRenorm n (bounds s)).2) (renormEnc n s) := by
  induction n generalizing s with
  | zero => exact .pure hr rfl
  | succ n ih =>
    cases htop : topBitsAgree s with
    | false =>
      have hno : ¬ OneHalf (bounds s) := mt (topBitsAgree_iff_oneHalf h).2 (by simp [htop])
      rw [renormEnc_stop htop, refRenorm_stop hno]
      exact .pure hr rfl
    | true =>
      have hhalf := (topBitsAgree_iff_oneHalf h).1 htop
      rw [renormEnc_go htop, refRenorm_go h hhalf, getLsbD_31, ← List.singleton_append]
      refine (emit_codes _ hr.bound).bind fun t _ hrt ht => ?_
      have hb : bounds (shiftBounds t) = doubled (bounds s) := by
        rw [bounds_shiftBounds]
        simp only [bounds, ht]
      have hcode := ih (s := shiftBounds t) ⟨hrt.bound, hrt.fits⟩ (hb ▸ inOrder_doubled h hhalf)
      rw [hb] at hcode
      exact .of_regs (t := shiftBounds t) rfl rfl hcode

/-! ### `FLUSH` (R88) -/

theorem natBits_toNat (v : Word) : natBits 32 v.toNat = (List.range 32).map fun t => v.getLsbD (31 - t) := rfl

/-- Iterations of `FLUSH` append the top bits of `LOW` and shift it. -/
theorem flushBits_code (n k : Nat) {s : State} (hr : Room s) (hn : n ≤ 32) :
    Codes s ((List.range n).map fun t => s.regs.low.getLsbD (31 - t))
      (fun t => t.regs = { s.regs with low := s.regs.low <<< n, bitlen := s.regs.bitlen + BitVec.ofNat 32 n })
      (forLoop flushBit n k s) := by
  induction n generalizing k s with
  | zero => exact .pure hr (by simp)
  | succ n ih =>
    have hbits : (List.range (n + 1)).map (fun t => s.regs.low.getLsbD (31 - t)) =
        [s.regs.low.getLsbD 31] ++ (List.range n).map fun t => (s.regs.low <<< 1).getLsbD (31 - t) := by
      rw [List.range_succ_eq_map, List.map_cons, List.map_map, List.singleton_append]
      congr 1
      refine List.map_congr_left fun t ht => ?_
      have := List.mem_range.1 ht
      rw [Function.comp_apply, BitVec.getLsbD_shiftLeft]
      have h1 : 31 - t < 32 := by omega
      have h2 : ¬ 31 - t < 1 := by omega
      simp [h1, h2, Nat.sub_sub]
    have hshift (v : Word) : trunc32 (2 * v.toNat) = v <<< 1 := by
      apply BitVec.eq_of_toNat_eq
      simp [trunc32, Nat.shiftLeft_eq, Nat.mul_comm]
    rw [hbits, forLoop_succ, flushBit_eq_bind]
    refine ((emit_codes _ hr.bound).then_set (g := fun t => t.setLow (trunc32 (2 * t.regs.low.toNat)))
      (P' := fun t => t.regs = { s.regs with low := s.regs.low <<< 1, bitlen := s.regs.bitlen + 1 })
      fun t _ ht => ⟨rfl, rfl, ?_⟩).bind fun t _ hrt ht => ?_
    · rw [hshift]
      simp only [State.setLow, ht]
    · have hcode := ih (k + 1) hrt (by omega)
      have hlow : t.regs.low = s.regs.low <<< 1 := by rw [ht]
      rw [hlow] at hcode
      refine hcode.mono fun u _ hu => ?_
      have hcount : s.regs.bitlen + 1 + BitVec.ofNat 32 n = s.regs.bitlen + BitVec.ofNat 32 (n + 1) := by bv_omega
      rw [hu, ht, ← BitVec.shiftLeft_add, Nat.add_comm 1 n, hcount]

/-- `FLUSH` appends the 32 bits of `LOW` and leaves it 0 (R88). -/
theorem flush_codes {s : State} (hr : Room s) :
    Codes s (natBits 32 s.regs.low.toNat)
      (fun t => t.regs = { s.regs with low := 0, bitlen := s.regs.bitlen + 32 }) (flush s) := by
  rw [natBits_toNat]
  refine (flushBits_code 32 0 hr (Nat.le_refl _)).mono fun t _ ht => ?_
  rw [ht, BitVec.shiftLeft_eq_zero (Nat.le_refl _)]
  rfl

/-- The state with another value in `HIGH`. -/
def State.withHigh (s : State) (h : Word) : State := s.setBounds s.regs.low h

/-- `FLUSH` neither reads nor writes `HIGH` (R88). -/
theorem flush_withHigh (h : Word) (s : State) :
    Lockstep (fun t u => u = t.withHigh h) (flush s) (flush (s.withHigh h)) := by
  refine Lockstep.forLoop rfl fun k t u _ hu => ?_
  subst hu
  rw [flushBit_eq_bind, flushBit_eq_bind]
  have hemit : Lockstep (fun t u => u = t.withHigh h) (emit (t.regs.low.getLsbD 31) t)
      (emit ((t.withHigh h).regs.low.getLsbD 31) (t.withHigh h)) := by
    unfold emit
    exact Lockstep.ite (fun _ => .error _) fun _ => .ok rfl
  refine hemit.bind fun t' u' hu' => ?_
  subst hu'
  exact .ok rfl

/-! ### The obligations -/

/-- Settles O27, by what `FLUSH` appends, and by two runs with different `HIGH` in lockstep. -/
theorem flushAppendsLow : Obligations.FlushAppendsLow := by
  intro s hb
  have hlen : (natBits 32 s.regs.low.toNat).length = 32 := natBits_length _ _
  refine ⟨fun hfit => ?_, fun hfull => ?_⟩
  · obtain ⟨t, ht, _, hbits, _, hregs⟩ :=
      (flush_codes (s := s) ⟨hb, by omega⟩).fit (by rw [hlen]; exact hfit)
    refine ⟨t, ht, hbits, hregs, fun h => ?_⟩
    have hstep := flush_withHigh h s
    rw [ht] at hstep
    generalize hy : flush (s.withHigh h) = y at hstep
    cases hstep with
    | ok hu => subst hu; exact hy
  · rcases Nat.lt_or_ge (8 * s.cfg.bMax) s.regs.bitlen.toNat with hover | hroom
    · rw [flush, forLoop_succ, flushBit_eq_bind, emit_full (Nat.le_of_lt hover)]
      rfl
    · exact (flush_codes ⟨hb, hroom⟩).overflow (by rw [hlen]; exact hfull)

/-- Settles O28: the bits of the number that 32 bits spell are those bits. -/
theorem decInitLoadsTheWindow : Obligations.DecInitLoadsTheWindow := by
  intro s
  have hbit (p : Nat) (hp : p < 32) : (decInit s).regs.value.getLsbD (31 - p) = getbit s p := by
    have hq : ((List.range 32).map (getbit s)).length = 32 := by simp
    have hlt := val_lt ((List.range 32).map (getbit s))
    rw [hq] at hlt
    have hval : (decInit s).regs.value.toNat = val ((List.range 32).map (getbit s)) := by
      simp only [decInit, setWindow_value, trunc32, BitVec.toNat_ofNat]
      exact Nat.mod_eq_of_lt hlt
    have hbits := natBits_toNat (decInit s).regs.value
    rw [hval, natBits_val hq] at hbits
    have := List.map_inj_left.1 hbits p (List.mem_range.2 hp)
    exact this.symm
  exact ⟨hbit, fun p hp hge => (hbit p hp).trans (getbit_of_ge s hge), rfl⟩

end Sys2Proof.Machine
end

section
/-! PROOFS. How the range commands start (R84, R91, R97, R147) and which faults their loops can raise; how a dispatched
command is seen to have ended. -/

namespace Sys2Proof.Machine

/-! ### How a dispatched command ended (R135, R150) -/

theorem Cause.code_inj {c d : Cause} (h : c.code = d.code) : c = d := by
  revert h
  cases c <;> cases d <;> decide

/-- A command shows a fault exactly when its body raised it. -/
theorem raised_runCommand_iff {body : State → Except Raise State} {spoil : State → State} {s : State} {c : Cause}
    {info : Word} (hf : s.regs.fault = false) (hsp : ∀ u, Keeps u (spoil u)) :
    Raised (runCommand body spoil s) c info ↔ body (s.setDone false) = .error { cause := c, info := info } := by
  cases hb : body (s.setDone false) with
  | ok t =>
    rw [runCommand_completes hf hb]
    exact ⟨fun h => absurd h.1 (by simp), fun h => absurd h (by simp)⟩
  | error r =>
    obtain ⟨hdone, _⟩ := (hsp (s.setDone false)).flag_eqs
    rw [runCommand_raises hf hb]
    constructor
    · rintro ⟨_, _, hcode, hinfo⟩
      obtain ⟨rc, ri⟩ := r
      obtain rfl : rc = c := Cause.code_inj hcode
      obtain rfl : ri = info := hinfo
      rfl
    · intro h
      obtain rfl : r = { cause := c, info := info } := by simpa using h
      exact ⟨hdone, rfl, rfl, rfl⟩

/-- A command whose body goes through shows completion. -/
theorem completed_runCommand {body : State → Except Raise State} {spoil : State → State} {s t : State}
    (hf : s.regs.fault = false) (hb : ∀ u, Yields (Runs u) (body u)) (ht : body (s.setDone false) = .ok t) :
    runCommand body spoil s = t.setDone true ∧ Completed (t.setDone true) := by
  obtain ⟨_, hfault, _⟩ := ((hb _).of_ok ht).flag_eqs
  exact ⟨runCommand_completes hf ht, rfl, hfault.trans hf⟩

theorem raises_rcEnc_iff {s : State} {c : Cause} {info : Word} (hf : s.regs.fault = false) :
    Raises .rcEnc s c info ↔ rcEncBody (s.setDone false) = .error { cause := c, info := info } := by
  rw [← raised_runCommand_iff hf spoilRcEnc_keeps]
  exact ⟨fun ⟨t, ht, h⟩ => by cases ht; exact h, fun h => ⟨_, rfl, h⟩⟩

theorem raises_rcDec_iff {s : State} {c : Cause} {info : Word} (hf : s.regs.fault = false) :
    Raises .rcDec s c info ↔ rcDecBody (s.setDone false) = .error { cause := c, info := info } := by
  rw [← raised_runCommand_iff hf spoilRcDec_keeps]
  exact ⟨fun ⟨t, ht, h⟩ => by cases ht; exact h, fun h => ⟨_, rfl, h⟩⟩

theorem rcEnc_completes {s t : State} (hf : s.regs.fault = false) (ht : rcEncBody (s.setDone false) = .ok t) :
    exec .rcEnc s = .next (t.setDone true) ∧ Completed (t.setDone true) := by
  obtain ⟨he, hc⟩ := completed_runCommand (spoil := spoilRcEnc) hf rcEncBody_yields ht
  exact ⟨congrArg _ he, hc⟩

theorem rcDec_completes {s t : State} (hf : s.regs.fault = false) (ht : rcDecBody (s.setDone false) = .ok t) :
    exec .rcDec s = .next (t.setDone true) ∧ Completed (t.setDone true) := by
  obtain ⟨he, hc⟩ := completed_runCommand (spoil := spoilRcDec) hf rcDecBody_yields ht
  exact ⟨congrArg _ he, hc⟩

/-- A command enters one fault, if any. -/
theorem Raises.inj {i : Instr} {s : State} {c d : Cause} {v w : Word} (h : Raises i s c v) (k : Raises i s d w) :
    c = d ∧ v = w := by
  obtain ⟨t, ht, _, _, hcode, hinfo⟩ := h
  obtain ⟨u, hu, _, _, hcode', hinfo'⟩ := k
  obtain rfl : t = u := by simpa [ht] using hu
  exact ⟨Cause.code_inj (hcode.symm.trans hcode'), hinfo.symm.trans hinfo'⟩

/-- A command that enters a fault does not complete. -/
theorem Raises.not_completed {i : Instr} {s t : State} {c : Cause} {v : Word} (h : Raises i s c v)
    (ht : exec i s = .next t) : ¬ Completed t := by
  obtain ⟨u, hu, hdone, _⟩ := h
  obtain rfl : t = u := by simpa [ht] using hu
  exact fun hc => absurd (hdone.symm.trans hc.1) (by decide)

/-! ### How the range commands start -/

/-- The state in which `RC_ENC` codes its first symbol (R90). -/
def encStart (s : State) : State := (startBounds s).setBitlen 0

/-- The state in which `RC_DEC` decodes its first symbol (R96). -/
def decStart (s : State) : State := decInit (startBounds s)

theorem rcEncBody_badLength {s : State} (h : s.cfg.sMax < s.regs.symcnt.toNat) :
    rcEncBody s = .error { cause := .badLength, info := 0 } := by
  simp only [rcEncBody, checkSymcnt, if_pos h, error_bind]

theorem checkSymcnt_ok {s : State} (h : s.regs.symcnt.toNat ≤ s.cfg.sMax) : checkSymcnt s = .ok () := by
  rw [checkSymcnt_eq, if_pos h]

theorem checkBitlen_ok {s : State} (h : s.regs.bitlen.toNat ≤ 8 * s.cfg.bMax) : checkBitlen s = .ok () := by
  rw [checkBitlen_eq, if_pos h]

theorem rcEncBody_nothing {s : State} (h : s.regs.symcnt.toNat = 0) : rcEncBody s = .ok (encStart s) := by
  have h0 : ((startBounds s).setBitlen 0).regs.symcnt.toNat = 0 := h
  simp only [rcEncBody, checkSymcnt_ok (h ▸ Nat.zero_le _), ok_bind, if_pos h0]
  rfl

theorem rcEncBody_start {s : State} (hlen : s.regs.symcnt.toNat ≤ s.cfg.sMax) (h : 1 ≤ s.regs.symcnt.toNat) :
    rcEncBody s = (checkModel (encStart s) >>= fun _ =>
      forLoop encodeSymbol s.regs.symcnt.toNat 0 (encStart s) >>= flush) := by
  have h0 : ¬ ((startBounds s).setBitlen 0).regs.symcnt.toNat = 0 := Nat.ne_of_gt h
  simp only [rcEncBody, checkSymcnt_ok hlen, ok_bind, if_neg h0]
  rfl

theorem rcDecBody_nothing {s : State} (h : s.regs.symcnt.toNat = 0) (hbits : s.regs.bitlen.toNat ≤ 8 * s.cfg.bMax) :
    rcDecBody s = .ok (decStart s) := by
  have h0 : (decInit (startBounds s)).regs.symcnt.toNat = 0 := h
  simp only [rcDecBody, checkSymcnt_ok (h ▸ Nat.zero_le _), checkBitlen_ok hbits, ok_bind, if_pos h0]
  rfl

theorem rcDecBody_start {s : State} (hlen : s.regs.symcnt.toNat ≤ s.cfg.sMax)
    (hbits : s.regs.bitlen.toNat ≤ 8 * s.cfg.bMax) (h : 1 ≤ s.regs.symcnt.toNat) :
    rcDecBody s = (checkModel (decStart s) >>= fun _ =>
      forLoop decodeSymbol s.regs.symcnt.toNat 0 (decStart s)) := by
  have h0 : ¬ (decInit (startBounds s)).regs.symcnt.toNat = 0 := Nat.ne_of_gt h
  simp only [rcDecBody, checkSymcnt_ok hlen, checkBitlen_ok hbits, ok_bind, if_neg h0]
  rfl

theorem sameModel_encStart (s : State) : SameModel s (encStart s) :=
  ⟨rfl, rfl, rfl, fun _ _ => rfl, fun _ _ => rfl, fun _ _ => rfl⟩

theorem sameModel_decStart (s : State) : SameModel s (decStart s) :=
  ⟨rfl, rfl, rfl, fun _ _ => rfl, fun _ _ => rfl, fun _ _ => rfl⟩

/-- An invalid model is found before the first symbol (R84). -/
theorem rcEncBody_invalid {s : State} (hlen : s.regs.symcnt.toNat ≤ s.cfg.sMax) (h : 1 ≤ s.regs.symcnt.toNat)
    (hm : ¬ ModelOk s) : rcEncBody s = .error { cause := .modelInvalid, info := 0 } := by
  have hcheck := checkModel_error (mt (sameModel_encStart s).symm.modelOk hm)
  rw [rcEncBody_start hlen h, hcheck, error_bind]

theorem rcEncBody_valid {s : State} (hlen : s.regs.symcnt.toNat ≤ s.cfg.sMax) (h : 1 ≤ s.regs.symcnt.toNat)
    (hm : ModelOk s) :
    rcEncBody s = (forLoop encodeSymbol s.regs.symcnt.toNat 0 (encStart s) >>= flush) := by
  have hcheck := checkModel_ok ((sameModel_encStart s).modelOk hm)
  rw [rcEncBody_start hlen h, hcheck, ok_bind]

theorem rcDecBody_invalid {s : State} (hlen : s.regs.symcnt.toNat ≤ s.cfg.sMax)
    (hbits : s.regs.bitlen.toNat ≤ 8 * s.cfg.bMax) (h : 1 ≤ s.regs.symcnt.toNat) (hm : ¬ ModelOk s) :
    rcDecBody s = .error { cause := .modelInvalid, info := 0 } := by
  have hcheck := checkModel_error (mt (sameModel_decStart s).symm.modelOk hm)
  rw [rcDecBody_start hlen hbits h, hcheck, error_bind]

theorem rcDecBody_valid {s : State} (hlen : s.regs.symcnt.toNat ≤ s.cfg.sMax)
    (hbits : s.regs.bitlen.toNat ≤ 8 * s.cfg.bMax) (h : 1 ≤ s.regs.symcnt.toNat) (hm : ModelOk s) :
    rcDecBody s = forLoop decodeSymbol s.regs.symcnt.toNat 0 (decStart s) := by
  have hcheck := checkModel_ok ((sameModel_decStart s).modelOk hm)
  rw [rcDecBody_start hlen hbits h, hcheck, ok_bind]

/-! ### Which faults a run can raise (R145) -/

/-- Each fault of the run is one of those listed. -/
def RaisesAmong {α : Type} (cs : List Cause) (x : Except Raise α) : Prop := ∀ r, x = .error r → r.cause ∈ cs

namespace RaisesAmong
variable {α β : Type} {cs : List Cause} {x : Except Raise α}

theorem ok (a : α) : RaisesAmong cs (.ok a : Except Raise α) := fun _ h => by simp at h

theorem error {r : Raise} (h : r.cause ∈ cs) : RaisesAmong cs (.error r : Except Raise α) := fun r' hr => by
  obtain rfl : r = r' := by simpa using hr
  exact h

theorem bind {f : α → Except Raise β} (hx : RaisesAmong cs x) (hf : ∀ a, RaisesAmong cs (f a)) :
    RaisesAmong cs (x >>= f) := by
  intro r hr
  rcases bind_error_iff.1 hr with h | ⟨a, _, h⟩
  · exact hx r h
  · exact hf a r h

theorem forLoop {body : Nat → α → Except Raise α} (h : ∀ k a, RaisesAmong cs (body k a)) (n k : Nat) (a : α) :
    RaisesAmong cs (forLoop body n k a) := by
  induction n generalizing k a with
  | zero => exact ok a
  | succ n ih =>
    rw [forLoop_succ]
    exact (h k a).bind fun b => ih (k + 1) b

end RaisesAmong

section
variable {cs : List Cause}

theorem emit_raises (h : Cause.overflow ∈ cs) (b : Bool) (s : State) : RaisesAmong cs (emit b s) := by
  rcases emit_cases b s with ⟨_, he⟩ | ⟨_, t, he, _⟩ <;> rw [he]
  · exact .error h
  · exact .ok t

theorem narrow_raises (h : Cause.rangeCollapse ∈ cs) (i k : Nat) (s : State) : RaisesAmong cs (narrow i k s) := by
  rcases narrow_cases i k s with ⟨_, he⟩ | ⟨_, he⟩ <;> rw [he]
  · exact .error h
  · exact .ok _

theorem renormEnc_raises (h : Cause.overflow ∈ cs) (n : Nat) (s : State) : RaisesAmong cs (renormEnc n s) := by
  induction n generalizing s with
  | zero => exact .ok s
  | succ n ih =>
    cases htop : topBitsAgree s with
    | false => rw [renormEnc_stop htop]; exact .ok s
    | true => rw [renormEnc_go htop]; exact (emit_raises h _ s).bind fun _ => ih _

theorem flush_raises (h : Cause.overflow ∈ cs) (s : State) : RaisesAmong cs (flush s) :=
  .forLoop (fun k t => by rw [flushBit_eq_bind]; exact (emit_raises h _ t).bind fun _ => .ok _) 32 0 s

theorem lookupModel_raises (h : Cause.symbolMiss ∈ cs) (sym : Word) (k : Nat) (s : State) :
    RaisesAmong cs (lookupModel sym k s) := by
  unfold lookupModel
  split
  · exact .ok _
  · exact .error h

theorem decSelect_raises (h : Cause.desync ∈ cs) (k : Nat) (s : State) : RaisesAmong cs (decSelect k s) := by
  rcases decSelect_cases k s with ⟨i, he, _⟩ | ⟨he, _⟩ <;> rw [he]
  · exact .ok i
  · exact .error h

end

theorem encodeSymbol_raises (k : Nat) (s : State) :
    RaisesAmong [.symbolMiss, .rangeCollapse, .overflow] (encodeSymbol k s) :=
  (lookupModel_raises (by decide) _ k s).bind fun i => (narrow_raises (by decide) i k s).bind fun s1 =>
    (renormEnc_raises (by decide) 32 s1).bind fun _ => .ok _

theorem decodeSymbol_raises (k : Nat) (s : State) : RaisesAmong [.desync, .rangeCollapse] (decodeSymbol k s) :=
  (decSelect_raises (by decide) k s).bind fun i => (narrow_raises (by decide) i k s).bind fun _ => .ok _

/-! ### The obligations -/

/-- Settles O30: with no symbol the body ends where it starts. -/
theorem rcEncOfNothingIsEmpty : Obligations.RcEncOfNothingIsEmpty := by
  intro s hf h0
  have hbody : rcEncBody (s.setDone false) = .ok (encStart (s.setDone false)) :=
    rcEncBody_nothing (by rw [setDone_symcnt, h0]; rfl)
  rw [(rcEnc_completes hf hbody).1]
  rfl

/-- Settles O22: the model is checked before the first symbol, and no symbol raises `MODEL_INVALID`. -/
theorem modelCheckGuardsTheRangeCommands : Obligations.ModelCheckGuardsTheRangeCommands := by
  intro s hf hlen i hi
  rcases hi with rfl | ⟨rfl, hbits⟩
  · refine ⟨?_, ?_, fun h0 => ?_⟩
    · intro h1 hno
      rw [raises_rcEnc_iff hf]
      exact rcEncBody_invalid (s := s.setDone false) hlen h1 hno
    · intro h1 hok info hr
      rw [raises_rcEnc_iff hf, rcEncBody_valid (s := s.setDone false) hlen h1 hok] at hr
      have hmem := ((RaisesAmong.forLoop encodeSymbol_raises _ _ _).bind (flush_raises (by decide))) _ hr
      simp at hmem
    · exact ⟨_, rcEnc_completes hf (rcEncBody_nothing h0)⟩
  · refine ⟨?_, ?_, fun h0 => ?_⟩
    · intro h1 hno
      rw [raises_rcDec_iff hf]
      exact rcDecBody_invalid (s := s.setDone false) hlen hbits h1 hno
    · intro h1 hok info hr
      rw [raises_rcDec_iff hf, rcDecBody_valid (s := s.setDone false) hlen hbits h1 hok] at hr
      have hmem := (RaisesAmong.forLoop decodeSymbol_raises _ _ _) _ hr
      simp at hmem
    · exact ⟨_, rcDec_completes hf (rcDecBody_nothing h0 hbits)⟩

end Sys2Proof.Machine
end

section
/-! PROOFS. `RC_ENC` against exact interval coding (R85, R86, R88 to R91, R149): what it does with symbols that code, and
where it stops at one that does not. -/

namespace Sys2Proof.Machine

/-! ### The shares of the symbols (R89) -/

/-- The model's share of the symbol at index `k`. -/
def IsShare (s : State) (k : Nat) (share : Nat × Nat) : Prop :=
  ∃ i < s.regs.mcount.toNat, memRead s .msym i = memRead s .symmem k ∧ share = shareAt s i

/-- The model's shares of the symbols from index `k` on, as many as are listed. -/
def SharesFrom (s : State) (k : Nat) (shares : List (Nat × Nat)) : Prop :=
  ∀ j share, shares[j]? = some share → IsShare s (k + j) share

theorem SharesFrom.head {s : State} {k : Nat} {share : Nat × Nat} {rest : List (Nat × Nat)}
    (h : SharesFrom s k (share :: rest)) : IsShare s k share := h 0 share rfl

theorem SharesFrom.tail {s : State} {k : Nat} {share : Nat × Nat} {rest : List (Nat × Nat)}
    (h : SharesFrom s k (share :: rest)) : SharesFrom s (k + 1) rest := fun j x hx => by
  rw [Nat.add_assoc, Nat.add_comm 1 j]
  exact h (j + 1) x hx

theorem SharesOf.sharesFrom {s : State} {shares : List (Nat × Nat)} (h : SharesOf s shares) :
    SharesFrom s 0 shares := by
  intro j share hj
  obtain ⟨hlt, _⟩ := List.getElem?_eq_some_iff.1 hj
  obtain ⟨i, hi, hsym, heq⟩ := h.2 j hlt
  rw [Nat.zero_add]
  exact ⟨i, hi, hsym, by simpa [hj, shareAt] using heq⟩

theorem sharesOf_nil (s : State) : SharesOf s [] := ⟨Nat.zero_le _, fun _ hk => absurd hk (Nat.not_lt_zero _)⟩

theorem SharesOf.append_one {s : State} {shares : List (Nat × Nat)} {share : Nat × Nat} (h : SharesOf s shares)
    (hlt : shares.length < s.regs.symcnt.toNat) (hs : IsShare s shares.length share) :
    SharesOf s (shares ++ [share]) := by
  refine ⟨by rw [List.length_append]; exact hlt, fun k hk => ?_⟩
  rw [List.length_append, List.length_singleton] at hk
  rcases Nat.lt_or_ge k shares.length with hk' | hk'
  · obtain ⟨i, hi, hsym, heq⟩ := h.2 k hk'
    exact ⟨i, hi, hsym, by rw [List.getElem?_append_left hk', heq]⟩
  · obtain rfl : k = shares.length := by omega
    obtain ⟨i, hi, hsym, rfl⟩ := hs
    exact ⟨i, hi, hsym, by simp [shareAt]⟩

/-- The last of the listed shares is that of the last of the listed symbols. -/
theorem SharesOf.last {s : State} {shares : List (Nat × Nat)} {share : Nat × Nat} (h : SharesOf s (shares ++ [share])) :
    shares.length < s.regs.symcnt.toNat ∧ IsShare s shares.length share := by
  have hlen := h.1
  rw [List.length_append, List.length_singleton] at hlen
  have hs := SharesOf.sharesFrom h shares.length share (by simp)
  exact ⟨hlen, by rwa [Nat.zero_add] at hs⟩

theorem IsShare.le_total {s : State} {k : Nat} {share : Nat × Nat} (h : IsShare s k share) (hm : ModelOk s) :
    share.1 + share.2 ≤ s.regs.total.toNat := by
  obtain ⟨i, hi, _, rfl⟩ := h
  exact hm.share_le_total hi

theorem SharesFrom.le_total {s : State} {k : Nat} {shares : List (Nat × Nat)} (h : SharesFrom s k shares)
    (hm : ModelOk s) : ∀ share ∈ shares, share.1 + share.2 ≤ s.regs.total.toNat := by
  intro share hmem
  obtain ⟨j, hj⟩ := List.mem_iff_getElem?.1 hmem
  exact (h j share hj).le_total hm

/-! ### The encoder keeps the model and the symbols -/

theorem EncFrame.sameModel {s t : State} (h : EncFrame s t) : SameModel s t where
  cfg := h.cfg
  mcount := h.mcount
  total := h.total
  msym i _ := h.memRead (by decide) i
  mfreq i _ := h.memRead (by decide) i
  mcum i _ := h.memRead (by decide) i

theorem EncFrame.isShare {s t : State} (h : EncFrame s t) {k : Nat} {share : Nat × Nat} (hs : IsShare s k share) :
    IsShare t k share := by
  obtain ⟨i, hi, hsym, rfl⟩ := hs
  refine ⟨i, h.mcount ▸ hi, ?_, (h.sameModel.shareAt hi).symm⟩
  rw [h.memRead (by decide), h.memRead (by decide), hsym]

theorem EncFrame.inModel {s t : State} (h : EncFrame s t) {k : Nat} (hs : InModel t k) : InModel s k := by
  obtain ⟨i, hi, hsym⟩ := hs
  rw [h.memRead (by decide), h.memRead (by decide)] at hsym
  exact ⟨i, h.mcount ▸ hi, hsym⟩

/-! ### One symbol (R90) -/

/-- A symbol that is in no model entry. -/
theorem encodeSymbol_misses {s : State} {k : Nat} (h : ¬ InModel s k) :
    encodeSymbol k s = .error { cause := .symbolMiss, info := BitVec.ofNat 32 k } := by
  have hlook : lookupModel (memRead s .symmem k) k s = .error { cause := .symbolMiss, info := BitVec.ofNat 32 k } := by
    unfold lookupModel
    cases he : modelEntry s (memRead s .symmem k) with
    | none => rfl
    | some i => exact absurd ⟨i, modelEntry_some he⟩ h
  simp only [encodeSymbol, hlook, error_bind]

section
variable {s : State} {k : Nat} {share : Nat × Nat} (hm : ModelOk s) (h : InOrder (bounds s)) (hs : IsShare s k share)
include hm h hs

/-- A symbol whose share of the interval is empty. -/
theorem encodeSymbol_collapses (hn : refNarrow s.regs.total.toNat share (bounds s) = none) :
    encodeSymbol k s = .error { cause := .rangeCollapse, info := BitVec.ofNat 32 k } := by
  obtain ⟨i, hi, hsym, rfl⟩ := hs
  simp only [encodeSymbol, lookupModel, hm.modelEntry_eq hi hsym, ok_bind, narrow_collapses k h hn, error_bind]

/-- A symbol whose share is taken: the bits that leave when the narrowed interval is doubled are appended. -/
theorem encodeSymbol_codes {b : Nat × Nat} (hr : Room s)
    (hn : refNarrow s.regs.total.toNat share (bounds s) = some b) :
    Codes s (refRenorm 32 b).1
      (fun t => bounds t = (refRenorm 32 b).2 ∧ t.regs.sidx = BitVec.ofNat 32 (k + 1)) (encodeSymbol k s) := by
  obtain ⟨i, hi, hsym, rfl⟩ := hs
  have hfit := hm.share_le_total hi
  obtain ⟨t, ht, hb, hframe⟩ := narrow_takes k h hfit hn
  obtain ⟨lo, hi', rfl⟩ : ∃ lo hi, t = s.setBounds lo hi := ⟨_, _, hframe⟩
  have hcode := renormEnc_codes 32 (s := s.setBounds lo hi') ⟨hr.bound, hr.fits⟩
    (hb.symm ▸ (refNarrow_inside h hfit hn).1)
  rw [hb] at hcode
  simp only [encodeSymbol, lookupModel, hm.modelEntry_eq hi hsym, ok_bind, ht]
  refine .of_regs (t := s.setBounds lo hi') rfl rfl (hcode.then_set fun u _ hu => ⟨rfl, rfl, hu, rfl⟩)

end

/-! ### The symbols in order (R90) -/

/-- Symbols whose shares code append the bits of exact interval coding. -/
theorem encodeSymbols_codes {shares : List (Nat × Nat)} {s : State} {k : Nat} {bits : List Bool} {last : Nat × Nat}
    (hm : ModelOk s) (h : InOrder (bounds s)) (hr : Room s) (hs : SharesFrom s k shares)
    (hidx : s.regs.sidx = BitVec.ofNat 32 k)
    (he : refEncode s.regs.total.toNat shares (bounds s) = some (bits, last)) :
    Codes s bits (fun t => bounds t = last ∧ t.regs.sidx = BitVec.ofNat 32 (k + shares.length))
      (forLoop encodeSymbol shares.length k s) := by
  induction shares generalizing s k bits with
  | nil =>
    obtain ⟨rfl, rfl⟩ : [] = bits ∧ bounds s = last := by simpa [refEncode] using he
    exact .pure hr ⟨rfl, hidx⟩
  | cons share rest ih =>
    obtain ⟨b, more, hn, hmore, rfl⟩ := refEncode_cons_eq_some.1 he
    rw [List.length_cons, forLoop_succ]
    refine (encodeSymbol_codes hm h hs.head hr hn).bind fun t hframe hrt ⟨hb, hidxt⟩ => ?_
    have hord : InOrder (bounds t) :=
      hb ▸ inOrder_refRenorm 32 (refNarrow_inside h (hs.head.le_total hm) hn).1
    rw [Nat.add_comm rest.length 1, ← Nat.add_assoc]
    exact ih (hframe.sameModel.modelOk hm) hord hrt (fun j x hx => hframe.isShare (hs.tail j x hx)) hidxt
      (by rw [hframe.total, hb]; exact hmore)

/-- Coding starts with no bits (R90). -/
theorem bitSeq_encStart (s : State) : bitSeq (encStart s) = [] := rfl

theorem bitlen_encStart (s : State) : (encStart s).regs.bitlen.toNat = 0 := rfl

theorem room_encStart {s : State} (hc : s.cfg.Ok) : Room (encStart s) := by
  obtain ⟨_, _, _, _, _, ⟨_, hb⟩, _⟩ := hc
  exact ⟨hb, Nat.zero_le _⟩

section
variable {s : State} {shares : List (Nat × Nat)} {bits : List Bool} {last : Nat × Nat} (hc : s.cfg.Ok)
  (hm : ModelOk s) (hs : SharesOf s shares)
  (he : refEncode s.regs.total.toNat shares (0, 2 ^ 32 - 1) = some (bits, last))
include hc hm hs he

/-- The first symbols append the bits of their shares. -/
theorem encode_prefix : Codes (encStart s) bits
    (fun t => bounds t = last ∧ t.regs.sidx = BitVec.ofNat 32 shares.length)
    (forLoop encodeSymbol shares.length 0 (encStart s)) := by
  have hcode := encodeSymbols_codes (s := encStart s) (k := 0) ((sameModel_encStart s).modelOk hm) inOrder_start
    (room_encStart hc) hs.sharesFrom rfl he
  rwa [Nat.zero_add] at hcode

section
variable (hlen : s.regs.symcnt.toNat ≤ s.cfg.sMax) (hone : 1 ≤ s.regs.symcnt.toNat)
include hlen hone

/-- `RC_ENC` appends the bits of all symbols and the 32 bits of the last lower bound. -/
theorem rcEncBody_codes (hall : shares.length = s.regs.symcnt.toNat) :
    Codes (encStart s) (bits ++ natBits 32 last.1)
      (fun t => t.regs.low = 0 ∧ t.regs.high.toNat = last.2 ∧ t.regs.sidx = s.regs.symcnt) (rcEncBody s) := by
  have hcode := encode_prefix hc hm hs he
  rw [rcEncBody_valid hlen hone hm]
  rw [hall] at hcode
  refine hcode.bind fun t _ hr ⟨hb, hidx⟩ => ?_
  subst hb
  exact (flush_codes hr).mono fun u _ hu => by simp [hu, hidx, bounds]

/-- `RC_ENC` stops where the first symbols do not fit. -/
theorem rcEncBody_overflows (hfull : 8 * s.cfg.bMax < bits.length) :
    rcEncBody s = .error { cause := .overflow, info := 0 } := by
  have hloop := (encode_prefix hc hm hs he).overflow
    (by rw [bitlen_encStart, Nat.zero_add]; exact hfull)
  obtain ⟨n, hn⟩ := Nat.exists_eq_add_of_le hs.1
  rw [rcEncBody_valid hlen hone hm, hn, forLoop_add, hloop]
  rfl

/-- `RC_ENC` stops at a symbol that raises, once the symbols before it are coded. -/
theorem rcEncBody_stops {r : Raise} (hfit : bits.length ≤ 8 * s.cfg.bMax)
    (hlt : shares.length < s.regs.symcnt.toNat)
    (hr : ∀ t, EncFrame (encStart s) t → bounds t = last → encodeSymbol shares.length t = .error r) :
    rcEncBody s = .error r := by
  obtain ⟨t, ht, hframe, _, _, hb, _⟩ := (encode_prefix hc hm hs he).fit
    (by rw [bitlen_encStart, Nat.zero_add]; exact hfit)
  obtain ⟨n, hn⟩ := Nat.exists_eq_add_of_lt hlt
  rw [rcEncBody_valid hlen hone hm, hn, Nat.add_assoc, forLoop_add, ht, ok_bind, forLoop_succ, Nat.zero_add,
    hr t hframe hb]
  rfl

end
end

end Sys2Proof.Machine
end

section
/-! PROOFS. What `RC_ENC` does with every input: it writes the reference bits, or raises the first fault its input meets
(R89 to R91, R100, R101, R149). -/

namespace Sys2Proof.Machine

/-! ### Inputs that code, and inputs that fault -/

/-- Settles O31: all symbols are coded, and the last lower bound is flushed. -/
theorem rcEncWritesTheReferenceBits : Obligations.RcEncWritesTheReferenceBits := by
  intro s shares bits last hc hf hone hlen hm hall hshare he hfit
  have hs : SharesOf s shares := ⟨Nat.le_of_eq hall, fun k hk => hshare k (hall ▸ hk)⟩
  have hcode : Codes (encStart (s.setDone false)) (bits ++ natBits 32 last.1)
      (fun t => t.regs.low = 0 ∧ t.regs.high.toNat = last.2 ∧ t.regs.sidx = s.regs.symcnt)
      (rcEncBody (s.setDone false)) := rcEncBody_codes (s := s.setDone false) hc hm hs he hlen hone hall
  obtain ⟨t, ht, _, hbits, _, hlow, hhigh, hidx⟩ := hcode.fit
    (by rw [bitlen_encStart, Nat.zero_add, List.length_append, natBits_length]; exact hfit)
  obtain ⟨hx, hdone⟩ := rcEnc_completes hf ht
  rw [bitSeq_encStart, List.nil_append] at hbits
  refine ⟨_, hx, hdone, hbits, ?_, hlow, hhigh, hidx⟩
  have hcount := congrArg List.length hbits
  rwa [bitSeq_length, List.length_append, natBits_length] at hcount

/-- Settles O59: the first symbols are coded, and the next step raises. -/
theorem rcEncRaisesTheFirstFault : Obligations.RcEncRaisesTheFirstFault := by
  intro s shares bits last hc hf hone hlen hm hs he
  simp only [raises_rcEnc_iff hf]
  refine ⟨rcEncBody_overflows (s := s.setDone false) hc hm hs he hlen hone, fun hfit hlt hno => ?_, fun hfit share hmore hnone => ?_,
    fun hall hfull => ?_⟩
  · refine rcEncBody_stops (s := s.setDone false) hc hm hs he hlen hone hfit hlt
      fun t hframe _ => encodeSymbol_misses fun hin => ?_
    exact hno (hframe.inModel hin)
  · obtain ⟨hlt, hshare⟩ := hmore.last
    rw [refEncode_append_one he, Option.map_eq_none_iff] at hnone
    obtain ⟨hord, _⟩ := refEncode_bounds inOrder_start (hs.sharesFrom.le_total hm) he
    refine rcEncBody_stops (s := s.setDone false) hc hm hs he hlen hone hfit hlt fun t hframe hb => ?_
    exact encodeSymbol_collapses (hframe.sameModel.modelOk hm) (hb ▸ hord) (hframe.isShare hshare)
      (by rw [hframe.total, hb]; exact hnone)
  · refine (rcEncBody_codes (s := s.setDone false) hc hm hs he hlen hone hall).overflow ?_
    rw [bitlen_encStart, Nat.zero_add, List.length_append, natBits_length]
    exact hfull

/-! ### Every input -/

/-- The symbols up to `n` all code; or one of them is in no model entry, or collapses, and those before it code. -/
theorem coding_cases (s : State) {n : Nat} (hn : n ≤ s.regs.symcnt.toNat) :
    ∃ shares bits last, SharesOf s shares ∧
      refEncode s.regs.total.toNat shares (0, 2 ^ 32 - 1) = some (bits, last) ∧
      (shares.length = n ∨ (shares.length < n ∧ ¬ InModel s shares.length) ∨
        (shares.length < n ∧ ∃ share, SharesOf s (shares ++ [share]) ∧
          refEncode s.regs.total.toNat (shares ++ [share]) (0, 2 ^ 32 - 1) = none)) := by
  induction n with
  | zero => exact ⟨[], [], _, sharesOf_nil s, rfl, .inl rfl⟩
  | succ n ih =>
    obtain ⟨shares, bits, last, hs, he, hlen | ⟨hlt, hno⟩ | ⟨hlt, hcol⟩⟩ := ih (by omega)
    · subst hlen
      by_cases hin : InModel s shares.length
      · obtain ⟨i, hi, hsym⟩ := hin
        have hmore := hs.append_one (share := shareAt s i) (by omega) ⟨i, hi, hsym, rfl⟩
        cases he' : refEncode s.regs.total.toNat (shares ++ [shareAt s i]) (0, 2 ^ 32 - 1) with
        | none => exact ⟨shares, bits, last, hs, he, .inr (.inr ⟨Nat.lt_succ_self _, _, hmore, he'⟩)⟩
        | some r => exact ⟨_, r.1, r.2, hmore, he', .inl (by simp)⟩
      · exact ⟨shares, bits, last, hs, he, .inr (.inl ⟨Nat.lt_succ_self _, hin⟩)⟩
    · exact ⟨shares, bits, last, hs, he, .inr (.inl ⟨by omega, hno⟩)⟩
    · exact ⟨shares, bits, last, hs, he, .inr (.inr ⟨by omega, hcol⟩)⟩

/-- `RC_ENC` codes all symbols and completes. -/
def EncCompletes (s : State) (shares : List (Nat × Nat)) (bits : List Bool) (last : Nat × Nat) : Prop :=
  shares.length = s.regs.symcnt.toNat ∧
  ∃ t, exec .rcEnc s = .next t ∧ Completed t ∧ bitSeq t = bits ++ natBits 32 last.1 ∧
    t.regs.bitlen.toNat = bits.length + 32 ∧ t.regs.low = 0 ∧ t.regs.high.toNat = last.2

/-- `RC_ENC` codes the first symbols and then meets a fault. -/
def EncFaults (s : State) (shares : List (Nat × Nat)) (bits : List Bool) : Prop :=
  (8 * s.cfg.bMax < bits.length + 32 ∧ Raises .rcEnc s .overflow 0) ∨
  (bits.length ≤ 8 * s.cfg.bMax ∧ shares.length < s.regs.symcnt.toNat ∧ ¬ InModel s shares.length ∧
    Raises .rcEnc s .symbolMiss (BitVec.ofNat 32 shares.length)) ∨
  (bits.length ≤ 8 * s.cfg.bMax ∧ shares.length < s.regs.symcnt.toNat ∧
    Raises .rcEnc s .rangeCollapse (BitVec.ofNat 32 shares.length) ∧
    ∃ share, SharesOf s (shares ++ [share]) ∧
      refEncode s.regs.total.toNat (shares ++ [share]) (0, 2 ^ 32 - 1) = none)

/-- Everything `RC_ENC` can do with symbols under a valid model. -/
theorem rcEnc_outcome {s : State} (hc : s.cfg.Ok) (hf : s.regs.fault = false) (hone : 1 ≤ s.regs.symcnt.toNat)
    (hlen : s.regs.symcnt.toNat ≤ s.cfg.sMax) (hm : ModelOk s) :
    ∃ shares bits last, SharesOf s shares ∧
      refEncode s.regs.total.toNat shares (0, 2 ^ 32 - 1) = some (bits, last) ∧
      (EncCompletes s shares bits last ∨ EncFaults s shares bits) := by
  obtain ⟨shares, bits, last, hs, he, hcase⟩ := coding_cases s (Nat.le_refl _)
  obtain ⟨hover, hmiss, hcol, hflush⟩ := rcEncRaisesTheFirstFault s shares bits last hc hf hone hlen hm hs he
  refine ⟨shares, bits, last, hs, he, ?_⟩
  rcases Nat.lt_or_ge (8 * s.cfg.bMax) bits.length with hfull | hfit
  · exact .inr (.inl ⟨by omega, hover hfull⟩)
  · rcases hcase with hall | ⟨hlt, hno⟩ | ⟨hlt, share, hmore, hnone⟩
    · rcases Nat.lt_or_ge (8 * s.cfg.bMax) (bits.length + 32) with hfull | hfit
      · exact .inr (.inl ⟨hfull, hflush hall hfull⟩)
      · obtain ⟨t, ht, hdone, hbits, hcount, hlow, hhigh, _⟩ := rcEncWritesTheReferenceBits s shares bits last hc hf
          hone hlen hm hall (fun k hk => hs.2 k (hall ▸ hk)) he hfit
        exact .inl ⟨hall, t, ht, hdone, hbits, hcount, hlow, hhigh⟩
    · exact .inr (.inr (.inl ⟨hfit, hlt, hno, hmiss hfit hlt hno⟩))
    · exact .inr (.inr (.inr ⟨hfit, hlt, hcol hfit share hmore hnone, share, hmore, hnone⟩))

/-- What `RC_ENC` does before its first symbol (R84, R91, R147). -/
theorem rcEnc_start_cases {s : State} (hf : s.regs.fault = false) :
    Raises .rcEnc s .badLength 0 ∨ Raises .rcEnc s .modelInvalid 0 ∨
    (s.regs.symcnt.toNat = 0 ∧ ∃ t, exec .rcEnc s = .next t ∧ Completed t) ∨
    (1 ≤ s.regs.symcnt.toNat ∧ s.regs.symcnt.toNat ≤ s.cfg.sMax ∧ ModelOk s) := by
  rcases Nat.lt_or_ge s.cfg.sMax s.regs.symcnt.toNat with hlong | hlen
  · exact .inl ((raises_rcEnc_iff hf).2 (rcEncBody_badLength (s := s.setDone false) hlong))
  · obtain ⟨hinvalid, _, hnothing⟩ := modelCheckGuardsTheRangeCommands s hf hlen .rcEnc (.inl rfl)
    rcases Nat.eq_zero_or_pos s.regs.symcnt.toNat with h0 | hone
    · exact .inr (.inr (.inl ⟨h0, hnothing h0⟩))
    · by_cases hm : ModelOk s
      · exact .inr (.inr (.inr ⟨hone, hlen, hm⟩))
      · exact .inr (.inl (hinvalid hone hm))

/-- A `RC_ENC` that completed on a symbol coded them all (R90). -/
theorem rcEnc_completed {s t : State} (hc : s.cfg.Ok) (hf : s.regs.fault = false) (hone : 1 ≤ s.regs.symcnt.toNat)
    (ht : exec .rcEnc s = .next t) (hdone : Completed t) :
    ModelOk s ∧ s.regs.symcnt.toNat ≤ s.cfg.sMax ∧ ∃ shares bits last, SharesOf s shares ∧
      shares.length = s.regs.symcnt.toNat ∧
      refEncode s.regs.total.toNat shares (0, 2 ^ 32 - 1) = some (bits, last) ∧
      bitSeq t = bits ++ natBits 32 last.1 ∧ t.regs.bitlen.toNat = bits.length + 32 ∧ t.regs.high.toNat = last.2 := by
  have hno {c : Cause} {v : Word} (hr : Raises .rcEnc s c v) : False := hr.not_completed ht hdone
  rcases rcEnc_start_cases hf with hr | hr | ⟨h0, _⟩ | ⟨_, hlen, hm⟩
  · exact (hno hr).elim
  · exact (hno hr).elim
  · omega
  · obtain ⟨shares, bits, last, hs, he, ⟨hall, u, hu, _, hbits, hcount, _, hhigh⟩ | hfault⟩ :=
      rcEnc_outcome hc hf hone hlen hm
    · obtain rfl : t = u := by simpa [ht] using hu
      exact ⟨hm, hlen, shares, bits, last, hs, hall, he, hbits, hcount, hhigh⟩
    · rcases hfault with ⟨_, hr⟩ | ⟨_, _, _, hr⟩ | ⟨_, _, hr, _⟩ <;> exact (hno hr).elim

/-- A fault of `RC_ENC` that is neither of its checks' is met on a symbol under a valid model. -/
theorem rcEnc_faulted {s : State} {c : Cause} {v : Word} (hc : s.cfg.Ok) (hf : s.regs.fault = false)
    (hr : Raises .rcEnc s c v) (hlength : c ≠ .badLength) (hmodel : c ≠ .modelInvalid) :
    ModelOk s ∧ s.regs.symcnt.toNat ≤ s.cfg.sMax ∧ ∃ shares bits last, SharesOf s shares ∧
      refEncode s.regs.total.toNat shares (0, 2 ^ 32 - 1) = some (bits, last) ∧ EncFaults s shares bits := by
  rcases rcEnc_start_cases hf with hr' | hr' | ⟨_, t, ht, hdone⟩ | ⟨hone, hlen, hm⟩
  · exact absurd (hr.inj hr').1 hlength
  · exact absurd (hr.inj hr').1 hmodel
  · exact absurd hdone (hr.not_completed ht)
  · obtain ⟨shares, bits, last, hs, he, ⟨_, t, ht, hdone, _⟩ | hfault⟩ := rcEnc_outcome hc hf hone hlen hm
    · exact absurd hdone (hr.not_completed ht)
    · exact ⟨hm, hlen, shares, bits, last, hs, he, hfault⟩

/-! ### The obligations -/

/-- An index below `SYMCNT` is the number its word spells. -/
theorem toNat_of_eq_ofNat {s : State} {n : Nat} {v : Word} (h : v = BitVec.ofNat 32 n)
    (hn : n < s.regs.symcnt.toNat) : v.toNat = n := by
  rw [h, BitVec.toNat_ofNat, Nat.mod_eq_of_lt (hn.trans s.regs.symcnt.isLt)]

/-- Settles O33: each fault has its own cause, so the cause tells which one was met. -/
theorem rcEncFaultsNameTheSymbol : Obligations.RcEncFaultsNameTheSymbol := by
  intro s info hc hf
  constructor
  · intro hr
    obtain ⟨_, _, shares, bits, last, hs, he, ⟨_, hr'⟩ | ⟨hfit, hlt, hno, hr'⟩ | ⟨_, _, hr', _⟩⟩ :=
      rcEnc_faulted hc hf hr (by decide) (by decide)
    · exact absurd (hr.inj hr').1 (by decide)
    · have hinfo := toNat_of_eq_ofNat (hr.inj hr').2 hlt
      rw [hinfo]
      exact ⟨hlt, hno, shares, bits, last, hs, rfl, he, hfit⟩
    · exact absurd (hr.inj hr').1 (by decide)
  · intro hr
    obtain ⟨_, _, shares, bits, last, hs, he, ⟨_, hr'⟩ | ⟨_, _, _, hr'⟩ | ⟨hfit, hlt, hr', share, hmore, hnone⟩⟩ :=
      rcEnc_faulted hc hf hr (by decide) (by decide)
    · exact absurd (hr.inj hr').1 (by decide)
    · exact absurd (hr.inj hr').1 (by decide)
    · have hinfo := toNat_of_eq_ofNat (hr.inj hr').2 hlt
      rw [hinfo]
      exact ⟨hlt, shares, share, bits, last, hmore, rfl, he, hfit, hnone⟩

/-- Settles O37: a symbol gives at most 32 bits, and the flush 32. -/
theorem rcEncOutputSize : Obligations.RcEncOutputSize := by
  intro s t hc hf ht
  constructor
  · intro hone hdone
    obtain ⟨hm, _, shares, bits, last, hs, hall, he, _, hcount, _⟩ := rcEnc_completed hc hf hone ht hdone
    obtain ⟨_, hsize⟩ := refEncode_bounds inOrder_start (hs.sharesFrom.le_total hm) he
    omega
  · intro hroom info hraised
    have hr : Raises .rcEnc s .overflow info := ⟨t, ht, hraised⟩
    obtain ⟨hm, hlen, shares, bits, last, hs, he, ⟨hfull, _⟩ | ⟨_, _, _, hr'⟩ | ⟨_, _, hr', _⟩⟩ :=
      rcEnc_faulted hc hf hr (by decide) (by decide)
    · obtain ⟨_, hsize⟩ := refEncode_bounds inOrder_start (hs.sharesFrom.le_total hm) he
      have := hs.1
      omega
    · exact absurd (hr.inj hr').1 (by decide)
    · exact absurd (hr.inj hr').1 (by decide)

/-- Shares that are all of `total` leave the whole range as it is and give no bit. -/
theorem refEncode_whole {total : Nat} (ht : 0 < total) (n : Nat) :
    refEncode total (List.replicate n (0, total)) (0, 2 ^ 32 - 1) = some ([], (0, 2 ^ 32 - 1)) := by
  have hn : refNarrow total (0, total) (0, 2 ^ 32 - 1) = some (0, 2 ^ 32 - 1) := by
    simp [refNarrow, Nat.mul_div_cancel _ ht]
  have hr : refRenorm 32 (0, 2 ^ 32 - 1) = ([], (0, 2 ^ 32 - 1)) := refRenorm_stop (by decide)
  induction n with
  | zero => rfl
  | succ n ih => rw [List.replicate_succ, refEncode_cons hn, hr, ih]; rfl

/-- Bytes all of whose bits are 0 in the bit sequence are 0. -/
theorem memRead_bitmem_eq_zero {s : State} {b : Nat} (hlen : 8 * b + 8 ≤ s.regs.bitlen.toNat)
    (h : ∀ p, getbit s p = false) : memRead s .bitmem b = 0 := by
  apply BitVec.eq_of_getLsbD_eq
  intro i hi
  rw [show (0 : Word).getLsbD i = false from BitVec.getLsbD_zero]
  rcases Nat.lt_or_ge i 8 with hlow | hhigh
  · have hp := h (8 * b + (7 - i))
    have hlt : 8 * b + (7 - i) < s.regs.bitlen.toNat := by omega
    have hbyte : (8 * b + (7 - i)) / 8 = b := by omega
    have hbit : 7 - (8 * b + (7 - i)) % 8 = i := by omega
    rwa [getbit, if_pos hlt, hbyte, hbit] at hp
  · exact Nat.testBit_lt_two_pow ((memRead_bitmem_lt s b).trans_le (Nat.pow_le_pow_right (by decide) hhigh))

/-- Settles O32: the entry's share is the whole of `TOTAL`, so no symbol narrows the range. -/
theorem rcEncOfOneEntryModelIsZeros : Obligations.RcEncOfOneEntryModelIsZeros := by
  intro s hc hbytes hf hcount hm hone hlen hsyms
  have hshare : shareAt s 0 = (0, s.regs.total.toNat) := by
    obtain ⟨_, _, _, _, hzero, _, hlast⟩ := hm
    rw [hcount, hzero] at hlast
    rw [shareAt, hzero, ← hlast, Nat.zero_add]
  obtain ⟨t, ht, hdone, hbits, hlength, hlow, hhigh, hidx⟩ := rcEncWritesTheReferenceBits s
    (List.replicate s.regs.symcnt.toNat (0, s.regs.total.toNat)) [] (0, 2 ^ 32 - 1) hc hf hone hlen hm (by simp)
    (fun k hk => ⟨0, by omega, (hsyms k hk).symm, by simp [hk, ← hshare, shareAt]⟩)
    (refEncode_whole hm.total_pos _) (by simp; omega)
  have hlen32 : t.regs.bitlen.toNat = 32 := hlength
  have hzero (p : Nat) : getbit t p = false := by
    rcases Nat.lt_or_ge p t.regs.bitlen.toNat with hp | hp
    · have hmem : getbit t p ∈ bitSeq t := List.mem_map.2 ⟨p, List.mem_range.2 hp, rfl⟩
      rw [hbits, List.nil_append, natBits_zero] at hmem
      exact List.eq_of_mem_replicate hmem
    · exact getbit_of_ge t hp
  exact ⟨t, ht, hdone, BitVec.eq_of_toNat_eq hlen32, fun b hb => memRead_bitmem_eq_zero (by omega) hzero, hlow,
    BitVec.eq_of_toNat_eq hhigh, hidx⟩

/-- A memory whose first elements are listed. -/
def Memory.ofList (vs : List Word) : Memory 32 := { cells := (List.range vs.length).zip vs, base := 0, spoilt := [] }

/-- Eight symbols 0x32 under the model of R100, with total 17, on an engine otherwise as reset left it. -/
def collapsing : State :=
  { State.reset with
    regs := { Regs.reset with symcnt := 8, total := 17, mcount := 5 }
    arr := { Arrays.unspecified 0 with
      msym := .ofList [0x30, 0x31, 0x32, 0x33, 0x34]
      mfreq := .ofList [3, 5, 1, 5, 3]
      mcum := .ofList [0, 3, 8, 9, 14]
      symmem := .ofList (List.replicate 8 0x32) } }

/-- Settles O36, by running the model. -/
theorem rangeCollapseIsReachable : Obligations.RangeCollapseIsReachable := by
  refine ⟨collapsing, ?_, ?_, ?_, ?_, ?_, ?_, _, rfl, ?_⟩ <;> decide +kernel

end Sys2Proof.Machine
end

section
/-! PROOFS. `RC_DEC` against exact interval decoding (R93 to R99): under a valid model it decodes every bit sequence
followed by zeros, and the encoder's bits to the encoder's symbols. -/

namespace Sys2Proof.Machine

/-! ### What the decoder writes -/

/-- States that differ in the symbol memory read the same in every other array. -/
theorem memRead_of_symmem {s t : State} {a : Arr} (ha : a ≠ .symmem) (hc : t.cfg = s.cfg)
    (harr : t.arr = { s.arr with symmem := t.arr.symmem }) (i : Nat) : memRead t a i = memRead s a i := by
  rw [memRead_congr (s := { s with arr := { s.arr with symmem := t.arr.symmem } }) a i hc harr]
  cases a with
  | symmem => exact absurd rfl ha
  | _ => rfl

/-- The second state is the first but for `LOW`, `HIGH`, `VALUE`, `BPTR`, `SIDX` and the symbol memory (R96). -/
abbrev DecFrame (s t : State) : Prop :=
  t = { s with
    regs := { s.regs with low := t.regs.low, high := t.regs.high, value := t.regs.value, bptr := t.regs.bptr
                          sidx := t.regs.sidx }
    arr := { s.arr with symmem := t.arr.symmem } }

namespace DecFrame
variable {s t u : State}

theorem refl (s : State) : DecFrame s s := rfl

theorem trans (h : DecFrame s t) (k : DecFrame t u) : DecFrame s u := Eq.trans k (by rw [h])

theorem cfg (h : DecFrame s t) : t.cfg = s.cfg := by rw [h]
theorem total (h : DecFrame s t) : t.regs.total = s.regs.total := by rw [h]
theorem mcount (h : DecFrame s t) : t.regs.mcount = s.regs.mcount := by rw [h]

theorem memRead (h : DecFrame s t) {a : Arr} (ha : a ≠ .symmem) (i : Nat) : memRead t a i = memRead s a i :=
  memRead_of_symmem ha h.cfg (congrArg State.arr (show t = _ from h)) i

theorem sameModel (h : DecFrame s t) : SameModel s t where
  cfg := h.cfg
  mcount := h.mcount
  total := h.total
  msym i _ := h.memRead (by decide) i
  mfreq i _ := h.memRead (by decide) i
  mcum i _ := h.memRead (by decide) i

theorem renormDec (n : Nat) (s : State) : DecFrame s (renormDec n s) := by
  obtain ⟨lo, hi, v, p, he⟩ := renormDec_frame n s
  rw [he]
  rfl

end DecFrame

/-- A symbol reads back as it was written, whatever `SYM_W` is. -/
theorem memRead_memWrite_symmem (s : State) (i : Nat) (v : Word) : memRead (memWrite s .symmem i v) .symmem i = v :=
  Memory.read_write_same _ _ _ _ _

theorem memRead_renormDec (n : Nat) (s : State) (a : Arr) (i : Nat) :
    memRead (renormDec n s) a i = memRead s a i := by
  obtain ⟨lo, hi, v, p, he⟩ := renormDec_frame n s
  rw [he, memRead_setWindow, memRead_setBounds]

/-! ### The window (R93, R95) -/

/-- `VALUE` is the window after `n` bits of the sequence `q`, and `BPTR` the position of the next bit. -/
structure Window (q : List Bool) (n : Nat) (s : State) : Prop where
  seq : bitSeq s = q
  value : s.regs.value.toNat = windowAt q n
  bptr : s.regs.bptr = BitVec.ofNat 32 (32 + n)

theorem getbit_eq_getD (s : State) (p : Nat) : getbit s p = (bitSeq s).getD p false := by
  rcases Nat.lt_or_ge p (bitSeq s).length with hp | hp
  · rw [List.getD_eq_getElem _ _ hp, bitSeq_getElem]
  · rw [List.getD_eq_default _ _ hp, getbit_of_ge s (by rwa [bitSeq_length] at hp)]

/-- An iteration of `RENORM_DEC` shifts the window by one bit (R95). -/
theorem Window.shift {q : List Bool} {n : Nat} {s : State} (h : Window q n s) (hn : 32 + n < 2 ^ 32) :
    Window q (n + 1) (shiftWindow s) := by
  obtain ⟨hseq, hvalue, hbptr⟩ := h
  have hpos : s.regs.bptr.toNat = n + 32 := by rw [hbptr, BitVec.toNat_ofNat, Nat.mod_eq_of_lt hn, Nat.add_comm]
  refine ⟨hseq, ?_, ?_⟩
  · have hbit := getbit_eq_getD s (n + 32)
    rw [hseq] at hbit
    have hsucc := windowAt_succ q n
    have hlt := windowAt_lt q (n + 1)
    have hin := Bool.toNat_le (q.getD (n + 32) false)
    simp only [shiftWindow, setWindow_value, hpos, hbit, hvalue, trunc32, BitVec.toNat_add, BitVec.toNat_ofNat]
    omega
  · simp only [shiftWindow, setWindow_bptr, hbptr]
    bv_omega

/-- `RENORM_DEC` doubles the interval and shifts the window by as many bits (R95). -/
theorem renormDec_window {q : List Bool} {n : Nat} (m : Nat) {s : State} (h : InOrder (bounds s))
    (hw : Window q n s) (hn : 32 + n + m ≤ 2 ^ 32) :
    bounds (renormDec m s) = (refRenorm m (bounds s)).2 ∧
    Window q (n + (refRenorm m (bounds s)).1.length) (renormDec m s) := by
  induction m generalizing n s with
  | zero => exact ⟨rfl, hw⟩
  | succ m ih =>
    cases htop : topBitsAgree s with
    | false =>
      rw [renormDec_stop htop, refRenorm_stop (mt (topBitsAgree_iff_oneHalf h).2 (by simp [htop]))]
      exact ⟨rfl, hw⟩
    | true =>
      have hhalf := (topBitsAgree_iff_oneHalf h).1 htop
      have hb := bounds_shiftWindow s
      have hnext := ih (s := shiftWindow s) (hb ▸ inOrder_doubled h hhalf) (hw.shift (by omega)) (by omega)
      rw [hb, Nat.add_assoc, Nat.add_comm 1] at hnext
      rw [renormDec_shift htop, refRenorm_go h hhalf]
      exact hnext

/-! ### Symbols (R96) -/

/-- The decoder after `k` symbols, with `n` bits of the sequence `q` shifted out and the interval `b`, in which the window
lies. -/
structure Decoding (q : List Bool) (k n : Nat) (b : Nat × Nat) (s : State) : Prop where
  inOrder : InOrder b
  bounds : bounds s = b
  window : Window q n s
  holds : Holds b (windowAt q n)
  sidx : s.regs.sidx = BitVec.ofNat 32 k

theorem Decoding.start (s : State) : Decoding (bitSeq s) 0 0 (0, 2 ^ 32 - 1) (decStart s) where
  inOrder := inOrder_start
  bounds := rfl
  window := by
    have hval : (List.range 32).map (getbit (startBounds s)) =
        (List.range 32).map fun p => (bitSeq s).getD (0 + p) false :=
      List.map_congr_left fun p _ => by rw [Nat.zero_add, ← getbit_eq_getD]; rfl
    refine ⟨rfl, ?_, rfl⟩
    simp only [decStart, decInit, setWindow_value, trunc32, BitVec.toNat_ofNat, hval]
    exact Nat.mod_eq_of_lt (windowAt_lt _ _)
  holds := ⟨Nat.zero_le _, Nat.le_pred_of_lt (windowAt_lt _ _)⟩
  sidx := rfl

/-- What one symbol of the decoder comes to: entry `i` is selected, its symbol is written at `k` and nothing else of the
symbol memory, and the interval `c` that its share leaves is doubled. -/
structure DecodesOne (q : List Bool) (k n i : Nat) (b c : Nat × Nat) (s t : State) : Prop where
  entry : i < s.regs.mcount.toNat
  share : InShare (shareAt s i) (refScaled s.regs.total.toNat (windowAt q n) b)
  narrowed : refNarrow s.regs.total.toNat (shareAt s i) b = some c
  frame : DecFrame s t
  next : Decoding q (k + 1) (n + (refRenorm 32 c).1.length) (refRenorm 32 c).2 t
  symbol : memRead t .symmem k = memRead s .msym i
  others : ∀ j, j ≠ k → memRead t .symmem j = memRead s .symmem j

/-- Under a valid model each symbol decodes (R98). -/
theorem decodeSymbol_decodes {q : List Bool} {k n : Nat} {b : Nat × Nat} {s : State} (hm : ModelOk s)
    (h : Decoding q k n b s) (hn : 32 + n + 32 ≤ 2 ^ 32) :
    ∃ i c t, decodeSymbol k s = .ok t ∧ DecodesOne q k n i b c s t := by
  obtain ⟨hord, rfl, hw, hholds, _⟩ := h
  obtain ⟨i, hi, hsel, hshare⟩ := decSelect_finds k hm hord (hw.value.symm ▸ hholds)
  rw [hw.value] at hshare
  obtain ⟨c, hc, hcw⟩ := (inShare_refScaled_iff hm.total_pos hholds).1 hshare
  have hordc := (refNarrow_inside hord (hm.share_le_total hi) hc).1
  obtain ⟨u, hu, hb, hframe⟩ := narrow_takes k hord (hm.share_le_total hi) hc
  obtain ⟨lo, hi', rfl⟩ : ∃ lo hi, u = s.setBounds lo hi := ⟨_, _, hframe⟩
  have hdec : decodeSymbol k s = .ok ((renormDec 32 (memWrite (s.setBounds lo hi') .symmem k
      (memRead s .msym i))).setSidx (BitVec.ofNat 32 (k + 1))) := by
    simp only [decodeSymbol, hsel, ok_bind, hu, memRead_setBounds]
  have hsym := memRead_memWrite_symmem (s.setBounds lo hi') k (memRead s .msym i)
  have hothers (j : Nat) (hj : j ≠ k) := memRead_memWrite_index (s.setBounds lo hi') .symmem (memRead s .msym i) hj
  have hkeep : DecFrame s (memWrite (s.setBounds lo hi') .symmem k (memRead s .msym i)) := rfl
  have hbv : bounds (memWrite (s.setBounds lo hi') .symmem k (memRead s .msym i)) = c := hb
  have hwv : Window q n (memWrite (s.setBounds lo hi') .symmem k (memRead s .msym i)) :=
    ⟨hw.seq, hw.value, hw.bptr⟩
  generalize memWrite (s.setBounds lo hi') .symmem k (memRead s .msym i) = v at hdec hsym hothers hkeep hbv hwv
  obtain ⟨hbt, hwt⟩ := renormDec_window 32 (hbv.symm ▸ hordc) hwv hn
  rw [hbv] at hbt hwt
  refine ⟨i, c, (renormDec 32 v).setSidx (BitVec.ofNat 32 (k + 1)), hdec, ?_⟩
  exact {
    entry := hi
    share := hshare
    narrowed := hc
    frame := (hkeep.trans (.renormDec 32 v)).trans rfl
    next := ⟨inOrder_refRenorm 32 hordc, hbt, ⟨hwt.seq, hwt.value, hwt.bptr⟩, hcw.refRenorm 32 hordc, rfl⟩
    symbol := by rw [memRead_setSidx, memRead_renormDec, hsym]
    others := fun j hj => by rw [memRead_setSidx, memRead_renormDec, hothers j hj, memRead_setBounds] }

/-- What the symbols `k` to `k + m - 1` of the decoder come to: the entries `picked` by exact interval decoding. -/
structure DecodesAll (q : List Bool) (k m n : Nat) (b : Nat × Nat) (picked : List Nat) (last : Nat × Nat) (n' : Nat)
    (s t : State) : Prop where
  decoded : refDecode s.regs.total.toNat (modelShares s) q m b n = some (picked, last, n')
  count : picked.length = m
  frame : DecFrame s t
  final : Decoding q (k + m) n' last t
  shifted : n' ≤ n + 32 * m
  symbols : ∀ j i, picked[j]? = some i → i < s.regs.mcount.toNat ∧ memRead t .symmem (k + j) = memRead s .msym i
  earlier : ∀ j, j < k → memRead t .symmem j = memRead s .symmem j

/-- Under a valid model all symbols decode (R98). -/
theorem decodeSymbols_decode {q : List Bool} {k m n : Nat} {b : Nat × Nat} {s : State} (hm : ModelOk s)
    (h : Decoding q k n b s) (hn : 32 + n + 32 * m ≤ 2 ^ 32) :
    ∃ picked last n' t, forLoop decodeSymbol m k s = .ok t ∧ DecodesAll q k m n b picked last n' s t := by
  induction m generalizing k n b s with
  | zero => exact ⟨[], b, n, s, rfl, rfl, rfl, .refl s, h, Nat.le_refl _, by simp, fun _ _ => rfl⟩
  | succ m ih =>
    obtain ⟨i, c, t, ht, hone⟩ := decodeSymbol_decodes hm h (by omega)
    have hsize := refRenorm_length_le 32
      (refNarrow_inside h.inOrder (hm.share_le_total hone.entry) hone.narrowed).1
    have hsame := hone.frame.sameModel
    obtain ⟨picked, last, n', u, hu, hall⟩ := ih (hsame.modelOk hm) hone.next (by omega)
    refine ⟨i :: picked, last, n', u, ?_, ?_, ?_, hone.frame.trans hall.frame, ?_, ?_, ?_, fun j hj => ?_⟩
    · rw [forLoop_succ, ht]
      exact hu
    · have hdec := hall.decoded
      rw [hone.frame.total, hsame.modelShares] at hdec
      rw [refDecode_succ (hm.findIdx_modelShares hone.entry hone.share)
        (modelShares_getD hone.entry ▸ hone.narrowed), hdec]
      rfl
    · rw [List.length_cons, hall.count]
    · rw [Nat.add_comm m 1, ← Nat.add_assoc]
      exact hall.final
    · have := hall.shifted
      omega
    · intro j x hj
      cases j with
      | zero =>
        obtain rfl : i = x := by simpa using hj
        exact ⟨hone.entry, (hall.earlier k (Nat.lt_succ_self k)).trans hone.symbol⟩
      | succ j =>
        obtain ⟨hx, hsym⟩ := hall.symbols j x (by simpa using hj)
        have hx' : x < s.regs.mcount.toNat := hone.frame.mcount ▸ hx
        refine ⟨hx', ?_⟩
        rw [Nat.add_comm j 1, ← Nat.add_assoc, hsym]
        exact hsame.msym x hx'
    · rw [hall.earlier j (by omega), hone.others j (by omega)]

/-! ### The command -/

theorem symcnt_le {s : State} (hc : s.cfg.Ok) (hlen : s.regs.symcnt.toNat ≤ s.cfg.sMax) :
    s.regs.symcnt.toNat ≤ 2 ^ 18 := by
  obtain ⟨_, _, _, _, ⟨_, hs⟩, _, _⟩ := hc
  exact hlen.trans hs

/-- Under a valid model, or with no symbol to decode, `RC_DEC` decodes every bit sequence (R96 to R98). -/
theorem rcDecBody_decodes {s : State} (hc : s.cfg.Ok) (hlen : s.regs.symcnt.toNat ≤ s.cfg.sMax)
    (hbits : s.regs.bitlen.toNat ≤ 8 * s.cfg.bMax) (hm : s.regs.symcnt.toNat = 0 ∨ ModelOk s) :
    ∃ picked last n t, rcDecBody s = .ok t ∧
      DecodesAll (bitSeq s) 0 s.regs.symcnt.toNat 0 (0, 2 ^ 32 - 1) picked last n s t := by
  have hstart := Decoding.start s
  rcases Nat.eq_zero_or_pos s.regs.symcnt.toNat with h0 | hone
  · refine ⟨[], (0, 2 ^ 32 - 1), 0, decStart s, rcDecBody_nothing h0 hbits, ?_⟩
    rw [h0]
    exact ⟨rfl, rfl, rfl, hstart, Nat.le_refl _, by simp, fun _ _ => rfl⟩
  · have hm := hm.resolve_left (Nat.ne_of_gt hone)
    have hs := symcnt_le hc hlen
    obtain ⟨picked, last, n, t, ht, hall⟩ := decodeSymbols_decode (m := s.regs.symcnt.toNat)
      ((sameModel_decStart s).modelOk hm) hstart (by omega)
    exact ⟨picked, last, n, t, (rcDecBody_valid hlen hbits hone hm).trans ht, hall.decoded, hall.count,
      DecFrame.trans (t := decStart s) rfl hall.frame, hall.final, hall.shifted, hall.symbols, hall.earlier⟩

/-- `BPTR` does not wrap. -/
theorem DecodesAll.bptr {q : List Bool} {m n : Nat} {b last : Nat × Nat} {picked : List Nat} {s t : State}
    (h : DecodesAll q 0 m 0 b picked last n s t) (hm : m ≤ 2 ^ 18) : t.regs.bptr.toNat = 32 + n := by
  have := h.shifted
  rw [h.final.window.bptr, BitVec.toNat_ofNat, Nat.mod_eq_of_lt (by omega)]

/-- The symbols of `RC_DEC` are those of the entries picked. -/
theorem DecodesAll.symbol {q : List Bool} {m n : Nat} {b last : Nat × Nat} {picked : List Nat} {s t : State}
    (h : DecodesAll q 0 m 0 b picked last n s t) {k i : Nat} (hk : picked[k]? = some i) :
    i < s.regs.mcount.toNat ∧ memRead t .symmem k = memRead s .msym i := by
  have := h.symbols k i hk
  rwa [Nat.zero_add] at this

theorem DecodesAll.sidx {q : List Bool} {n : Nat} {b last : Nat × Nat} {picked : List Nat} {s t : State}
    (h : DecodesAll q 0 s.regs.symcnt.toNat 0 b picked last n s t) : t.regs.sidx = s.regs.symcnt := by
  have := h.final.sidx
  rwa [Nat.zero_add, BitVec.ofNat_toNat, BitVec.setWidth_eq] at this

/-! ### Decoding what was encoded (R99) -/

/-- Decoding a sequence that begins with the bits of coded shares and their last lower bound picks the entries of those
shares. -/
theorem refDecode_refEncode {s : State} (hm : ModelOk s) {q : List Bool} {entries : List Nat} {b last : Nat × Nat}
    {bits : List Bool} {n : Nat} (h : InOrder b) (hi : ∀ i ∈ entries, i < s.regs.mcount.toNat)
    (he : refEncode s.regs.total.toNat (entries.map (shareAt s)) b = some (bits, last))
    (hq : bits ++ natBits 32 last.1 <+: q.drop n) :
    Holds b (windowAt q n) ∧
    refDecode s.regs.total.toNat (modelShares s) q entries.length b n = some (entries, last, n + bits.length) ∧
    windowAt q (n + bits.length) = last.1 := by
  induction entries generalizing b bits n with
  | nil =>
    obtain ⟨rfl, rfl⟩ : [] = bits ∧ b = last := by simpa [refEncode] using he
    have hw := windowAt_natBits (h.1.trans_lt h.2) hq
    exact ⟨hw.symm ▸ ⟨Nat.le_refl _, h.1⟩, rfl, hw⟩
  | cons i rest ih =>
    obtain ⟨c, more, hc, hmore, rfl⟩ := refEncode_cons_eq_some.1 he
    have hin := hi i List.mem_cons_self
    obtain ⟨hordc, hlow, hhigh⟩ := refNarrow_inside h (hm.share_le_total hin) hc
    rw [List.append_assoc] at hq
    have hnext : more ++ natBits 32 last.1 <+: q.drop (n + (refRenorm 32 c).1.length) := by
      obtain ⟨tail, htail⟩ := hq
      exact ⟨tail, by rw [← List.drop_drop, ← htail, List.append_assoc (refRenorm 32 c).1, List.drop_left]⟩
    obtain ⟨hholds, hdec, hwin⟩ := ih (inOrder_refRenorm 32 hordc) (fun j hj => hi j (List.mem_cons_of_mem _ hj))
      hmore hnext
    have hcw := hholds.of_refRenorm 32 hordc ((List.prefix_append _ _).trans hq)
    have hbw : Holds b (windowAt q n) := ⟨hlow.trans hcw.1, hcw.2.trans hhigh⟩
    have hshare := (inShare_refScaled_iff hm.total_pos hbw).2 ⟨c, hc, hcw⟩
    rw [List.length_append, ← Nat.add_assoc]
    refine ⟨hbw, ?_, hwin⟩
    rw [List.length_cons, refDecode_succ (hm.findIdx_modelShares hin hshare) (modelShares_getD hin ▸ hc), hdec]
    rfl

/-- Listed shares are those of the entries of their symbols. -/
theorem SharesFrom.entries {s : State} {k : Nat} {shares : List (Nat × Nat)} (h : SharesFrom s k shares) :
    ∃ entries : List Nat, shares = entries.map (shareAt s) ∧ (∀ i ∈ entries, i < s.regs.mcount.toNat) ∧
      ∀ j i, entries[j]? = some i → memRead s .msym i = memRead s .symmem (k + j) := by
  induction shares generalizing k with
  | nil => exact ⟨[], rfl, by simp, by simp⟩
  | cons share rest ih =>
    obtain ⟨i, hi, hsym, rfl⟩ := h.head
    obtain ⟨entries, rfl, hin, hsyms⟩ := ih h.tail
    refine ⟨i :: entries, rfl, by simpa using ⟨hi, hin⟩, fun j x hj => ?_⟩
    cases j with
    | zero =>
      obtain rfl : i = x := by simpa using hj
      exact hsym
    | succ j =>
      rw [Nat.add_comm j 1, ← Nat.add_assoc]
      exact hsyms j x (by simpa using hj)

/-! ### The obligations -/

/-- Settles O60, by what all symbols decode to from the first window on. -/
theorem rcDecDecodesTheReference : Obligations.RcDecDecodesTheReference := by
  intro s hc hf hlen hbits hm
  obtain ⟨picked, last, n, t, ht, hall⟩ := rcDecBody_decodes (s := s.setDone false) hc hlen hbits hm
  obtain ⟨hx, hdone⟩ := rcDec_completes hf ht
  obtain ⟨hlow, hhigh⟩ := Prod.mk.inj (Prod.eta last ▸ hall.final.bounds)
  exact ⟨picked, last, n, hall.decoded, hall.count, _, hx, hdone, fun k i hk => hall.symbol hk, hlow, hhigh,
    hall.final.window.value, hall.bptr (symcnt_le hc hlen), hall.sidx⟩

/-- Settles O34: each symbol's window selects an entry and lies in the interval that its share leaves. -/
theorem rcDecNeverFaultsOnAValidModel : Obligations.RcDecNeverFaultsOnAValidModel := by
  intro s hc hf hlen hbits hm
  obtain ⟨picked, last, n, t, ht, hall⟩ := rcDecBody_decodes (s := s.setDone false) hc hlen hbits hm
  obtain ⟨hx, hdone⟩ := rcDec_completes hf ht
  have hb := hall.final.bounds
  subst hb
  obtain ⟨hlow, hhigh⟩ := hall.final.holds
  rw [← hall.final.window.value] at hlow hhigh
  have hptr : (t.setDone true).regs.bptr.toNat = 32 + n := hall.bptr (symcnt_le hc hlen)
  have hshift : n ≤ 0 + 32 * s.regs.symcnt.toNat := hall.shifted
  refine ⟨_, hx, hdone, hall.sidx, hlow, hhigh, by omega, by omega, fun k hk => ?_⟩
  have hget := List.getElem?_eq_getElem (l := picked) (i := k) (hall.count.symm ▸ hk)
  exact ⟨_, hall.symbol hget⟩

/-- Settles O35: the reference decoder picks the entries that were coded. -/
theorem rcRoundTrip : Obligations.RcRoundTrip := by
  intro s t u hc hf hone ht hdone hfu hcfg hsymcnt hmcount htotal hreads hbits hprefix
  obtain ⟨hm, hlen, shares, bits, last, hs, hall, he, hseq, hcount, hhigh⟩ := rcEnc_completed hc hf hone ht hdone
  have hsame : SameModel s u := ⟨hcfg, hmcount, htotal, fun i hi => (hreads i hi).1, fun i hi => (hreads i hi).2.1,
    fun i hi => (hreads i hi).2.2⟩
  obtain ⟨entries, rfl, hin, hsyms⟩ := SharesFrom.entries hs.sharesFrom
  rw [List.length_map] at hall
  have hround := refDecode_refEncode hm (q := bitSeq u) (n := 0) inOrder_start hin he (by
    rw [List.drop_zero, ← hseq]
    exact hprefix)
  obtain ⟨_, hdec, hwin⟩ := hround
  obtain ⟨picked, last', n, v, hv, hdecodes⟩ := rcDecBody_decodes (s := u.setDone false)
    (hcfg ▸ hc : u.cfg.Ok) (by simpa [hsymcnt, hcfg] using hlen) hbits (.inr (hsame.modelOk hm))
  obtain ⟨hx, hdonev⟩ := rcDec_completes hfu hv
  have hpicked : refDecode s.regs.total.toNat (modelShares s) (bitSeq u) entries.length (0, 2 ^ 32 - 1) 0 =
      some (picked, last', n) := by
    rw [hall, ← htotal, ← hsame.modelShares, ← hsymcnt]
    exact hdecodes.decoded
  obtain ⟨rfl, rfl, rfl⟩ : entries = picked ∧ last = last' ∧ 0 + bits.length = n := by
    simpa using hdec.symm.trans hpicked
  obtain ⟨hlow, hhighv⟩ := Prod.mk.inj (Prod.eta last ▸ hdecodes.final.bounds)
  have hvalue := hdecodes.final.window.value
  have hptr := hdecodes.bptr (by simpa [hsymcnt] using symcnt_le hc hlen)
  refine ⟨_, hx, hdonev, fun k hk => ?_, BitVec.eq_of_toNat_eq ?_, BitVec.eq_of_toNat_eq ?_,
    BitVec.eq_of_toNat_eq (hhighv.trans hhigh.symm), ?_⟩
  · have hget := List.getElem?_eq_getElem (l := entries) (i := k) (hall.symm ▸ hk)
    obtain ⟨hi, hsym⟩ := hdecodes.symbol hget
    have hlookup := hsyms k _ hget
    rw [Nat.zero_add] at hlookup
    exact (hsym.trans (hsame.msym _ (hmcount ▸ hi))).trans hlookup
  · rw [setDone_bptr, hptr, hcount]
    omega
  · rw [setDone_value, setDone_low, hvalue, hlow]
    exact hwin
  · rw [setDone_low, hlow, hcount, Nat.add_sub_cancel, hseq, List.drop_left]

end Sys2Proof.Machine
end

section
/-! PROOFS. What `RC_ENC` and `RC_DEC` leave unchanged, whether they complete or fault (R90, R91, R96, R151). -/

namespace Sys2Proof.Machine

/-- `NARROW` writes the bounds only (R85). -/
theorem narrow_sets (i k : Nat) (s : State) : Yields (fun t => ∃ lo hi, t = s.setBounds lo hi) (narrow i k s) := by
  rcases narrow_cases i k s with ⟨_, he⟩ | ⟨_, he⟩ <;> rw [he]
  · exact .error (by decide)
  · exact .ok ⟨_, _, rfl⟩

/-! ### `RC_ENC` -/

section
variable {s t : State} (h : EncFrame s t)
include h

theorem emit_keeps (b : Bool) : Yields (EncFrame s) (emit b t) := by
  rcases emit_cases b t with ⟨_, he⟩ | ⟨_, u, he, _⟩ <;> rw [he]
  · exact .error (by decide)
  · exact .ok (h.trans (emit_encFrame he))

theorem narrow_keeps (i k : Nat) : Yields (EncFrame s) (narrow i k t) :=
  (narrow_sets i k t).mono fun _ ⟨_, _, hu⟩ => h.trans (hu ▸ rfl)

theorem renormEnc_keeps (n : Nat) : Yields (EncFrame s) (renormEnc n t) := by
  induction n generalizing t with
  | zero => exact .ok h
  | succ n ih =>
    cases htop : topBitsAgree t with
    | false => rw [renormEnc_stop htop]; exact .ok h
    | true =>
      rw [renormEnc_go htop]
      exact (emit_keeps h _).bind fun u hu => ih (t := shiftBounds u) (hu.trans rfl)

theorem flush_keeps : Yields (EncFrame s) (flush t) :=
  Yields.forLoop h fun k u _ _ hu => by
    rw [flushBit_eq_bind]
    exact (emit_keeps hu _).bind fun v hv => .ok (hv.trans rfl)

theorem encodeSymbol_keeps (k : Nat) : Yields (EncFrame s) (encodeSymbol k t) :=
  (lookupModel_yields _ k t).bind fun i _ => (narrow_keeps h i k).bind fun _ h1 =>
    (renormEnc_keeps h1 32).bind fun _ h2 => .ok (h2.trans rfl)

end

theorem rcEncBody_keeps (s : State) : Yields (EncFrame s) (rcEncBody s) := by
  have h0 : EncFrame s ((startBounds s).setBitlen 0) := rfl
  refine (checkSymcnt_yields s).bind fun _ _ => ?_
  dsimp only
  split
  · exact .ok h0
  · refine (checkModel_yields _).bind fun _ _ => ?_
    exact (Yields.forLoop h0 fun k _ _ _ hu => encodeSymbol_keeps hu k).bind fun _ ht => flush_keeps ht

/-- The bytes of the bit memory from `BITBYTES` on are those of the state `s`; the bit memory is small enough that
`BITLEN` does not wrap (R5). -/
structure BytesKept (s t : State) : Prop where
  bound : t.cfg.bMax ≤ 2 ^ 19
  bytes : SameFrom .bitmem ((t.regs.bitlen.toNat + 7) / 8) s t

/-- A bit goes into the last byte that the sequence then has (R53). -/
theorem BytesKept.stable (s : State) : EmitStable (BytesKept s) where
  regs h hr := ⟨h.bound, fun i hi => h.bytes i (hr ▸ hi)⟩
  emit {t} b h := by
    rcases emit_cases b t with ⟨_, he⟩ | ⟨hroom, u, he, _, _, hcfg, _, _, _, _, hrest⟩ <;> rw [he]
    · exact .error (by decide)
    · have hbound := h.bound
      have hlen := (emit_getbit he (by omega)).1
      refine .ok ⟨hcfg ▸ hbound, fun i hi => ?_⟩
      rw [hlen] at hi
      rw [hrest i (by omega)]
      exact h.bytes i (by omega)

/-- A completed `RC_ENC` leaves the bytes from `BITBYTES` on (R91). -/
theorem rcEnc_bytesKept {s : State} (hc : s.cfg.Ok) (hf : s.regs.fault = false)
    (hdone : Completed (runCommand rcEncBody spoilRcEnc s)) : BytesKept s (runCommand rcEncBody spoilRcEnc s) := by
  obtain ⟨_, _, _, _, _, ⟨_, hb⟩, _⟩ := hc
  have h0 : BytesKept s ((s.setDone false).setBitlen 0) := ⟨hb, fun _ _ => rfl⟩
  exact (BytesKept.stable s).of_completed ((BytesKept.stable s).rcEncBody h0) hf hdone

/-! ### `RC_DEC` -/

/-- The second state is the first but for what the decoder writes, of the symbol memory only elements below `n` (R96). -/
structure DecKept (n : Nat) (s t : State) : Prop where
  frame : DecFrame s t
  symbols : SameFrom .symmem n s t

theorem DecKept.setRegs {n : Nat} {s t u : State} (h : DecKept n s t) (hu : DecFrame t u) (ha : u.arr = t.arr) :
    DecKept n s u where
  frame := h.frame.trans hu
  symbols i hi := (memRead_congr .symmem i hu.cfg ha).trans (h.symbols i hi)

theorem decodeSymbol_keeps {n k : Nat} {s t : State} (h : DecKept n s t) (hk : k < n) :
    Yields (DecKept n s) (decodeSymbol k t) := by
  refine (decSelect_yields k t).bind fun i _ => (narrow_sets i k t).bind fun u ⟨lo, hi, hu⟩ => ?_
  subst hu
  have h1 : DecKept n s (t.setBounds lo hi) := h.setRegs rfl rfl
  have h2 : DecKept n s (memWrite (t.setBounds lo hi) .symmem k (memRead (t.setBounds lo hi) .msym i)) :=
    ⟨h1.frame.trans rfl, fun j hj => (memRead_memWrite_index _ .symmem _ (by omega)).trans (h1.symbols j hj)⟩
  have h3 : DecKept n s (renormDec 32 (memWrite (t.setBounds lo hi) .symmem k (memRead (t.setBounds lo hi) .msym i))) :=
    ⟨h2.frame.trans (.renormDec 32 _), fun j hj => (memRead_renormDec 32 _ _ _).trans (h2.symbols j hj)⟩
  exact .ok (h3.setRegs rfl rfl)

theorem rcDecBody_keeps (s : State) : Yields (DecKept s.regs.symcnt.toNat s) (rcDecBody s) := by
  have h0 : DecKept s.regs.symcnt.toNat s (decInit (startBounds s)) := ⟨rfl, fun _ _ => rfl⟩
  refine (checkSymcnt_yields s).bind fun _ _ => (checkBitlen_yields s).bind fun _ _ => ?_
  dsimp only
  split
  · exact .ok h0
  · refine (checkModel_yields _).bind fun _ _ => Yields.forLoop h0 fun k u _ hk hu => ?_
    exact decodeSymbol_keeps hu (by rwa [Nat.zero_add] at hk)

/-- A faulting `RC_DEC` leaves the symbols from `SYMCNT` on (R151). -/
theorem spoilRcDec_symbols (s : State) : SameFrom .symmem s.regs.symcnt.toNat s (spoilRcDec s) :=
  fun _ hi => Memory.read_spoil_ge _ _ _ ((Nat.min_le_left _ _).trans hi)

/-! ### The commands -/

/-- The second state is the first but for the flags, what `RC_ENC` writes, and the number of draws. -/
abbrev EncLeaves (s t : State) : Prop :=
  t = { s with
    regs := { s.regs with
      done := t.regs.done, fault := t.regs.fault, err := t.regs.err, errinfo := t.regs.errinfo
      bitlen := t.regs.bitlen, low := t.regs.low, high := t.regs.high, sidx := t.regs.sidx }
    arr := { s.arr with bitmem := t.arr.bitmem }
    draws := t.draws }

theorem rcEnc_leaves {s : State} (hf : s.regs.fault = false) : EncLeaves s (runCommand rcEncBody spoilRcEnc s) := by
  rcases runCommand_cases rcEncBody spoilRcEnc s with ⟨hyes, _⟩ | ⟨_, u, hu, he⟩ | ⟨_, r, _, he⟩
  · exact absurd (hf.symm.trans hyes) (by decide)
  · have hframe : EncFrame (s.setDone false) u := (rcEncBody_keeps _).of_ok hu
    rw [he, hframe]
    rfl
  · rw [he]
    rfl

/-- The second state is the first but for the flags, what `RC_DEC` writes, and the number of draws. -/
abbrev DecLeaves (s t : State) : Prop :=
  t = { s with
    regs := { s.regs with
      done := t.regs.done, fault := t.regs.fault, err := t.regs.err, errinfo := t.regs.errinfo
      low := t.regs.low, high := t.regs.high, value := t.regs.value, bptr := t.regs.bptr, sidx := t.regs.sidx }
    arr := { s.arr with symmem := t.arr.symmem }
    draws := t.draws }

theorem rcDec_leaves {s : State} (hf : s.regs.fault = false) :
    DecLeaves s (runCommand rcDecBody spoilRcDec s) ∧
    SameFrom .symmem s.regs.symcnt.toNat s (runCommand rcDecBody spoilRcDec s) := by
  rcases runCommand_cases rcDecBody spoilRcDec s with ⟨hyes, _⟩ | ⟨_, u, hu, he⟩ | ⟨_, r, _, he⟩
  · exact absurd (hf.symm.trans hyes) (by decide)
  · obtain ⟨hframe, hsyms⟩ := (rcDecBody_keeps _).of_ok hu
    rw [he]
    refine ⟨?_, hsyms⟩
    rw [hframe]
    rfl
  · rw [he]
    exact ⟨rfl, spoilRcDec_symbols (s.setDone false)⟩

/-! ### The obligation -/

/-- Settles O51, by what the bodies keep, and by what the faults leave. -/
theorem rangeCommandsFrame : Obligations.RangeCommandsFrame := by
  intro s t hf
  constructor
  · intro ht
    obtain rfl : runCommand rcEncBody spoilRcEnc s = t := by simpa [exec, execRcEnc] using ht
    have hleaves := rcEnc_leaves hf
    have hbytes := rcEnc_bytesKept (s := s) (hf := hf)
    generalize runCommand rcEncBody spoilRcEnc s = t at hleaves hbytes
    have hcfg : t.cfg = s.cfg := by rw [hleaves]
    have harr : t.arr = { s.arr with bitmem := t.arr.bitmem } := congrArg State.arr (show t = _ from hleaves)
    refine ⟨congrArg State.regs (show t = _ from hleaves), fun a ha => memRead_of_bitmem ha hcfg harr,
      fun hc hdone => (hbytes hc hdone).bytes, hcfg, ?_, ?_⟩ <;> rw [hleaves]
  · intro ht
    obtain rfl : runCommand rcDecBody spoilRcDec s = t := by simpa [exec, execRcDec] using ht
    obtain ⟨hleaves, hsyms⟩ := rcDec_leaves hf
    generalize runCommand rcDecBody spoilRcDec s = t at hleaves hsyms
    have hcfg : t.cfg = s.cfg := by rw [hleaves]
    have harr : t.arr = { s.arr with symmem := t.arr.symmem } := congrArg State.arr (show t = _ from hleaves)
    refine ⟨congrArg State.regs (show t = _ from hleaves), fun a ha => memRead_of_symmem ha hcfg harr, hsyms, hcfg,
      ?_, ?_⟩ <;> rw [hleaves]

end Sys2Proof.Machine
end

section
/-! PROOFS. How the table commands start (R110 to R112, R147), which faults their loops can raise, and what a valid
table answers (R113). -/

namespace Sys2Proof.Machine

/-! ### How a dispatched command ended -/

section
variable {i : Instr} {body : State → Except Raise State} {spoil : State → State} {s : State}
  (hx : ∀ s, exec i s = .next (runCommand body spoil s)) (hf : s.regs.fault = false)
include hx hf

theorem raises_iff_body {c : Cause} {info : Word} (hsp : ∀ u, Keeps u (spoil u)) :
    Raises i s c info ↔ body (s.setDone false) = .error { cause := c, info := info } := by
  rw [← raised_runCommand_iff hf hsp]
  refine ⟨fun ⟨t, ht, h⟩ => ?_, fun h => ⟨_, hx s, h⟩⟩
  obtain rfl : runCommand body spoil s = t := by simpa [hx] using ht
  exact h

theorem completes_of_body {t : State} (hb : ∀ u, Yields (Runs u) (body u)) (ht : body (s.setDone false) = .ok t) :
    exec i s = .next (t.setDone true) ∧ Completed (t.setDone true) := by
  obtain ⟨he, hc⟩ := completed_runCommand (spoil := spoil) hf hb ht
  exact ⟨(hx s).trans (congrArg _ he), hc⟩

end

section
variable {s : State} (hf : s.regs.fault = false)
include hf

theorem raises_bpEnc_iff {c : Cause} {info : Word} :
    Raises .bpEnc s c info ↔ bpEncBody (s.setDone false) = .error { cause := c, info := info } :=
  raises_iff_body (fun _ => rfl) hf spoilBpEnc_keeps

theorem raises_bpDec_iff {c : Cause} {info : Word} :
    Raises .bpDec s c info ↔ bpDecBody (s.setDone false) = .error { cause := c, info := info } :=
  raises_iff_body (fun _ => rfl) hf spoilBpDec_keeps

theorem bpEnc_completes {t : State} (ht : bpEncBody (s.setDone false) = .ok t) :
    exec .bpEnc s = .next (t.setDone true) ∧ Completed (t.setDone true) :=
  completes_of_body (fun _ => rfl) hf bpEncBody_yields ht

theorem bpDec_completes {t : State} (ht : bpDecBody (s.setDone false) = .ok t) :
    exec .bpDec s = .next (t.setDone true) ∧ Completed (t.setDone true) :=
  completes_of_body (fun _ => rfl) hf bpDecBody_yields ht

end

/-! ### States with the same code table -/

/-- The parameters, `CCOUNT` and the code table entries in use are the same (R32). -/
abbrev SameTable (s t : State) : Prop := Renames id s.regs.ccount.toNat s t

theorem SameTable.of_reads {s t : State} (hc : t.cfg = s.cfg) (hcount : t.regs.ccount = s.regs.ccount)
    (h : ∀ j < s.regs.ccount.toNat, memRead t .csym j = memRead s .csym j ∧
      memRead t .clen j = memRead s .clen j ∧ memRead t .cbits j = memRead s .cbits j) : SameTable s t :=
  ⟨hc, rfl, congrArg BitVec.toNat hcount, fun _ hj => hj, fun _ _ _ _ he => he, fun j hj => (h j hj).1,
    fun j hj => (h j hj).2.1, fun j hj => (h j hj).2.2⟩

/-! ### How the commands start -/

/-- The state in which `BP_ENC` codes its first symbol (R111). -/
def packStart (s : State) : State := (s.setSidx 0).setBitlen 0

/-- The state in which `BP_DEC` reads its first bit (R112). -/
def unpackStart (s : State) : State := (s.setSidx 0).setBptr 0

/-- What `BP_DEC` writes at its end: the number of symbols, and the bits left over (R112). -/
def unpackEnd (x : State × List Bool) : State := x.1.setTail x.1.regs.sidx (BitVec.ofNat 32 x.2.length)

theorem sameTable_packStart (s : State) : SameTable s (packStart s) :=
  .of_reads rfl rfl fun _ _ => ⟨rfl, rfl, rfl⟩

theorem sameTable_unpackStart (s : State) : SameTable s (unpackStart s) :=
  .of_reads rfl rfl fun _ _ => ⟨rfl, rfl, rfl⟩

theorem bpEncBody_badLength {s : State} (h : s.cfg.sMax < s.regs.symcnt.toNat) :
    bpEncBody s = .error { cause := .badLength, info := 0 } := by
  simp only [bpEncBody, checkSymcnt, if_pos h, error_bind]

theorem bpDecBody_badLength {s : State} (h : 8 * s.cfg.bMax < s.regs.bitlen.toNat) :
    bpDecBody s = .error { cause := .badLength, info := 1 } := by
  simp only [bpDecBody, checkBitlen, if_pos h, error_bind]

theorem bpEncBody_start {s : State} (hlen : s.regs.symcnt.toNat ≤ s.cfg.sMax) :
    bpEncBody s = (checkTable s >>= fun _ => forLoop packSymbol s.regs.symcnt.toNat 0 (packStart s)) := by
  rw [← (sameTable_packStart s).checkTable, bpEncBody, checkSymcnt_ok hlen, ok_bind]
  rfl

theorem bpDecBody_start {s : State} (hbits : s.regs.bitlen.toNat ≤ 8 * s.cfg.bMax) :
    bpDecBody s = (checkTable s >>= fun _ =>
      forLoop unpackBit s.regs.bitlen.toNat 0 (unpackStart s, []) >>= fun x => .ok (unpackEnd x)) := by
  rw [← (sameTable_unpackStart s).checkTable, bpDecBody, checkBitlen_ok hbits, ok_bind]
  rfl

/-- An invalid table is found before the first symbol (R110). -/
theorem bpEncBody_invalid {s : State} (hlen : s.regs.symcnt.toNat ≤ s.cfg.sMax) (hno : ¬ CodeOk s) :
    bpEncBody s = .error { cause := .tableInvalid, info := 0 } := by
  rw [bpEncBody_start hlen, checkTable_error hno, error_bind]

/-- An invalid table is found before the first bit (R110). -/
theorem bpDecBody_invalid {s : State} (hbits : s.regs.bitlen.toNat ≤ 8 * s.cfg.bMax) (hno : ¬ CodeOk s) :
    bpDecBody s = .error { cause := .tableInvalid, info := 0 } := by
  rw [bpDecBody_start hbits, checkTable_error hno, error_bind]

theorem bpEncBody_valid {s : State} (hlen : s.regs.symcnt.toNat ≤ s.cfg.sMax) (hok : CodeOk s) :
    bpEncBody s = forLoop packSymbol s.regs.symcnt.toNat 0 (packStart s) := by
  rw [bpEncBody_start hlen, checkTable_ok hok, ok_bind]

theorem bpDecBody_valid {s : State} (hbits : s.regs.bitlen.toNat ≤ 8 * s.cfg.bMax) (hok : CodeOk s) :
    bpDecBody s = (forLoop unpackBit s.regs.bitlen.toNat 0 (unpackStart s, []) >>= fun x => .ok (unpackEnd x)) := by
  rw [bpDecBody_start hbits, checkTable_ok hok, ok_bind]

/-- What `BP_ENC` does before its first symbol (R110, R147). -/
theorem bpEnc_start_cases {s : State} (hf : s.regs.fault = false) :
    Raises .bpEnc s .badLength 0 ∨ Raises .bpEnc s .tableInvalid 0 ∨ (s.regs.symcnt.toNat ≤ s.cfg.sMax ∧ CodeOk s) := by
  simp only [raises_bpEnc_iff hf]
  rcases Nat.lt_or_ge s.cfg.sMax s.regs.symcnt.toNat with hlong | hlen
  · exact .inl (bpEncBody_badLength (s := s.setDone false) hlong)
  · by_cases hok : CodeOk s
    · exact .inr (.inr ⟨hlen, hok⟩)
    · exact .inr (.inl (bpEncBody_invalid (s := s.setDone false) hlen hok))

/-- What `BP_DEC` does before its first bit (R110, R147). -/
theorem bpDec_start_cases {s : State} (hf : s.regs.fault = false) :
    Raises .bpDec s .badLength 1 ∨ Raises .bpDec s .tableInvalid 0 ∨
      (s.regs.bitlen.toNat ≤ 8 * s.cfg.bMax ∧ CodeOk s) := by
  simp only [raises_bpDec_iff hf]
  rcases Nat.lt_or_ge (8 * s.cfg.bMax) s.regs.bitlen.toNat with hlong | hbits
  · exact .inl (bpDecBody_badLength (s := s.setDone false) hlong)
  · by_cases hok : CodeOk s
    · exact .inr (.inr ⟨hbits, hok⟩)
    · exact .inr (.inl (bpDecBody_invalid (s := s.setDone false) hbits hok))

/-! ### Which faults the loops can raise (R145) -/

theorem packSymbol_raises (k : Nat) (s : State) : RaisesAmong [.symbolMiss, .overflow] (packSymbol k s) := by
  unfold packSymbol
  split
  · exact .error List.mem_cons_self
  · rename_i j _
    have hbit (t : Nat) (u : State) : RaisesAmong [.symbolMiss, .overflow] (emitCodeBit j t u) :=
      emit_raises (by decide) _ u
    exact (RaisesAmong.forLoop hbit _ _ _).bind fun _ => .ok _

theorem unpackBit_raises (p : Nat) (x : State × List Bool) : RaisesAmong [.overflow] (unpackBit p x) := by
  unfold unpackBit
  dsimp only
  split
  · exact .ok _
  · split
    · exact .error (by decide)
    · exact .ok _

/-! ### The obligations -/

/-- An empty table is valid (R110). -/
theorem codeOk_of_empty {s : State} (h : s.regs.ccount = 0) : CodeOk s := by
  simp [CodeOk, h]

/-- Settles O23: an invalid table is found before the loop, and no iteration of the loop raises `TABLE_INVALID`. -/
theorem tableCheckGuardsTheTableCommands : Obligations.TableCheckGuardsTheTableCommands := by
  intro s hf i hi
  refine ⟨fun hno => ?_, fun hok info hr => ?_, codeOk_of_empty⟩
  · rcases hi with ⟨rfl, hlen⟩ | ⟨rfl, hbits⟩
    · exact (raises_bpEnc_iff hf).2 (bpEncBody_invalid (s := s.setDone false) hlen hno)
    · exact (raises_bpDec_iff hf).2 (bpDecBody_invalid (s := s.setDone false) hbits hno)
  · rcases hi with ⟨rfl, hlen⟩ | ⟨rfl, hbits⟩
    · rw [raises_bpEnc_iff hf, bpEncBody_valid (s := s.setDone false) hlen hok] at hr
      have hmem := RaisesAmong.forLoop packSymbol_raises _ _ _ _ hr
      simp at hmem
    · rw [raises_bpDec_iff hf, bpDecBody_valid (s := s.setDone false) hbits hok] at hr
      have hmem := ((RaisesAmong.forLoop unpackBit_raises _ _ _).bind fun x => .ok (unpackEnd x)) _ hr
      simp at hmem

/-- Settles O40: no two entries of a valid table have the same codeword or the same symbol. -/
theorem matchesAreUnique : Obligations.MatchesAreUnique :=
  fun _ hok => ⟨fun _ _ => codeMatch_eq_some_iff hok, fun _ _ => codeEntry_eq_some_iff hok⟩

end Sys2Proof.Machine
end

section
/-! PROOFS. `BP_ENC` against concatenation of codewords (R111): what it does with symbols that have entries, where it
stops at one that has none, and how long its output is (R116). -/

namespace Sys2Proof.Machine

/-! ### The encoder keeps the table and the symbols -/

theorem EncFrame.sameTable {s t : State} (h : EncFrame s t) : SameTable s t :=
  .of_reads h.cfg (by rw [h]) fun j _ =>
    ⟨h.memRead (by decide) j, h.memRead (by decide) j, h.memRead (by decide) j⟩

theorem EncFrame.codeOk {s t : State} (h : EncFrame s t) (hok : CodeOk s) : CodeOk t := Renames.codeOk h.sameTable hok

theorem EncFrame.codesSymbol_iff {s t : State} (h : EncFrame s t) {k j : Nat} :
    CodesSymbol t (Machine.memRead t .symmem k) j ↔ CodesSymbol s (Machine.memRead s .symmem k) j := by
  have hcount : t.regs.ccount = s.regs.ccount := by rw [h]
  rw [CodesSymbol, h.memRead (by decide), h.memRead (by decide), hcount]

/-! ### One codeword (R111) -/

/-- Bit `i` of the codeword of entry `j` (R32, R67). -/
def codeBit (s : State) (j i : Nat) : Bool := (memRead s .cbits j).getLsbD (clenAt s j - 1 - i)

theorem EncFrame.codeBit {s t : State} (h : EncFrame s t) (j : Nat) : codeBit t j = codeBit s j := by
  have hlen : clenAt t j = clenAt s j := congrArg BitVec.toNat (h.memRead (by decide) j)
  funext i
  rw [Machine.codeBit, Machine.codeBit, hlen, h.memRead (by decide)]

/-- Iterations of the codeword loop append the codeword's bits from index `t` on. -/
theorem emitCodeBits_codes (j n t : Nat) {s : State} (hr : Room s) :
    Codes s ((List.range' t n).map (codeBit s j)) (fun _ => True) (forLoop (emitCodeBit j) n t s) := by
  induction n generalizing t s with
  | zero => exact .pure hr trivial
  | succ n ih =>
    rw [List.range'_succ, List.map_cons, ← List.singleton_append, forLoop_succ]
    refine (emit_codes _ hr.bound).bind fun u hframe hru _ => ?_
    rw [← hframe.codeBit j]
    exact ih (t + 1) hru

/-! ### One symbol (R111) -/

/-- A symbol that has no entry. -/
theorem packSymbol_misses {s : State} {k : Nat} (h : ∀ j, ¬ CodesSymbol s (memRead s .symmem k) j) :
    packSymbol k s = .error { cause := .symbolMiss, info := BitVec.ofNat 32 k } := by
  unfold packSymbol
  cases he : codeEntry s (memRead s .symmem k) with
  | none => rfl
  | some j => exact absurd (codeEntry_some he) (h j)

/-- A symbol that has an entry: the entry's codeword is appended. -/
theorem packSymbol_codes {s : State} {k j : Nat} (hok : CodeOk s) (hr : Room s)
    (hj : CodesSymbol s (memRead s .symmem k) j) :
    Codes s (codeword s j) (fun t => t.regs.sidx = BitVec.ofNat 32 (k + 1)) (packSymbol k s) := by
  have hword : codeword s j = (List.range' 0 (clenAt s j)).map (codeBit s j) := by
    rw [codeword, List.range_eq_range']
    rfl
  simp only [packSymbol, (codeEntry_eq_some_iff hok).2 hj, hword]
  exact (emitCodeBits_codes j _ 0 hr).then_set fun t _ _ => ⟨rfl, rfl, rfl⟩

/-! ### The symbols in order (R111) -/

/-- The entries of the symbols from index `k` on, as many as are listed. -/
def EntriesFrom (s : State) (k : Nat) (codes : List Nat) : Prop :=
  ∀ i j, codes[i]? = some j → CodesSymbol s (memRead s .symmem (k + i)) j

theorem EntriesFrom.head {s : State} {k j : Nat} {rest : List Nat} (h : EntriesFrom s k (j :: rest)) :
    CodesSymbol s (memRead s .symmem k) j := h 0 j rfl

theorem EntriesFrom.tail {s : State} {k j : Nat} {rest : List Nat} (h : EntriesFrom s k (j :: rest)) :
    EntriesFrom s (k + 1) rest := fun i x hx => by
  rw [Nat.add_assoc, Nat.add_comm 1 i]
  exact h (i + 1) x hx

theorem EntriesFrom.append_one {s : State} {codes : List Nat} {j : Nat} (h : EntriesFrom s 0 codes)
    (hj : CodesSymbol s (memRead s .symmem codes.length) j) : EntriesFrom s 0 (codes ++ [j]) := by
  intro i x hx
  rcases Nat.lt_or_ge i codes.length with hi | hi
  · exact h i x (by rwa [List.getElem?_append_left hi] at hx)
  · obtain ⟨hlt, hget⟩ := List.getElem?_eq_some_iff.1 hx
    rw [List.length_append, List.length_singleton] at hlt
    obtain rfl : i = codes.length := by omega
    obtain rfl : j = x := by simpa using hget
    rwa [Nat.zero_add]

/-- Every listed entry is in use. -/
theorem EntriesFrom.in_use {s : State} {k : Nat} {codes : List Nat} (h : EntriesFrom s k codes) :
    ∀ j ∈ codes, j < s.regs.ccount.toNat := fun j hj => by
  obtain ⟨i, hi⟩ := List.mem_iff_getElem?.1 hj
  exact (h i j hi).1

theorem EncFrame.entriesFrom {s t : State} (h : EncFrame s t) {k : Nat} {codes : List Nat}
    (hs : EntriesFrom s k codes) : EntriesFrom t k codes := fun i j hj => h.codesSymbol_iff.2 (hs i j hj)

/-- The codewords of entries in use stay the same. -/
theorem EncFrame.codewords {s t : State} (h : EncFrame s t) {k : Nat} {codes : List Nat} (hs : EntriesFrom s k codes) :
    codes.flatMap (codeword t) = codes.flatMap (codeword s) :=
  List.flatMap_congr fun j hj => Renames.codeword h.sameTable (hs.in_use j hj)

/-- Symbols that have entries append the entries' codewords. -/
theorem packSymbols_codes {codes : List Nat} {s : State} {k : Nat} (hok : CodeOk s) (hr : Room s)
    (hs : EntriesFrom s k codes) (hidx : s.regs.sidx = BitVec.ofNat 32 k) :
    Codes s (codes.flatMap (codeword s)) (fun t => t.regs.sidx = BitVec.ofNat 32 (k + codes.length))
      (forLoop packSymbol codes.length k s) := by
  induction codes generalizing s k with
  | nil => exact .pure hr hidx
  | cons j rest ih =>
    rw [List.length_cons, forLoop_succ, List.flatMap_cons]
    refine (packSymbol_codes hok hr hs.head).bind fun t hframe hrt hidxt => ?_
    rw [Nat.add_comm rest.length 1, ← Nat.add_assoc, ← hframe.codewords hs.tail]
    exact ih (hframe.codeOk hok) hrt (hframe.entriesFrom hs.tail) hidxt

/-- `BP_ENC` codes its first `n` symbols before the others. -/
theorem bpEncBody_split {s : State} {n : Nat} (hlen : s.regs.symcnt.toNat ≤ s.cfg.sMax) (hok : CodeOk s)
    (hn : n ≤ s.regs.symcnt.toNat) :
    bpEncBody s = (forLoop packSymbol n 0 (packStart s) >>= forLoop packSymbol (s.regs.symcnt.toNat - n) n) := by
  have hsplit := forLoop_add (body := packSymbol) n (s.regs.symcnt.toNat - n) 0 (packStart s)
  rw [Nat.add_sub_cancel' hn, Nat.zero_add] at hsplit
  rw [bpEncBody_valid hlen hok, hsplit]

/-- Coding starts with no bits (R111). -/
theorem bitSeq_packStart (s : State) : bitSeq (packStart s) = [] := rfl

theorem bitlen_packStart (s : State) : (packStart s).regs.bitlen.toNat = 0 := rfl

section
variable {s : State} {codes : List Nat} (hc : s.cfg.Ok) (hlen : s.regs.symcnt.toNat ≤ s.cfg.sMax) (hok : CodeOk s)
  (hs : EntriesFrom s 0 codes)
include hc hok hs

/-- The first symbols append the codewords of their entries. -/
theorem pack_prefix : Codes (packStart s) (codes.flatMap (codeword s))
    (fun t => t.regs.sidx = BitVec.ofNat 32 codes.length) (forLoop packSymbol codes.length 0 (packStart s)) := by
  obtain ⟨_, _, _, _, _, ⟨_, hb⟩, _⟩ := hc
  have hcode := packSymbols_codes (s := packStart s) (k := 0) (Renames.codeOk (sameTable_packStart s) hok)
    ⟨hb, Nat.zero_le _⟩ hs rfl
  rwa [Nat.zero_add] at hcode

include hlen

/-- `BP_ENC` appends the codewords of all symbols. -/
theorem bpEncBody_codes (hall : codes.length = s.regs.symcnt.toNat) :
    Codes (packStart s) (codes.flatMap (codeword s)) (fun t => t.regs.sidx = s.regs.symcnt) (bpEncBody s) := by
  have hcode := pack_prefix hc hok hs
  rw [bpEncBody_valid hlen hok, ← hall]
  exact hcode.mono fun t _ ht => by rw [ht, hall, BitVec.ofNat_toNat, BitVec.setWidth_eq]

theorem bpEncBody_overflows (hle : codes.length ≤ s.regs.symcnt.toNat)
    (hfull : 8 * s.cfg.bMax < (codes.flatMap (codeword s)).length) :
    bpEncBody s = .error { cause := .overflow, info := 0 } := by
  have hraise := (pack_prefix hc hok hs).overflow
    (by rwa [bitlen_packStart, Nat.zero_add])
  rw [bpEncBody_split hlen hok hle, hraise, error_bind]

theorem bpEncBody_misses (hlt : codes.length < s.regs.symcnt.toNat)
    (hfit : (codes.flatMap (codeword s)).length ≤ 8 * s.cfg.bMax)
    (hno : ∀ j, ¬ CodesSymbol s (memRead s .symmem codes.length) j) :
    bpEncBody s = .error { cause := .symbolMiss, info := BitVec.ofNat 32 codes.length } := by
  obtain ⟨t, ht, hframe, _⟩ := (pack_prefix hc hok hs).fit
    (by rwa [bitlen_packStart, Nat.zero_add])
  have hmiss := packSymbol_misses (s := t) (k := codes.length) fun j hj => hno j (hframe.codesSymbol_iff.1 hj)
  obtain ⟨m, hm⟩ := Nat.exists_eq_add_of_lt hlt
  rw [bpEncBody_split hlen hok hlt.le, ht, ok_bind, show s.regs.symcnt.toNat - codes.length = m + 1 by omega,
    forLoop_succ, hmiss, error_bind]

end

/-- Settles O38, by what the listed symbols append. -/
theorem bpEncConcatenatesCodewords : Obligations.BpEncConcatenatesCodewords := by
  intro s codes hc hf hlen hok hle hcodes out
  have hs : EntriesFrom s 0 codes := fun i j hj => by
    rw [Nat.zero_add]
    exact hcodes i j hj
  simp only [raises_bpEnc_iff hf]
  refine ⟨fun hfit hall => ?_, fun hfull => ?_, fun hfit hlt hno => ?_⟩
  · obtain ⟨t, ht, _, hbits, _, hidx⟩ := (bpEncBody_codes (s := s.setDone false) hc hlen hok hs hall).fit
      (by rw [bitlen_packStart, Nat.zero_add]; exact hfit)
    obtain ⟨hx, hdone⟩ := bpEnc_completes hf ht
    rw [bitSeq_packStart, List.nil_append] at hbits
    exact ⟨_, hx, hdone, hbits, hidx⟩
  · exact bpEncBody_overflows (s := s.setDone false) hc hlen hok hs hle hfull
  · exact bpEncBody_misses (s := s.setDone false) hc hlen hok hs hlt hfit hno

/-! ### Every input -/

/-- The symbols up to `n` all have entries; or one of them has none, and those before it have. -/
theorem entries_cases (s : State) (n : Nat) :
    ∃ codes, EntriesFrom s 0 codes ∧ (codes.length = n ∨
      (codes.length < n ∧ ∀ j, ¬ CodesSymbol s (memRead s .symmem codes.length) j)) := by
  induction n with
  | zero => exact ⟨[], fun _ _ hj => by simp at hj, .inl rfl⟩
  | succ n ih =>
    obtain ⟨codes, hs, rfl | ⟨hlt, hno⟩⟩ := ih
    · by_cases hin : ∃ j, CodesSymbol s (memRead s .symmem codes.length) j
      · obtain ⟨j, hj⟩ := hin
        exact ⟨codes ++ [j], hs.append_one hj, .inl List.length_append⟩
      · exact ⟨codes, hs, .inr ⟨Nat.lt_succ_self _, not_exists.1 hin⟩⟩
    · exact ⟨codes, hs, .inr ⟨by omega, hno⟩⟩

/-- Everything `BP_ENC` can do with symbols under a valid table. -/
theorem bpEnc_outcome {s : State} (hc : s.cfg.Ok) (hf : s.regs.fault = false) (hlen : s.regs.symcnt.toNat ≤ s.cfg.sMax)
    (hok : CodeOk s) :
    ∃ codes, EntriesFrom s 0 codes ∧ codes.length ≤ s.regs.symcnt.toNat ∧
      ((8 * s.cfg.bMax < (codes.flatMap (codeword s)).length ∧ Raises .bpEnc s .overflow 0) ∨
        (∃ info, Raises .bpEnc s .symbolMiss info) ∨
        (codes.length = s.regs.symcnt.toNat ∧ (codes.flatMap (codeword s)).length ≤ 8 * s.cfg.bMax ∧
          ∃ t, exec .bpEnc s = .next t ∧ Completed t ∧ bitSeq t = codes.flatMap (codeword s))) := by
  obtain ⟨codes, hs, hcase⟩ := entries_cases s s.regs.symcnt.toNat
  have hle : codes.length ≤ s.regs.symcnt.toNat := by omega
  obtain ⟨hcompletes, hoverflows, hmisses⟩ := bpEncConcatenatesCodewords s codes hc hf hlen hok hle fun k j hj => by
    simpa using hs k j hj
  refine ⟨codes, hs, hle, ?_⟩
  rcases Nat.lt_or_ge (8 * s.cfg.bMax) (codes.flatMap (codeword s)).length with hfull | hfit
  · exact .inl ⟨hfull, hoverflows hfull⟩
  · rcases hcase with hall | ⟨hlt, hno⟩
    · obtain ⟨t, ht, hdone, hbits, _⟩ := hcompletes hfit hall
      exact .inr (.inr ⟨hall, hfit, t, ht, hdone, hbits⟩)
    · exact .inr (.inl ⟨_, hmisses hfit hlt hno⟩)

/-- A `BP_ENC` that completed concatenated the codewords of all symbols. -/
theorem bpEnc_completed {s t : State} (hc : s.cfg.Ok) (hf : s.regs.fault = false) (ht : exec .bpEnc s = .next t)
    (hdone : Completed t) :
    s.regs.symcnt.toNat ≤ s.cfg.sMax ∧ CodeOk s ∧ ∃ codes, EntriesFrom s 0 codes ∧
      codes.length = s.regs.symcnt.toNat ∧ (codes.flatMap (codeword s)).length ≤ 8 * s.cfg.bMax ∧
      bitSeq t = codes.flatMap (codeword s) := by
  have hno {c : Cause} {v : Word} (hr : Raises .bpEnc s c v) : False := hr.not_completed ht hdone
  rcases bpEnc_start_cases hf with hr | hr | ⟨hlen, hok⟩
  · exact (hno hr).elim
  · exact (hno hr).elim
  · obtain ⟨codes, hs, _, ⟨_, hr⟩ | ⟨_, hr⟩ | ⟨hall, hfit, u, hu, _, hbits⟩⟩ := bpEnc_outcome hc hf hlen hok
    · exact (hno hr).elim
    · exact (hno hr).elim
    · obtain rfl : t = u := by simpa [ht] using hu
      exact ⟨hlen, hok, codes, hs, hall, hfit, hbits⟩

/-- A `BP_ENC` that overflowed had codewords that do not fit. -/
theorem bpEnc_overflowed {s : State} {info : Word} (hc : s.cfg.Ok) (hf : s.regs.fault = false)
    (hr : Raises .bpEnc s .overflow info) :
    s.regs.symcnt.toNat ≤ s.cfg.sMax ∧ CodeOk s ∧ ∃ codes, EntriesFrom s 0 codes ∧
      codes.length ≤ s.regs.symcnt.toNat ∧ 8 * s.cfg.bMax < (codes.flatMap (codeword s)).length := by
  rcases bpEnc_start_cases hf with hr' | hr' | ⟨hlen, hok⟩
  · exact absurd (hr.inj hr').1 (by decide)
  · exact absurd (hr.inj hr').1 (by decide)
  · obtain ⟨codes, hs, hle, ⟨hfull, _⟩ | ⟨_, hr'⟩ | ⟨_, _, t, ht, hdone, _⟩⟩ := bpEnc_outcome hc hf hlen hok
    · exact ⟨hlen, hok, codes, hs, hle, hfull⟩
    · exact absurd (hr.inj hr').1 (by decide)
    · exact absurd hdone (hr.not_completed ht)

/-- Codewords of entries in use are no longer than `CW_MAX` (R32). -/
theorem codewords_length_le {s : State} (hok : CodeOk s) {codes : List Nat}
    (h : ∀ j ∈ codes, j < s.regs.ccount.toNat) :
    (codes.flatMap (codeword s)).length ≤ s.cfg.cwMax * codes.length := by
  obtain ⟨_, hlen, _⟩ := hok
  rw [List.length_flatMap, Nat.mul_comm, ← List.length_map fun j => (codeword s j).length]
  refine List.sum_le_card_nsmul _ _ fun x hx => ?_
  obtain ⟨j, hj, rfl⟩ := List.mem_map.1 hx
  rw [codeword_length]
  exact hlen j (h j hj)

end Sys2Proof.Machine
end

section
/-! PROOFS. `BP_DEC` against greedy matching of the bit sequence (R112, R114). -/

namespace Sys2Proof.Machine

/-! ### Greedy matching (R112) -/

section
variable {m : List Bool → Option Word} {buf : List Bool} {b : Bool}

theorem refGreedy_match {w : Word} (rest : List Bool) (h : m (buf ++ [b]) = some w) :
    refGreedy m buf (b :: rest) = (w :: (refGreedy m [] rest).1, (refGreedy m [] rest).2) := by
  simp only [refGreedy, h]

theorem refGreedy_more (rest : List Bool) (h : m (buf ++ [b]) = none) :
    refGreedy m buf (b :: rest) = refGreedy m (buf ++ [b]) rest := by
  simp only [refGreedy, h]

end

/-- Each symbol takes a bit, and the bits left over are bits. -/
theorem refGreedy_size (m : List Bool → Option Word) (buf q : List Bool) :
    (refGreedy m buf q).1.length + (refGreedy m buf q).2 ≤ buf.length + q.length := by
  induction q generalizing buf with
  | nil => exact Nat.le_of_eq (Nat.zero_add _)
  | cons b rest ih =>
    cases hm : m (buf ++ [b]) with
    | none =>
      have := ih (buf ++ [b])
      rw [List.length_append, List.length_singleton] at this
      rw [refGreedy_more rest hm, List.length_cons]
      omega
    | some w =>
      have := ih []
      rw [refGreedy_match rest hm]
      simp only [List.length_cons, List.length_nil] at this ⊢
      omega

/-- Where nothing matches, every bit is left over. -/
theorem refGreedy_of_none {m : List Bool → Option Word} (h : ∀ buf b, m (buf ++ [b]) = none) (buf q : List Bool) :
    refGreedy m buf q = ([], buf.length + q.length) := by
  induction q generalizing buf with
  | nil => rfl
  | cons b rest ih =>
    rw [refGreedy_more rest (h buf b), ih, List.length_append, List.length_singleton, List.length_cons, Nat.add_assoc,
      Nat.add_comm 1]

/-! ### The symbol of a codeword (R112) -/

/-- Under a valid table the symbol is that of the entry the buffer matches. -/
theorem symbolOf_eq {s : State} (hok : CodeOk s) (q : List Bool) :
    symbolOf s q = (codeMatch s q).map (memRead s .csym) := by
  have hfind : (List.range s.regs.ccount.toNat).find? (fun j => decide (codeword s j = q)) = codeMatch s q := by
    refine List.find?_congr fun j hj => ?_
    rw [← Bool.decide_and, decide_eq_decide]
    exact codeword_eq_iff hok (List.mem_range.1 hj)
  rw [symbolOf, hfind]

theorem symbolOf_eq_some_iff {s : State} (hok : CodeOk s) {q : List Bool} {w : Word} :
    symbolOf s q = some w ↔ ∃ j < s.regs.ccount.toNat, codeword s j = q ∧ memRead s .csym j = w := by
  simp only [symbolOf_eq hok, Option.map_eq_some_iff, codeMatch_eq_some_iff hok, and_assoc]

theorem SameTable.symbolOf {s t : State} (h : SameTable s t) (hok : CodeOk s) : symbolOf t = symbolOf s := by
  funext q
  refine Option.ext fun w => ?_
  rw [symbolOf_eq_some_iff hok, symbolOf_eq_some_iff (Renames.codeOk h hok), h.count']
  refine exists_congr fun j => and_congr_right fun hj => ?_
  rw [Renames.codeword h hj, h.csym j hj]
  rfl

/-! ### What the decoder's loop writes -/

/-- The second state is the first but for `BPTR`, `SIDX` and the symbol memory (R112). -/
abbrev UnpackFrame (s t : State) : Prop :=
  t = { s with
    regs := { s.regs with bptr := t.regs.bptr, sidx := t.regs.sidx }
    arr := { s.arr with symmem := t.arr.symmem } }

namespace UnpackFrame
variable {s t u : State}

theorem trans (h : UnpackFrame s t) (k : UnpackFrame t u) : UnpackFrame s u := Eq.trans k (by rw [h])

theorem cfg (h : UnpackFrame s t) : t.cfg = s.cfg := by rw [h]
theorem bitlen (h : UnpackFrame s t) : t.regs.bitlen = s.regs.bitlen := by rw [h]
theorem ccount (h : UnpackFrame s t) : t.regs.ccount = s.regs.ccount := by rw [h]

theorem memRead (h : UnpackFrame s t) {a : Arr} (ha : a ≠ .symmem) (i : Nat) : memRead t a i = memRead s a i :=
  memRead_of_symmem ha h.cfg (congrArg State.arr (show t = _ from h)) i

theorem sameTable (h : UnpackFrame s t) : SameTable s t :=
  .of_reads h.cfg h.ccount fun j _ => ⟨h.memRead (by decide) j, h.memRead (by decide) j, h.memRead (by decide) j⟩

theorem getbit (h : UnpackFrame s t) : getbit t = getbit s :=
  funext fun p => getbit_congr p h.bitlen (h.memRead (by decide) _)

end UnpackFrame

/-- The second state follows the first by writing the symbols `syms` from element `SIDX` on and counting them (R112). -/
structure Unpacked (syms : List Word) (s t : State) : Prop where
  frame : UnpackFrame s t
  count : t.regs.sidx.toNat = s.regs.sidx.toNat + syms.length
  symbols (k : Nat) (w : Word) : syms[k]? = some w → memRead t .symmem (s.regs.sidx.toNat + k) = w
  others (i : Nat) : i < s.regs.sidx.toNat ∨ s.regs.sidx.toNat + syms.length ≤ i →
    memRead t .symmem i = memRead s .symmem i

/-- Moving on one bit writes no symbol. -/
theorem Unpacked.setBptr (s : State) (v : Word) : Unpacked [] s (s.setBptr v) :=
  ⟨rfl, rfl, fun _ _ h => by simp at h, fun _ _ => rfl⟩

/-- One symbol, where the symbol memory has room for it. -/
theorem Unpacked.symbol {s : State} (hroom : s.regs.sidx.toNat + 1 < 2 ^ 32) (w : Word) :
    Unpacked [w] s ((memWrite s .symmem s.regs.sidx.toNat w).setSidx (s.regs.sidx + 1)) where
  frame := rfl
  count := by
    rw [setSidx_sidx, BitVec.toNat_add, show (1 : Word).toNat = 1 from rfl, List.length_singleton]
    exact Nat.mod_eq_of_lt hroom
  symbols k v hk := by
    obtain ⟨rfl, rfl⟩ : k = 0 ∧ w = v := by
      obtain ⟨hlt, hget⟩ := List.getElem?_eq_some_iff.1 hk
      obtain rfl : k = 0 := by simpa using hlt
      exact ⟨rfl, hget⟩
    exact memRead_memWrite_symmem _ _ _
  others i hi := memRead_memWrite_index _ .symmem _ (by rw [List.length_singleton] at hi; omega)

theorem Unpacked.trans {a b : List Word} {s t u : State} (h : Unpacked a s t) (k : Unpacked b t u) :
    Unpacked (a ++ b) s u where
  frame := h.frame.trans k.frame
  count := by rw [k.count, h.count, List.length_append, Nat.add_assoc]
  symbols i w hi := by
    have hcount := h.count
    rcases Nat.lt_or_ge i a.length with hlt | hge
    · rw [List.getElem?_append_left hlt] at hi
      rw [k.others _ (.inl (by omega)), h.symbols i w hi]
    · rw [List.getElem?_append_right hge] at hi
      have hsym := k.symbols _ w hi
      rwa [hcount, Nat.add_assoc, Nat.add_sub_cancel' hge] at hsym
  others i hi := by
    have hcount := h.count
    rw [List.length_append] at hi
    rw [k.others i (by omega), h.others i (by omega)]

/-- The run writes the symbols `syms`, leaves `left` bits in the match buffer and `BPTR` at `ptr`; or, when the symbols
do not fit the symbol memory, raises `OVERFLOW` (R112). -/
inductive Unpacks (s : State) (syms : List Word) (left ptr : Nat) : Except Raise (State × List Bool) → Prop where
  | ok {t : State} {buf : List Bool} (h : Unpacked syms s t) (fits : s.regs.sidx.toNat + syms.length ≤ s.cfg.sMax)
      (rest : buf.length = left) (bptr : t.regs.bptr = BitVec.ofNat 32 ptr) : Unpacks s syms left ptr (.ok (t, buf))
  | error (full : s.cfg.sMax < s.regs.sidx.toNat + syms.length) :
      Unpacks s syms left ptr (.error { cause := .overflow, info := 0 })

namespace Unpacks
variable {s : State} {syms : List Word} {left ptr : Nat} {x : Except Raise (State × List Bool)}

theorem fit (h : Unpacks s syms left ptr x) (hfit : s.regs.sidx.toNat + syms.length ≤ s.cfg.sMax) :
    ∃ t buf, x = .ok (t, buf) ∧ Unpacked syms s t ∧ buf.length = left ∧ t.regs.bptr = BitVec.ofNat 32 ptr := by
  cases h with
  | ok h _ rest bptr => exact ⟨_, _, rfl, h, rest, bptr⟩
  | error full => omega

theorem overflow (h : Unpacks s syms left ptr x) (hfull : s.cfg.sMax < s.regs.sidx.toNat + syms.length) :
    x = .error { cause := .overflow, info := 0 } := by
  cases h with
  | ok _ fits => omega
  | error _ => rfl

/-- Symbols written before the run. -/
theorem after {more : List Word} {t : State} (h : Unpacked more s t) (hx : Unpacks t syms left ptr x) :
    Unpacks s (more ++ syms) left ptr x := by
  have hcount := h.count
  have hcfg := h.frame.cfg
  cases hx with
  | ok k fits rest bptr =>
    exact .ok (h.trans k) (by rw [List.length_append, ← hcfg]; omega) rest bptr
  | error full => exact .error (by rw [List.length_append, ← hcfg]; omega)

end Unpacks

/-! ### One bit (R112) -/

section
variable {s : State} {buf : List Bool} {p : Nat} (hok : CodeOk s)
include hok

theorem unpackBit_more (h : symbolOf s (buf ++ [getbit s p]) = none) :
    unpackBit p (s, buf) = .ok (s.setBptr (BitVec.ofNat 32 (p + 1)), buf ++ [getbit s p]) := by
  have hm : codeMatch (s.setBptr (BitVec.ofNat 32 (p + 1))) (buf ++ [getbit s p]) = none := by
    rw [symbolOf_eq hok, Option.map_eq_none_iff] at h
    exact h
  simp only [unpackBit, hm]

theorem unpackBit_match {w : Word} (h : symbolOf s (buf ++ [getbit s p]) = some w) :
    unpackBit p (s, buf) =
      if s.cfg.sMax ≤ s.regs.sidx.toNat then .error { cause := .overflow, info := 0 }
      else .ok ((memWrite (s.setBptr (BitVec.ofNat 32 (p + 1))) .symmem s.regs.sidx.toNat w).setSidx
        (s.regs.sidx + 1), []) := by
  rw [symbolOf_eq hok, Option.map_eq_some_iff] at h
  obtain ⟨j, hj, rfl⟩ := h
  have hm : codeMatch (s.setBptr (BitVec.ofNat 32 (p + 1))) (buf ++ [getbit s p]) = some j := hj
  simp only [unpackBit, hm]
  rfl

end

/-! ### The bits in order (R112) -/

/-- The loop of `BP_DEC` over `n` bits from position `p` on matches greedily. -/
theorem unpackBits_greedy (n : Nat) {p : Nat} {s : State} (buf : List Bool) (hok : CodeOk s)
    (hmax : s.cfg.sMax ≤ 2 ^ 18) (hfits : s.regs.sidx.toNat ≤ s.cfg.sMax) (hptr : s.regs.bptr = BitVec.ofNat 32 p) :
    Unpacks s (refGreedy (symbolOf s) buf ((List.range' p n).map (getbit s))).1
      (refGreedy (symbolOf s) buf ((List.range' p n).map (getbit s))).2 (p + n)
      (forLoop unpackBit n p (s, buf)) := by
  induction n generalizing p s buf with
  | zero => exact .ok (.setBptr s s.regs.bptr) hfits rfl hptr
  | succ n ih =>
    rw [List.range'_succ, List.map_cons, forLoop_succ, Nat.add_comm n 1, ← Nat.add_assoc]
    cases hm : symbolOf s (buf ++ [getbit s p]) with
    | none =>
      rw [unpackBit_more hok hm, ok_bind, refGreedy_more _ hm]
      exact (ih (p := p + 1) (s := s.setBptr (BitVec.ofNat 32 (p + 1))) _ hok hmax hfits rfl).after (.setBptr s _)
    | some w =>
      rw [unpackBit_match hok hm, refGreedy_match _ hm]
      split
      · rw [error_bind]
        exact .error (by rw [List.length_cons]; omega)
      · rw [ok_bind]
        have hone := (Unpacked.setBptr s (BitVec.ofNat 32 (p + 1))).trans
          (.symbol (s := s.setBptr (BitVec.ofNat 32 (p + 1))) (by rw [setBptr_sidx]; omega) w)
        have hcount := hone.count
        have hcfg := hone.frame.cfg
        have hrun := ih (p := p + 1) [] (Renames.codeOk hone.frame.sameTable hok) (hcfg ▸ hmax)
          (by rw [hcount, hcfg]; simp; omega) rfl
        rw [SameTable.symbolOf hone.frame.sameTable hok, hone.frame.getbit] at hrun
        exact hrun.after hone

/-! ### The command -/

theorem sidx_unpackStart (s : State) : (unpackStart s).regs.sidx.toNat = 0 := rfl

/-- What `BP_DEC` leaves when it has matched the symbols `out.1` and has `out.2` bits left over (R112). -/
structure Decoded (out : List Word × Nat) (s t : State) : Prop where
  symcnt : t.regs.symcnt.toNat = out.1.length
  sidx : t.regs.sidx = t.regs.symcnt
  resid : t.regs.resid.toNat = out.2
  bptr : t.regs.bptr = s.regs.bitlen
  symbols (k : Nat) (w : Word) : out.1[k]? = some w → memRead t .symmem k = w
  others : SameFrom .symmem out.1.length s t

section
variable {s : State} (hc : s.cfg.Ok) (hbits : s.regs.bitlen.toNat ≤ 8 * s.cfg.bMax) (hok : CodeOk s)
include hc hok

theorem unpackLoop_greedy :
    Unpacks (unpackStart s) (refGreedy (symbolOf s) [] (bitSeq s)).1 (refGreedy (symbolOf s) [] (bitSeq s)).2
      s.regs.bitlen.toNat (forLoop unpackBit s.regs.bitlen.toNat 0 (unpackStart s, [])) := by
  obtain ⟨_, _, _, _, ⟨_, hmax⟩, _, _⟩ := hc
  have hloop := unpackBits_greedy s.regs.bitlen.toNat (p := 0) (s := unpackStart s) []
    (Renames.codeOk (sameTable_unpackStart s) hok) hmax (Nat.zero_le _) rfl
  rwa [Nat.zero_add, ← List.range_eq_range'] at hloop

include hbits

theorem bpDecBody_decodes (hfit : (refGreedy (symbolOf s) [] (bitSeq s)).1.length ≤ s.cfg.sMax) :
    ∃ t, bpDecBody s = .ok t ∧ Decoded (refGreedy (symbolOf s) [] (bitSeq s)) s t := by
  have hsize := refGreedy_size (symbolOf s) [] (bitSeq s)
  have hloop := unpackLoop_greedy hc hok
  generalize refGreedy (symbolOf s) [] (bitSeq s) = out at hfit hsize hloop
  obtain ⟨t, buf, ht, hall, hrest, hptr⟩ := hloop.fit
    (by rwa [sidx_unpackStart, Nat.zero_add])
  refine ⟨unpackEnd (t, buf), by rw [bpDecBody_valid hbits hok, ht, ok_bind], ?_, rfl, ?_, ?_, fun k w hk => ?_,
    fun i hi => ?_⟩
  · exact hall.count.trans (Nat.zero_add _)
  · rw [List.length_nil, bitSeq_length, Nat.zero_add] at hsize
    have hlt : buf.length < 2 ^ 32 := by have := s.regs.bitlen.isLt; omega
    rw [unpackEnd, setTail_resid, BitVec.toNat_ofNat, Nat.mod_eq_of_lt hlt, hrest]
  · rw [unpackEnd, setTail_bptr, hptr, BitVec.ofNat_toNat, BitVec.setWidth_eq]
  · have hsym := hall.symbols k w hk
    rwa [sidx_unpackStart, Nat.zero_add] at hsym
  · exact hall.others i (.inr (by rwa [sidx_unpackStart, Nat.zero_add]))

theorem bpDecBody_overflows (hfull : s.cfg.sMax < (refGreedy (symbolOf s) [] (bitSeq s)).1.length) :
    bpDecBody s = .error { cause := .overflow, info := 0 } := by
  have hraise := (unpackLoop_greedy hc hok).overflow
    (by rwa [sidx_unpackStart, Nat.zero_add])
  rw [bpDecBody_valid hbits hok, hraise, error_bind]

end

/-- `BP_DEC` completes with greedy matching's symbols where they fit. -/
theorem bpDec_decodes {s : State} (hc : s.cfg.Ok) (hf : s.regs.fault = false)
    (hbits : s.regs.bitlen.toNat ≤ 8 * s.cfg.bMax) (hok : CodeOk s)
    (hfit : (refGreedy (symbolOf s) [] (bitSeq s)).1.length ≤ s.cfg.sMax) :
    ∃ t, exec .bpDec s = .next t ∧ Completed t ∧ Decoded (refGreedy (symbolOf s) [] (bitSeq s)) s t := by
  obtain ⟨t, ht, hdec⟩ := bpDecBody_decodes (s := s.setDone false) hc hbits hok hfit
  obtain ⟨hx, hdone⟩ := bpDec_completes hf ht
  exact ⟨_, hx, hdone, hdec.symcnt, hdec.sidx, hdec.resid, hdec.bptr, hdec.symbols, hdec.others⟩

/-- A `BP_DEC` that completed matched greedily. -/
theorem bpDec_completed {s t : State} (hc : s.cfg.Ok) (hf : s.regs.fault = false) (ht : exec .bpDec s = .next t)
    (hdone : Completed t) : Decoded (refGreedy (symbolOf s) [] (bitSeq s)) s t := by
  have hno {c : Cause} {v : Word} (hr : Raises .bpDec s c v) : False := hr.not_completed ht hdone
  rcases bpDec_start_cases hf with hr | hr | ⟨hbits, hok⟩
  · exact (hno hr).elim
  · exact (hno hr).elim
  · rcases Nat.lt_or_ge s.cfg.sMax (refGreedy (symbolOf s) [] (bitSeq s)).1.length with hfull | hfit
    · exact (hno ((raises_bpDec_iff hf).2 (bpDecBody_overflows (s := s.setDone false) hc hbits hok hfull))).elim
    · obtain ⟨u, hu, _, hdec⟩ := bpDec_decodes hc hf hbits hok hfit
      obtain rfl : t = u := by simpa [ht] using hu
      exact hdec

/-! ### The obligations -/

/-- Settles O39, by what the loop does with every bit sequence. -/
theorem bpDecIsGreedyMatching : Obligations.BpDecIsGreedyMatching := by
  intro s hc hf hbits hok out
  refine ⟨fun hfit => ?_, fun hfull => ?_⟩
  · obtain ⟨t, ht, hdone, hdec⟩ := bpDec_decodes hc hf hbits hok hfit
    refine ⟨t, ht, hdone, hdec.symcnt, hdec.sidx, hdec.symbols, hdec.resid, ?_, hdec.bptr⟩
    rw [Regs.trunc, decide_eq_decide, ← hdec.resid, not_iff_not]
    exact ⟨congrArg BitVec.toNat, fun h => BitVec.eq_of_toNat_eq h⟩
  · exact (raises_bpDec_iff hf).2 (bpDecBody_overflows (s := s.setDone false) hc hbits hok hfull)

/-- A table that is empty, or has the empty codeword only, matches no buffer that has a bit (R114). -/
theorem symbolOf_none_of_no_codewords {s : State} (hok : CodeOk s)
    (h : s.regs.ccount = 0 ∨ (s.regs.ccount = 1 ∧ clenAt s 0 = 0)) (buf : List Bool) (b : Bool) :
    symbolOf s (buf ++ [b]) = none := by
  refine Option.eq_none_iff_forall_ne_some.2 fun w hw => ?_
  obtain ⟨j, hj, hword, _⟩ := (symbolOf_eq_some_iff hok).1 hw
  have hlen : clenAt s j = buf.length + 1 := by simpa using congrArg List.length hword
  rcases h with h | ⟨h, hzero⟩
  · simp [h] at hj
  · obtain rfl : j = 0 := by simpa [h] using hj
    omega

/-- Settles O41: greedy matching with no match leaves every bit over. -/
theorem bpDecWithoutCodewordsLeavesEveryBit : Obligations.BpDecWithoutCodewordsLeavesEveryBit := by
  intro s hc hf hbits hok h
  have hout : refGreedy (symbolOf s) [] (bitSeq s) = ([], s.regs.bitlen.toNat) := by
    rw [refGreedy_of_none (symbolOf_none_of_no_codewords hok h), bitSeq_length, List.length_nil, Nat.zero_add]
  obtain ⟨t, ht, hdone, hdec⟩ := bpDec_decodes hc hf hbits hok (by rw [hout]; exact Nat.zero_le _)
  rw [hout] at hdec
  exact ⟨t, ht, hdone, BitVec.eq_of_toNat_eq hdec.symcnt, BitVec.eq_of_toNat_eq hdec.resid,
    fun i => hdec.others i (Nat.zero_le i)⟩

end Sys2Proof.Machine
end

section
/-! PROOFS. The round trip of the table coder (R115), the sizes of its outputs (R116), and what its commands leave
unchanged (R111, R112, R151). -/

namespace Sys2Proof.Machine

/-! ### Decoding what was encoded (R115) -/

/-- A codeword of which the match buffer holds the first bits, and with whose other bits the sequence begins, is matched
whole: no entry's codeword ends before it does (R32). -/
theorem refGreedy_codeword {s : State} (hok : CodeOk s) {j : Nat} (hj : j < s.regs.ccount.toNat) (rest : List Bool)
    {buf : List Bool} {b : Bool} {more : List Bool} (hword : codeword s j = buf ++ b :: more) :
    refGreedy (symbolOf s) buf (b :: more ++ rest) =
      (memRead s .csym j :: (refGreedy (symbolOf s) [] rest).1, (refGreedy (symbolOf s) [] rest).2) := by
  induction more generalizing buf b with
  | nil => exact refGreedy_match rest ((symbolOf_eq_some_iff hok).2 ⟨j, hj, hword, rfl⟩)
  | cons c more ih =>
    have hnext : codeword s j = (buf ++ [b]) ++ c :: more := by rw [hword, List.append_assoc, List.singleton_append]
    have hnone : symbolOf s (buf ++ [b]) = none := by
      refine Option.eq_none_iff_forall_ne_some.2 fun w hw => ?_
      obtain ⟨i, hi, hbuf, _⟩ := (symbolOf_eq_some_iff hok).1 hw
      have hne : i ≠ j := by
        rintro rfl
        rw [hbuf] at hnext
        simpa using congrArg List.length hnext
      obtain ⟨_, _, _, _, hprefix⟩ := hok
      exact hprefix i hi j hj hne (by rw [hbuf, hnext]; exact List.prefix_append _ _)
    rw [List.cons_append, refGreedy_more _ hnone]
    exact ih hnext

/-- Greedy matching of codewords that are not empty gives their symbols and leaves no bit. -/
theorem refGreedy_codewords {s : State} (hok : CodeOk s) {codes : List Nat}
    (h : ∀ j ∈ codes, j < s.regs.ccount.toNat ∧ 1 ≤ clenAt s j) :
    refGreedy (symbolOf s) [] (codes.flatMap (codeword s)) = (codes.map (memRead s .csym), 0) := by
  induction codes with
  | nil => rfl
  | cons j rest ih =>
    obtain ⟨hj, hlen⟩ := h j List.mem_cons_self
    obtain ⟨b, more, hword⟩ := List.exists_cons_of_length_pos (l := codeword s j) (by rwa [codeword_length])
    rw [List.flatMap_cons, hword, refGreedy_codeword hok hj _ hword, ih fun i hi => h i (List.mem_cons_of_mem _ hi)]
    rfl

/-- Settles O42: the encoder's bits are the codewords of the symbols, which greedy matching takes apart. -/
theorem bpRoundTrip : Obligations.BpRoundTrip := by
  intro s t u hc hf ht hdone hlong hfu hcfg hcount hreads hbits
  obtain ⟨hlen, hok, codes, hs, hall, hfit, hseq⟩ := bpEnc_completed hc hf ht hdone
  have hentry {k j : Nat} (hk : codes[k]? = some j) :
      k < s.regs.symcnt.toNat ∧ CodesSymbol s (memRead s .symmem k) j := by
    obtain ⟨hlt, _⟩ := List.getElem?_eq_some_iff.1 hk
    have hsym := hs k j hk
    rw [Nat.zero_add] at hsym
    exact ⟨hall ▸ hlt, hsym⟩
  have htable : SameTable s u := .of_reads hcfg hcount hreads
  have hout : refGreedy (symbolOf u) [] (bitSeq u) = (codes.map (memRead s .csym), 0) := by
    rw [SameTable.symbolOf htable hok, hbits, hseq]
    refine refGreedy_codewords hok fun j hj => ?_
    obtain ⟨k, hk⟩ := List.mem_iff_getElem?.1 hj
    obtain ⟨hlt, hsym⟩ := hentry hk
    exact ⟨hsym.1, hlong k j hlt hsym⟩
  have hroom : u.regs.bitlen.toNat ≤ 8 * u.cfg.bMax := by
    rwa [← bitSeq_length, hbits, hseq, hcfg]
  obtain ⟨v, hv, hdonev, hdec⟩ := bpDec_decodes (hcfg ▸ hc : u.cfg.Ok) hfu hroom (Renames.codeOk htable hok)
    (by rw [hout, List.length_map, hall, hcfg]; exact hlen)
  rw [hout] at hdec
  refine ⟨v, hv, hdonev, BitVec.eq_of_toNat_eq ?_, BitVec.eq_of_toNat_eq hdec.resid, fun k hk => ?_⟩
  · rw [hdec.symcnt, List.length_map, hall]
  · have hget := List.getElem?_eq_getElem (l := codes) (i := k) (hall.symm ▸ hk)
    obtain ⟨_, _, hsym⟩ := hentry hget
    rw [← hsym]
    exact hdec.symbols k _ (by rw [List.getElem?_map, hget]; rfl)

/-! ### Sizes (R116) -/

/-- Settles O44: a symbol gives at most `CW_MAX` bits, and takes at least one. -/
theorem tableCoderOutputSizes : Obligations.TableCoderOutputSizes := by
  intro s t hc hf
  have hword : s.cfg.cwMax ≤ 32 := by
    obtain ⟨_, _, _, ⟨_, hword⟩, _⟩ := hc
    exact hword
  refine ⟨fun ht hdone => ?_, fun ht hroom info hraised => ?_, fun ht hdone => ?_⟩
  · obtain ⟨hlen, hok, codes, hs, hall, _, hseq⟩ := bpEnc_completed hc hf ht hdone
    have hsize := codewords_length_le hok hs.in_use
    rw [← hseq, bitSeq_length, hall] at hsize
    exact ⟨hsize, Nat.mul_le_mul hword hlen⟩
  · obtain ⟨hlen, hok, codes, hs, hle, hfull⟩ := bpEnc_overflowed hc hf ⟨t, ht, hraised⟩
    have hsize := codewords_length_le hok hs.in_use
    have hmax : s.cfg.cwMax * codes.length ≤ 32 * s.cfg.sMax := Nat.mul_le_mul hword (hle.trans hlen)
    omega
  · have hdec := bpDec_completed hc hf ht hdone
    have hsize := refGreedy_size (symbolOf s) [] (bitSeq s)
    rw [bitSeq_length, List.length_nil, Nat.zero_add] at hsize
    rw [hdec.symcnt]
    omega

/-! ### What `BP_ENC` leaves unchanged (R111, R151) -/

/-- The second state is the first but for `BITLEN`, `SIDX` and the bit memory (R111). -/
abbrev PackFrame (s t : State) : Prop :=
  t = { s with
    regs := { s.regs with bitlen := t.regs.bitlen, sidx := t.regs.sidx }
    arr := { s.arr with bitmem := t.arr.bitmem } }

theorem PackFrame.trans {s t u : State} (h : PackFrame s t) (k : PackFrame t u) : PackFrame s u :=
  Eq.trans k (by rw [h])

theorem emit_packFrame (b : Bool) (s : State) : Yields (PackFrame s) (emit b s) := by
  rcases emit_cases b s with ⟨_, he⟩ | ⟨_, t, he, hregs, _⟩
  · rw [he]
    exact .error (by decide)
  · have hframe : EncFrame s t := emit_encFrame he
    have hlow : t.regs.low = s.regs.low := by rw [hregs]
    have hhigh : t.regs.high = s.regs.high := by rw [hregs]
    rw [EncFrame, hlow, hhigh] at hframe
    rw [he]
    exact .ok hframe

theorem packSymbol_packFrame {s t : State} (h : PackFrame s t) (k : Nat) : Yields (PackFrame s) (packSymbol k t) := by
  unfold packSymbol
  split
  · exact .error (by decide)
  · exact (Yields.forLoop h fun _ u _ _ hu => (emit_packFrame _ u).mono fun _ => hu.trans).bind fun _ hv =>
      .ok (hv.trans rfl)

theorem bpEncBody_packFrame (s : State) : Yields (PackFrame s) (bpEncBody s) :=
  (checkSymcnt_yields s).bind fun _ _ => (checkTable_yields _).bind fun _ _ =>
    Yields.forLoop (y := packStart s) rfl fun k _ _ _ hu => packSymbol_packFrame hu k

/-- The second state is the first but for the flags, what `BP_ENC` writes, and the number of draws. -/
abbrev PackLeaves (s t : State) : Prop :=
  t = { s with
    regs := { s.regs with
      done := t.regs.done, fault := t.regs.fault, err := t.regs.err, errinfo := t.regs.errinfo
      bitlen := t.regs.bitlen, sidx := t.regs.sidx }
    arr := { s.arr with bitmem := t.arr.bitmem }
    draws := t.draws }

theorem bpEnc_leaves {s : State} (hf : s.regs.fault = false) : PackLeaves s (runCommand bpEncBody spoilBpEnc s) := by
  rcases runCommand_cases bpEncBody spoilBpEnc s with ⟨hyes, _⟩ | ⟨_, u, hu, he⟩ | ⟨_, r, _, he⟩
  · exact absurd (hf.symm.trans hyes) (by decide)
  · have hframe : PackFrame (s.setDone false) u := (bpEncBody_packFrame _).of_ok hu
    rw [he, hframe]
    rfl
  · rw [he]
    rfl

/-- A completed `BP_ENC` leaves the bytes from `BITBYTES` on (R111). -/
theorem bpEnc_bytesKept {s : State} (hc : s.cfg.Ok) (hf : s.regs.fault = false)
    (hdone : Completed (runCommand bpEncBody spoilBpEnc s)) : BytesKept s (runCommand bpEncBody spoilBpEnc s) := by
  obtain ⟨_, _, _, _, _, ⟨_, hb⟩, _⟩ := hc
  have h0 : BytesKept s ((s.setDone false).setBitlen 0) := ⟨hb, fun _ _ => rfl⟩
  exact (BytesKept.stable s).of_completed ((BytesKept.stable s).bpEncBody h0) hf hdone

/-! ### What `BP_DEC` leaves unchanged (R112, R151) -/

theorem unpackBit_frame {s : State} {x : State × List Bool} (h : UnpackFrame s x.1) (p : Nat) :
    Yields (fun y => UnpackFrame s y.1) (unpackBit p x) := by
  unfold unpackBit
  dsimp only
  split
  · exact .ok (h.trans rfl)
  · split
    · exact .error (by decide)
    · exact .ok (h.trans rfl)

theorem bpDecBody_frame (s : State) :
    Yields (fun t => ∃ u n r, UnpackFrame s u ∧ t = u.setTail n r) (bpDecBody s) := by
  refine (checkBitlen_yields s).bind fun _ _ => (checkTable_yields _).bind fun _ _ => ?_
  exact (Yields.forLoop (P := fun x : State × List Bool => UnpackFrame s x.1) (y := (unpackStart s, [])) rfl
    fun p _ _ _ hx => unpackBit_frame hx p).bind fun x hx => .ok ⟨x.1, _, _, hx, rfl⟩

/-- The second state is the first but for the flags, what `BP_DEC` writes, and the number of draws. -/
abbrev UnpackLeaves (s t : State) : Prop :=
  t = { s with
    regs := { s.regs with
      done := t.regs.done, fault := t.regs.fault, err := t.regs.err, errinfo := t.regs.errinfo
      symcnt := t.regs.symcnt, resid := t.regs.resid, bptr := t.regs.bptr, sidx := t.regs.sidx }
    arr := { s.arr with symmem := t.arr.symmem }
    draws := t.draws }

theorem bpDec_leaves {s : State} (hf : s.regs.fault = false) : UnpackLeaves s (runCommand bpDecBody spoilBpDec s) := by
  rcases runCommand_cases bpDecBody spoilBpDec s with ⟨hyes, _⟩ | ⟨_, t, ht, he⟩ | ⟨_, r, _, he⟩
  · exact absurd (hf.symm.trans hyes) (by decide)
  · obtain ⟨u, n, r, hframe, rfl⟩ := (bpDecBody_frame _).of_ok ht
    rw [he, hframe]
    rfl
  · rw [he]
    rfl

/-! ### The obligation -/

/-- Settles O52, by what the bodies keep and what the faults leave; the symbols from `SYMCNT` on by greedy matching. -/
theorem tableCommandsFrame : Obligations.TableCommandsFrame := by
  intro s t hf
  constructor
  · intro ht
    obtain rfl : runCommand bpEncBody spoilBpEnc s = t := by simpa [exec, execBpEnc] using ht
    have hleaves := bpEnc_leaves hf
    have hbytes := bpEnc_bytesKept (s := s) (hf := hf)
    generalize runCommand bpEncBody spoilBpEnc s = t at hleaves hbytes
    have hcfg : t.cfg = s.cfg := by rw [hleaves]
    have harr : t.arr = { s.arr with bitmem := t.arr.bitmem } := congrArg State.arr (show t = _ from hleaves)
    refine ⟨congrArg State.regs (show t = _ from hleaves), fun a ha => memRead_of_bitmem ha hcfg harr,
      fun hc hdone => (hbytes hc hdone).bytes, hcfg, ?_, ?_⟩ <;> rw [hleaves]
  · intro ht
    have hsyms (hc : s.cfg.Ok) (hdone : Completed t) : SameFrom .symmem t.regs.symcnt.toNat s t := by
      have hdec := bpDec_completed hc hf ht hdone
      rw [hdec.symcnt]
      exact hdec.others
    have hleaves : UnpackLeaves s t := by
      obtain rfl : runCommand bpDecBody spoilBpDec s = t := by simpa [exec, execBpDec] using ht
      exact bpDec_leaves hf
    have hcfg : t.cfg = s.cfg := by rw [hleaves]
    have harr : t.arr = { s.arr with symmem := t.arr.symmem } := congrArg State.arr (show t = _ from hleaves)
    refine ⟨congrArg State.regs (show t = _ from hleaves), fun a ha => memRead_of_symmem ha hcfg harr, hsyms, hcfg,
      ?_, ?_⟩ <;> rw [hleaves]

end Sys2Proof.Machine
end

section
/-! PROOFS. A loop that writes an array from its first element on, and the file `BS_PACK` makes of the bit sequence (R66,
R125). -/

namespace Sys2Proof.Machine

/-! ### Writing an array from its first element on -/

/-- The second state keeps the parameters, the port, and every element but those below `n` of array `a`. -/
structure KeepsOutside (a : Arr) (n : Nat) (s t : State) : Prop where
  cfg : t.cfg = s.cfg
  port : SamePort s t
  others : SameFrom a n s t
  arrays (b : Arr) : b ≠ a → SameArray b s t

/-- The second state is so kept, and holds `f i` in each element `i` below `n` of array `a`. -/
structure Wrote (a : Arr) (n : Nat) (f : Nat → Word) (s t : State) : Prop extends KeepsOutside a n s t where
  written (i : Nat) : i < n → memRead t a i = f i

section
variable {a : Arr} {n k : Nat} {f : Nat → Word} {s t : State}

theorem Wrote.nothing (a : Arr) (f : Nat → Word) (s : State) : Wrote a 0 f s s where
  cfg := rfl
  port := ⟨rfl, rfl⟩
  others _ _ := rfl
  arrays _ _ _ := rfl
  written i hi := absurd hi (Nat.not_lt_zero i)

/-- Registers are no part of what is kept. -/
theorem KeepsOutside.setRegs (h : KeepsOutside a n s t) (q r : Regs) :
    KeepsOutside a n { s with regs := q } { t with regs := r } where
  cfg := h.cfg
  port := h.port
  others := h.others
  arrays := h.arrays

theorem Wrote.setRegs (h : Wrote a n f s t) (r : Regs) : Wrote a n f s { t with regs := r } where
  toKeepsOutside := h.toKeepsOutside.setRegs s.regs r
  written := h.written

theorem Wrote.next (h : Wrote a n f s t) (hfit : (f n).toNat < 2 ^ a.width s.cfg) :
    Wrote a (n + 1) f s (memWrite t a n (f n)) where
  cfg := (memWrite_cfg _ _ _ _).trans h.cfg
  port := ⟨(memWrite_host _ _ _ _).trans h.port.1, (memWrite_responses _ _ _ _).trans h.port.2⟩
  others i hi := (memRead_memWrite_index t a _ (by omega)).trans (h.others i (by omega))
  arrays b hb i := (memRead_memWrite_array t _ _ _ hb).trans (h.arrays b hb i)
  written i hi := by
    rcases Nat.lt_succ_iff_lt_or_eq.1 hi with hlt | rfl
    · rw [memRead_memWrite_index t a _ (by omega), h.written i hlt]
    · exact memRead_memWrite_same t a i _ (h.cfg ▸ hfit)

/-- A loop whose body writes the next element of the array writes them all. -/
theorem forLoop_wrote {body : Nat → State → Except Raise State} (h : Wrote a k f s t)
    (hfit : ∀ i, (f i).toNat < 2 ^ a.width s.cfg)
    (hbody : ∀ i < n, ∀ u, Wrote a (k + i) f s u → body i u = .ok (memWrite u a (k + i) (f (k + i)))) :
    ∃ u, forLoop body n 0 t = .ok u ∧ u.regs = t.regs ∧ Wrote a (k + n) f s u := by
  have hloop := forLoop_ends (body := body) (n := n) (a := 0) (x := t)
    (P := fun i u => u.regs = t.regs ∧ Wrote a (k + i) f s u) ⟨rfl, h⟩
    fun i u _ hi ⟨hregs, hu⟩ => ⟨_, hbody i (by omega) u hu, (memWrite_regs _ _ _ _).trans hregs, hu.next (hfit _)⟩
  rwa [Nat.zero_add] at hloop

end

/-! ### The file of a bit sequence (R66, R125) -/

/-- Byte `b` of the bit sequence, the pad bits of the last byte cleared (R125). -/
def payloadByte (s : State) (b : Nat) : Word :=
  if b = bytesOf s.regs.bitlen.toNat - 1 ∧ s.regs.bitlen.toNat % 8 ≠ 0 then
    clearPad (memRead s .bitmem b) (s.regs.bitlen.toNat % 8)
  else memRead s .bitmem b

/-- Byte `i` of the file of the bit sequence: the pad count, then the payload (R66, R125). -/
def fileByte (s : State) : Nat → Word
  | 0 => trunc32 (padOf s.regs.bitlen.toNat)
  | b + 1 => payloadByte s b

theorem toNat_fileByte_zero (s : State) : (fileByte s 0).toNat = padOf s.regs.bitlen.toNat := by
  have hpad : padOf s.regs.bitlen.toNat < 8 := Nat.mod_lt _ (by decide)
  exact Nat.mod_eq_of_lt (by omega)

theorem fileByte_lt (s : State) (i : Nat) : (fileByte s i).toNat < 2 ^ 8 := by
  cases i with
  | zero =>
    rw [toNat_fileByte_zero]
    exact (Nat.mod_lt _ (by decide)).trans (by decide)
  | succ b =>
    have hbyte := memRead_bitmem_lt s b
    rw [fileByte, payloadByte]
    split
    · exact Nat.lt_of_le_of_lt (clearPad_le _ _) hbyte
    · exact hbyte

/-- Clearing `8 - r` pad bits keeps the first `r` bits of a byte (R125). -/
theorem clearPad_bit (y : Word) {r j : Nat} (hj : j < 8) :
    (clearPad y r).getLsbD j = (decide (8 - r ≤ j) && y.getLsbD j) := by
  rw [clearPad, trunc32, BitVec.getLsbD_ofNat, Nat.testBit_mul_two_pow, Nat.testBit_div_two_pow]
  by_cases hr : 8 - r ≤ j
  · rw [Nat.sub_add_cancel hr]
    simp [hr, BitVec.getLsbD, show j < 32 by omega]
  · simp [hr]

/-- The payload holds the bit sequence, and 0 after its end (R66, R125). -/
theorem fileByte_bit (s : State) {p : Nat} (hp : p < 8 * bytesOf s.regs.bitlen.toNat) :
    (fileByte s (p / 8 + 1)).getLsbD (7 - p % 8) = getbit s p := by
  unfold bytesOf at hp
  rw [fileByte, payloadByte, getbit, bytesOf]
  split
  · rw [clearPad_bit _ (by omega)]
    split
    · rw [decide_eq_true (by omega), Bool.true_and]
    · rw [decide_eq_false (by omega), Bool.false_and]
  · rw [if_pos (by omega)]

/-! ### `BS_PACK` (R125) -/

/-- The second state is the first with the file of its bit sequence written, and its length (R125). -/
structure PacksFile (s t : State) : Prop extends
    Wrote .filemem (1 + bytesOf s.regs.bitlen.toNat) (fileByte s) s t where
  regs : t.regs = { s.regs with filelen := BitVec.ofNat 32 (1 + bytesOf s.regs.bitlen.toNat) }

section
variable {s : State} (hbits : s.regs.bitlen.toNat ≤ 8 * s.cfg.bMax)

theorem bsPackBody_badLength (h : 8 * s.cfg.bMax < s.regs.bitlen.toNat) :
    bsPackBody s = .error { cause := .badLength, info := 1 } := by
  rw [bsPackBody, checkBitlen, if_pos h, error_bind]

include hbits

theorem bsPackBody_overflows (hfull : s.cfg.fMax < 1 + bytesOf s.regs.bitlen.toNat) :
    bsPackBody s = .error { cause := .overflow, info := 0 } := by
  rw [bsPackBody, checkBitlen_ok hbits, ok_bind, if_pos hfull]

theorem bsPackBody_packs (hroom : 1 + bytesOf s.regs.bitlen.toNat ≤ s.cfg.fMax) :
    ∃ t, bsPackBody s = .ok t ∧ PacksFile s t := by
  have hheader : Wrote .filemem 1 (fileByte s) s (memWrite s .filemem 0 (fileByte s 0)) :=
    (Wrote.nothing .filemem (fileByte s) s).next (fileByte_lt s 0)
  obtain ⟨u, hu, hregs, hwrote⟩ := forLoop_wrote
    (body := packByte (bytesOf s.regs.bitlen.toNat) (s.regs.bitlen.toNat % 8)) (n := bytesOf s.regs.bitlen.toNat)
    hheader (fileByte_lt s) fun b _ u hu => by
      rw [Nat.add_comm 1 b, packByte, hu.arrays .bitmem (by decide), Nat.add_comm 1 b]
      rfl
  refine ⟨u.setFilelen (BitVec.ofNat 32 (1 + bytesOf s.regs.bitlen.toNat)), ?_, hwrote.setRegs _, ?_⟩
  · rw [bsPackBody, checkBitlen_ok hbits, ok_bind, if_neg (Nat.not_lt.2 hroom)]
    exact congrArg (· >>= _) hu
  · rw [State.setFilelen, hregs, memWrite_regs]

end

/-- A body that went through packed the file. -/
theorem PacksFile.of_bsPackBody {s t : State} (ht : bsPackBody s = .ok t) : PacksFile s t := by
  have hno {r : Raise} (hr : bsPackBody s = .error r) : False := by simp [ht] at hr
  have hbits : s.regs.bitlen.toNat ≤ 8 * s.cfg.bMax := Nat.not_lt.1 fun h => hno (bsPackBody_badLength h)
  obtain ⟨u, hu, hpacks⟩ := bsPackBody_packs hbits (Nat.not_lt.1 fun h => hno (bsPackBody_overflows hbits h))
  obtain rfl : t = u := by simpa [ht] using hu
  exact hpacks

/-- The second state holds the file of the first one's bit sequence, pad bits 0 (R66). -/
structure HoldsFile (s t : State) : Prop where
  filelen : t.regs.filelen.toNat = 1 + bytesOf s.regs.bitlen.toNat
  header : (memRead t .filemem 0).toNat = padOf s.regs.bitlen.toNat
  payload (p : Nat) : p < 8 * bytesOf s.regs.bitlen.toNat → fileBit t p = getbit s p

theorem PacksFile.holdsFile {s t : State} (h : PacksFile s t) (hroom : 1 + bytesOf s.regs.bitlen.toNat < 2 ^ 32) :
    HoldsFile s t where
  filelen := by
    rw [h.regs]
    exact Nat.mod_eq_of_lt hroom
  header := by rw [h.written 0 (by omega), toNat_fileByte_zero]
  payload p hp := by rw [fileBit, h.written _ (by omega), Nat.add_comm, fileByte_bit s hp]

/-- The pad count makes up the last byte. -/
theorem bitlen_add_padOf (n : Nat) : n + padOf n = 8 * bytesOf n := by
  unfold padOf bytesOf
  omega

/-- The number of bits a file image stands for, 0 for the empty file (R66). -/
def payloadBits (s : State) : Nat := 8 * (s.regs.filelen.toNat - 1) - (memRead s .filemem 0).toNat

theorem payloadBits_of_empty {s : State} (h : s.regs.filelen.toNat = 0) : payloadBits s = 0 := by
  rw [payloadBits, h]
  exact Nat.zero_sub _

theorem fileSeq_eq (s : State) : fileSeq s = (List.range (payloadBits s)).map (fileBit s) := by
  unfold fileSeq
  split
  · rename_i hempty
    rw [payloadBits_of_empty hempty]
    rfl
  · rfl

theorem HoldsFile.payloadBits_eq {s t : State} (h : HoldsFile s t) : payloadBits t = s.regs.bitlen.toNat := by
  rw [payloadBits, h.filelen, h.header, Nat.add_sub_cancel_left, ← bitlen_add_padOf, Nat.add_sub_cancel]

theorem HoldsFile.fileSeq_eq {s t : State} (h : HoldsFile s t) : fileSeq t = bitSeq s := by
  have hpad := bitlen_add_padOf s.regs.bitlen.toNat
  rw [Machine.fileSeq_eq, h.payloadBits_eq]
  exact List.map_congr_left fun p hp => h.payload p (by have := List.mem_range.1 hp; omega)

theorem HoldsFile.pads_zero {s t : State} (h : HoldsFile s t) {p : Nat} (hp : s.regs.bitlen.toNat ≤ p)
    (hlt : p < 8 * bytesOf s.regs.bitlen.toNat) : fileBit t p = false :=
  (h.payload p hlt).trans (getbit_of_ge s hp)

theorem raises_bsPack_iff {s : State} (hf : s.regs.fault = false) {c : Cause} {info : Word} :
    Raises .bsPack s c info ↔ bsPackBody (s.setDone false) = .error { cause := c, info := info } :=
  raises_iff_body (fun _ => rfl) hf spoilBsPack_keeps

/-- `BS_PACK` completes with the file of the bit sequence where it fits. -/
theorem bsPack_holdsFile {s : State} (hc : s.cfg.Ok) (hf : s.regs.fault = false)
    (hbits : s.regs.bitlen.toNat ≤ 8 * s.cfg.bMax) (hroom : 1 + bytesOf s.regs.bitlen.toNat ≤ s.cfg.fMax) :
    ∃ t, exec .bsPack s = .next t ∧ Completed t ∧ t.cfg = s.cfg ∧ HoldsFile s t := by
  obtain ⟨_, _, _, _, _, _, ⟨_, hmax⟩, _⟩ := hc
  obtain ⟨t, ht, hpacks⟩ := bsPackBody_packs (s := s.setDone false) hbits hroom
  obtain ⟨hx, hdone⟩ := completes_of_body (i := .bsPack) (fun _ => rfl) hf bsPackBody_yields ht
  have hlt : 1 + bytesOf s.regs.bitlen.toNat < 2 ^ 32 := by omega
  have hfile := hpacks.holdsFile hlt
  exact ⟨_, hx, hdone, hpacks.cfg, hfile.filelen, hfile.header, hfile.payload⟩

/-! ### The obligation -/

/-- Settles O45, by the bits of the file the copy loop writes. -/
theorem bsPackWritesTheFile : Obligations.BsPackWritesTheFile := by
  intro s hc hf hbits n
  refine ⟨fun hroom => ?_, fun hfull => ?_⟩
  · obtain ⟨t, ht, hdone, _, hfile⟩ := bsPack_holdsFile hc hf hbits hroom
    exact ⟨t, ht, hdone, hfile.filelen, hfile.header, hfile.fileSeq_eq, fun _ => hfile.pads_zero⟩
  · exact (raises_bsPack_iff hf).2 (bsPackBody_overflows (s := s.setDone false) hbits hfull)

end Sys2Proof.Machine
end

section
/-! PROOFS. The bit sequence `BS_UNPACK` makes of a file, and the files it refuses (R66, R126). -/

namespace Sys2Proof.Machine

/-! ### How the command ends (R126) -/

/-- The header is above 7, or above 0 in a file without payload (R126). -/
abbrev BadHeader (s : State) : Prop :=
  7 < (memRead s .filemem 0).toNat ∨ (s.regs.filelen.toNat - 1 = 0 ∧ 0 < (memRead s .filemem 0).toNat)

/-- The file is empty, or its header is good and its payload fits the bit memory (R126). -/
abbrev FileOk (s : State) : Prop :=
  s.regs.filelen.toNat ≤ s.cfg.fMax ∧
  (1 ≤ s.regs.filelen.toNat → ¬ BadHeader s ∧ s.regs.filelen.toNat - 1 ≤ s.cfg.bMax)

/-- The second state is the first with the payload of its file copied, and the number of its bits (R126). -/
structure UnpacksFile (s t : State) : Prop extends
    Wrote .bitmem (s.regs.filelen.toNat - 1) (fun b => memRead s .filemem (1 + b)) s t where
  regs : t.regs = { s.regs with bitlen := BitVec.ofNat 32 (payloadBits s) }

section
variable {s : State}

theorem bsUnpackBody_badLength (h : s.cfg.fMax < s.regs.filelen.toNat) :
    bsUnpackBody s = .error { cause := .badLength, info := 2 } := by
  rw [bsUnpackBody, checkFilelen, if_pos h, error_bind]

theorem bsUnpackBody_empty (h : s.regs.filelen.toNat = 0) : bsUnpackBody s = .ok (s.setBitlen 0) := by
  rw [bsUnpackBody, checkFilelen_eq, if_pos (h ▸ Nat.zero_le _), ok_bind, if_pos h]

section
variable (hlen : s.regs.filelen.toNat ≤ s.cfg.fMax) (hone : 1 ≤ s.regs.filelen.toNat)
include hlen hone

theorem bsUnpackBody_start : bsUnpackBody s =
    if BadHeader s then .error { cause := .format, info := memRead s .filemem 0 }
    else if s.cfg.bMax < s.regs.filelen.toNat - 1 then .error { cause := .overflow, info := 0 }
    else forLoop unpackByte (s.regs.filelen.toNat - 1) 0 s >>= fun t =>
      .ok (t.setBitlen (BitVec.ofNat 32 (payloadBits s))) := by
  rw [bsUnpackBody, checkFilelen_eq, if_pos hlen, ok_bind, if_neg (Nat.ne_of_gt hone), ite_or]
  rfl

theorem bsUnpackBody_format (hbad : BadHeader s) :
    bsUnpackBody s = .error { cause := .format, info := memRead s .filemem 0 } := by
  rw [bsUnpackBody_start hlen hone, if_pos hbad]

theorem bsUnpackBody_overflows (hgood : ¬ BadHeader s) (hfull : s.cfg.bMax < s.regs.filelen.toNat - 1) :
    bsUnpackBody s = .error { cause := .overflow, info := 0 } := by
  rw [bsUnpackBody_start hlen hone, if_neg hgood, if_pos hfull]

end

theorem bsUnpackBody_unpacks (h : FileOk s) : ∃ t, bsUnpackBody s = .ok t ∧ UnpacksFile s t := by
  obtain ⟨hlen, hgood⟩ := h
  rcases Nat.eq_zero_or_pos s.regs.filelen.toNat with hempty | hone
  · refine ⟨_, bsUnpackBody_empty hempty, ?_, ?_⟩
    · rw [hempty]
      exact (Wrote.nothing _ _ s).setRegs _
    · rw [payloadBits_of_empty hempty]
      rfl
  · obtain ⟨hheader, hfit⟩ := hgood hone
    obtain ⟨u, hu, hregs, hwrote⟩ := forLoop_wrote (body := unpackByte) (n := s.regs.filelen.toNat - 1)
      (Wrote.nothing .bitmem (fun b => memRead s .filemem (1 + b)) s) (fun b => memRead_filemem_lt s (1 + b))
      fun b _ u hu => by rw [unpackByte, hu.arrays .filemem (by decide), Nat.zero_add]
    rw [Nat.zero_add] at hwrote
    refine ⟨u.setBitlen (BitVec.ofNat 32 (payloadBits s)), ?_, hwrote.setRegs _, ?_⟩
    · rw [bsUnpackBody_start hlen hone, if_neg hheader, if_neg (Nat.not_lt.2 hfit), hu, ok_bind]
    · rw [State.setBitlen, hregs]

/-- A body that went through had a good file. -/
theorem FileOk.of_bsUnpackBody {t : State} (ht : bsUnpackBody s = .ok t) : FileOk s := by
  have hno {r : Raise} (hr : bsUnpackBody s = .error r) : False := by simp [ht] at hr
  have hlen : s.regs.filelen.toNat ≤ s.cfg.fMax := Nat.not_lt.1 fun h => hno (bsUnpackBody_badLength h)
  refine ⟨hlen, fun hone => ?_⟩
  have hgood : ¬ BadHeader s := fun h => hno (bsUnpackBody_format hlen hone h)
  exact ⟨hgood, Nat.not_lt.1 fun h => hno (bsUnpackBody_overflows hlen hone hgood h)⟩

/-- A body that went through unpacked the file. -/
theorem UnpacksFile.of_bsUnpackBody {t : State} (ht : bsUnpackBody s = .ok t) : UnpacksFile s t := by
  obtain ⟨u, hu, hunpacks⟩ := bsUnpackBody_unpacks (FileOk.of_bsUnpackBody ht)
  obtain rfl : t = u := by simpa [ht] using hu
  exact hunpacks

end

/-! ### The bits of a file (R66) -/

/-- The second state holds the bits of the first one's file (R66). -/
structure HoldsBits (s t : State) : Prop where
  bitlen : t.regs.bitlen.toNat = payloadBits s
  bytes (b : Nat) : b < s.regs.filelen.toNat - 1 → memRead t .bitmem b = memRead s .filemem (1 + b)

theorem UnpacksFile.holdsBits {s t : State} (h : UnpacksFile s t) (hroom : payloadBits s < 2 ^ 32) : HoldsBits s t where
  bitlen := by
    rw [h.regs]
    exact Nat.mod_eq_of_lt hroom
  bytes := h.written

section
variable {s t : State} (h : HoldsBits s t)
include h

theorem HoldsBits.storedBit {p : Nat} (hp : p < 8 * (s.regs.filelen.toNat - 1)) : storedBit t p = fileBit s p := by
  rw [Machine.storedBit, h.bytes _ (by omega), fileBit]

theorem HoldsBits.getbit {p : Nat} (hp : p < t.regs.bitlen.toNat) : getbit t p = fileBit s p := by
  have hlen : p < 8 * (s.regs.filelen.toNat - 1) := by
    rw [h.bitlen, payloadBits] at hp
    omega
  rw [Machine.getbit, if_pos hp]
  exact h.storedBit hlen

theorem HoldsBits.bitSeq_eq : bitSeq t = fileSeq s := by
  rw [fileSeq_eq, bitSeq, h.bitlen]
  exact List.map_congr_left fun p hp => h.getbit (h.bitlen ▸ List.mem_range.1 hp)

end

section
variable {s : State} (hf : s.regs.fault = false)
include hf

theorem raises_bsUnpack_iff {c : Cause} {info : Word} :
    Raises .bsUnpack s c info ↔ bsUnpackBody (s.setDone false) = .error { cause := c, info := info } :=
  raises_iff_body (fun _ => rfl) hf spoilBsUnpack_keeps

/-- `BS_UNPACK` completes with the bits of a good file. -/
theorem bsUnpack_holdsBits (hc : s.cfg.Ok) (h : FileOk s) :
    ∃ t, exec .bsUnpack s = .next t ∧ Completed t ∧ t.cfg = s.cfg ∧ HoldsBits s t := by
  obtain ⟨_, _, _, _, _, _, ⟨_, hmax⟩, _⟩ := hc
  obtain ⟨t, ht, hunpacks⟩ := bsUnpackBody_unpacks (s := s.setDone false) h
  obtain ⟨hx, hdone⟩ := completes_of_body (i := .bsUnpack) (fun _ => rfl) hf bsUnpackBody_yields ht
  have hlt : payloadBits s < 2 ^ 32 := by
    obtain ⟨hlen, _⟩ := h
    unfold payloadBits
    omega
  have hbits := hunpacks.holdsBits hlt
  exact ⟨_, hx, hdone, hunpacks.cfg, hbits.bitlen, hbits.bytes⟩

/-- A `BS_UNPACK` that completed had a good file, and holds its bits. -/
theorem bsUnpack_completed {t : State} (hc : s.cfg.Ok) (ht : exec .bsUnpack s = .next t) (hdone : Completed t) :
    FileOk s ∧ t.cfg = s.cfg ∧ HoldsBits s t := by
  cases hb : bsUnpackBody (s.setDone false) with
  | error r => exact (((raises_bsUnpack_iff hf).2 hb).not_completed ht hdone).elim
  | ok u =>
    have hok : FileOk s := FileOk.of_bsUnpackBody (s := s.setDone false) hb
    obtain ⟨v, hv, _, hkept⟩ := bsUnpack_holdsBits hf hc hok
    obtain rfl : t = v := by simpa [ht] using hv
    exact ⟨hok, hkept⟩

end

/-! ### The obligation -/

/-- Settles O46, by the cases of the command's body. -/
theorem bsUnpackReadsTheFile : Obligations.BsUnpackReadsTheFile := by
  intro s hc hf hlen pad n
  refine ⟨fun hempty => ?_, fun _ hle hno hfit => ?_, fun hone hbad => ?_, fun hone hle hno hfull => ?_⟩
  · have hzero : s.regs.filelen.toNat = 0 := by simp [hempty]
    obtain ⟨hx, _⟩ := completes_of_body (i := .bsUnpack) (fun _ => rfl) hf bsUnpackBody_yields
      (bsUnpackBody_empty (s := s.setDone false) hzero)
    exact hx
  · have hgood : ¬ BadHeader s := not_or.2 ⟨Nat.not_lt.2 hle, hno⟩
    obtain ⟨t, ht, hdone, _, hbits⟩ := bsUnpack_holdsBits hf hc ⟨hlen, fun _ => ⟨hgood, hfit⟩⟩
    exact ⟨t, ht, hdone, hbits.bitlen, hbits.bitSeq_eq, hbits.bytes⟩
  · exact (raises_bsUnpack_iff hf).2 (bsUnpackBody_format (s := s.setDone false) hlen hone hbad)
  · have hgood : ¬ BadHeader s := not_or.2 ⟨Nat.not_lt.2 hle, hno⟩
    exact (raises_bsUnpack_iff hf).2 (bsUnpackBody_overflows (s := s.setDone false) hlen hone hgood hfull)

end Sys2Proof.Machine
end

section
/-! PROOFS. The round trip of the bitstream file (R127), and what the file commands leave unchanged (R125, R126, R140,
R151). -/

namespace Sys2Proof.Machine

/-! ### The round trip (R127) -/

/-- The file of a bit sequence that fits the bit memory is a good file. -/
theorem HoldsFile.fileOk {s t : State} (h : HoldsFile s t) (hcfg : t.cfg = s.cfg)
    (hbits : s.regs.bitlen.toNat ≤ 8 * s.cfg.bMax) (hroom : 1 + bytesOf s.regs.bitlen.toNat ≤ s.cfg.fMax) :
    FileOk t := by
  have hpad : padOf s.regs.bitlen.toNat < 8 := Nat.mod_lt _ (by decide)
  have hsum := bitlen_add_padOf s.regs.bitlen.toNat
  unfold FileOk BadHeader
  rw [h.filelen, h.header, hcfg]
  omega

/-- The bit sequence of a good file has the file's length and pad count, and fits the bit memory (R66). -/
theorem FileOk.sizes {s : State} (h : FileOk s) (hone : 1 ≤ s.regs.filelen.toNat) :
    bytesOf (payloadBits s) = s.regs.filelen.toNat - 1 ∧ padOf (payloadBits s) = (memRead s .filemem 0).toNat ∧
      payloadBits s ≤ 8 * s.cfg.bMax := by
  obtain ⟨_, hgood⟩ := h
  obtain ⟨hheader, hfit⟩ := hgood hone
  obtain ⟨hle, hno⟩ := not_or.1 hheader
  unfold payloadBits bytesOf padOf
  omega

/-- The bits of a good file can be packed. -/
theorem HoldsBits.packs {s t : State} (h : HoldsBits s t) (hok : FileOk s) (hcfg : t.cfg = s.cfg) (hc : s.cfg.Ok) :
    t.regs.bitlen.toNat ≤ 8 * t.cfg.bMax ∧ 1 + bytesOf t.regs.bitlen.toNat ≤ t.cfg.fMax := by
  obtain ⟨_, _, _, _, _, _, ⟨hmax, _⟩, _⟩ := hc
  rw [h.bitlen, hcfg]
  rcases Nat.eq_zero_or_pos s.regs.filelen.toNat with hempty | hone
  · rw [payloadBits_of_empty hempty]
    exact ⟨Nat.zero_le _, hmax⟩
  · obtain ⟨hbytes, _, hfit⟩ := hok.sizes hone
    obtain ⟨hlen, _⟩ := hok
    rw [hbytes, Nat.add_sub_cancel' hone]
    exact ⟨hfit, hlen⟩

/-- Unpacking the file of a bit sequence gives the sequence back, pad bits 0 (R127). -/
theorem HoldsFile.unpacked {s t u : State} (h : HoldsFile s t) (hu : HoldsBits t u) :
    u.regs.bitlen = s.regs.bitlen ∧ (∀ p, p < s.regs.bitlen.toNat → getbit u p = getbit s p) ∧
      ∀ p, s.regs.bitlen.toNat ≤ p → p < 8 * bytesOf s.regs.bitlen.toNat → storedBit u p = false := by
  have hpad := bitlen_add_padOf s.regs.bitlen.toNat
  have hbytes : t.regs.filelen.toNat - 1 = bytesOf s.regs.bitlen.toNat := by
    rw [h.filelen, Nat.add_sub_cancel_left]
  have hlen : u.regs.bitlen = s.regs.bitlen :=
    BitVec.eq_of_toNat_eq (by rw [hu.bitlen, h.payloadBits_eq])
  refine ⟨hlen, fun p hp => ?_, fun p hp hlt => ?_⟩
  · rw [hu.getbit (by rwa [hlen]), h.payload p (by omega)]
  · rw [hu.storedBit (by rwa [hbytes]), h.pads_zero hp hlt]

/-- Packing the bits of a good file gives the file back, pad bits 0 (R127). -/
theorem HoldsBits.packed {s t u : State} (h : HoldsBits s t) (hok : FileOk s) (hone : 1 ≤ s.regs.filelen.toNat)
    (hu : HoldsFile t u) :
    u.regs.filelen = s.regs.filelen ∧ memRead u .filemem 0 = memRead s .filemem 0 ∧
      (∀ p, p < t.regs.bitlen.toNat → fileBit u p = fileBit s p) ∧
      ∀ p, t.regs.bitlen.toNat ≤ p → p < 8 * (s.regs.filelen.toNat - 1) → fileBit u p = false := by
  obtain ⟨hbytes, hpad, _⟩ := hok.sizes hone
  have hsum := bitlen_add_padOf t.regs.bitlen.toNat
  rw [← h.bitlen] at hbytes hpad
  refine ⟨BitVec.eq_of_toNat_eq ?_, BitVec.eq_of_toNat_eq (hu.header.trans hpad), fun p hp => ?_, fun p hp hlt => ?_⟩
  · rw [hu.filelen, hbytes, Nat.add_sub_cancel' hone]
  · rw [hu.payload p (by omega), h.getbit hp]
  · exact hu.pads_zero hp (by rwa [hbytes])

/-- Packing the bits of the empty file gives the file of one byte 0 (R127). -/
theorem HoldsBits.packed_empty {s t u : State} (h : HoldsBits s t) (hempty : s.regs.filelen.toNat = 0)
    (hu : HoldsFile t u) : u.regs.filelen = 1 ∧ memRead u .filemem 0 = 0 := by
  have hzero : t.regs.bitlen.toNat = 0 := h.bitlen.trans (payloadBits_of_empty hempty)
  have hlen := hu.filelen
  have hheader := hu.header
  rw [hzero] at hlen hheader
  exact ⟨BitVec.eq_of_toNat_eq hlen, BitVec.eq_of_toNat_eq hheader⟩

/-- Settles O47: each command holds what the other needs, whatever its own output held before. -/
theorem packUnpackRoundTrip : Obligations.PackUnpackRoundTrip := by
  intro s hc hf
  constructor
  · intro hbits hroom
    obtain ⟨t, ht, hdone, hcfg, hfile⟩ := bsPack_holdsFile hc hf hbits hroom
    refine ⟨t, ht, hdone, ?_, fun bitmem junk => ?_⟩
    · rw [hfile.header]
      exact Nat.le_of_lt_succ (Nat.mod_lt _ (by decide))
    · obtain ⟨u, hu, hdoneu, _, hheld⟩ := bsUnpack_holdsBits
        (s := { t with arr := { t.arr with bitmem := bitmem }, regs := { t.regs with bitlen := junk } })
        hdone.2 (hcfg ▸ hc : t.cfg.Ok) (hfile.fileOk hcfg hbits hroom)
      exact ⟨u, hu, hdoneu, hfile.unpacked ⟨hheld.bitlen, hheld.bytes⟩⟩
  · intro t ht hdone filemem junk
    obtain ⟨hok, hcfg, hbits⟩ := bsUnpack_completed hf hc ht hdone
    obtain ⟨hlen, hroom⟩ := hbits.packs hok hcfg hc
    obtain ⟨u, hu, hdoneu, _, hheld⟩ := bsPack_holdsFile
      (s := { t with arr := { t.arr with filemem := filemem }, regs := { t.regs with filelen := junk } })
      (hcfg ▸ hc : t.cfg.Ok) hdone.2 hlen hroom
    have hfile : HoldsFile t u := ⟨hheld.filelen, hheld.header, hheld.payload⟩
    exact ⟨u, hu, hdoneu, fun hempty => hbits.packed_empty (by simp [hempty]) hfile,
      fun hone => hbits.packed hok hone hfile⟩

/-! ### What the file commands leave unchanged (R140, R151) -/

theorem memRead_of_filemem {s t : State} {a : Arr} (ha : a ≠ .filemem) (hc : t.cfg = s.cfg)
    (harr : t.arr = { s.arr with filemem := t.arr.filemem }) (i : Nat) : memRead t a i = memRead s a i := by
  rw [memRead_congr (s := { s with arr := { s.arr with filemem := t.arr.filemem } }) a i hc harr]
  cases a with
  | filemem => exact absurd rfl ha
  | _ => rfl

theorem spoilBsPack_keepsOutside (s : State) :
    KeepsOutside .filemem (1 + bytesOf s.regs.bitlen.toNat) s (spoilBsPack s) where
  cfg := rfl
  port := ⟨rfl, rfl⟩
  others _ hi := congrArg (BitVec.setWidth 32) (Memory.read_spoil_ge _ _ _ ((Nat.min_le_left _ _).trans hi))
  arrays _ ha := memRead_of_filemem ha rfl (spoilBsPack_arr s)

theorem spoilBsUnpack_keepsOutside (s : State) :
    KeepsOutside .bitmem (s.regs.filelen.toNat - 1) s (spoilBsUnpack s) where
  cfg := rfl
  port := ⟨rfl, rfl⟩
  others _ hi := congrArg (BitVec.setWidth 32) (Memory.read_spoil_ge _ _ _ ((Nat.min_le_left _ _).trans hi))
  arrays _ ha := memRead_of_bitmem ha rfl (spoilBsUnpack_arr s)

/-- What holds of every completion and of every fault of a command that is not ignored. -/
theorem runCommand_ends {P : State → Prop} {body : State → Except Raise State} {spoil : State → State} {s : State}
    (hf : s.regs.fault = false) (hok : ∀ t, body (s.setDone false) = .ok t → P (t.setDone true))
    (herror : ∀ r, P (faultEntry r (spoil (s.setDone false)))) : P (runCommand body spoil s) := by
  rcases runCommand_cases body spoil s with ⟨hyes, _⟩ | ⟨_, t, ht, he⟩ | ⟨_, r, _, he⟩
  · exact absurd (hf.symm.trans hyes) (by decide)
  · exact he ▸ hok t ht
  · exact he ▸ herror r

/-- The second state keeps what no end of `BS_PACK` changes (R125, R151). -/
structure BsPackLeaves (s t : State) : Prop extends
    KeepsOutside .filemem (1 + bytesOf s.regs.bitlen.toNat) s t where
  regs : t.regs = { s.regs with
    done := t.regs.done, fault := t.regs.fault, err := t.regs.err, errinfo := t.regs.errinfo
    filelen := t.regs.filelen }

/-- The second state keeps what no end of `BS_UNPACK` changes (R126, R151). -/
structure BsUnpackLeaves (s t : State) : Prop extends KeepsOutside .bitmem (s.regs.filelen.toNat - 1) s t where
  regs : t.regs = { s.regs with
    done := t.regs.done, fault := t.regs.fault, err := t.regs.err, errinfo := t.regs.errinfo
    bitlen := t.regs.bitlen }

section
variable {s : State} (hf : s.regs.fault = false)
include hf

theorem bsPack_leaves : BsPackLeaves s (runCommand bsPackBody spoilBsPack s) := by
  refine runCommand_ends hf (fun t ht => ?_) fun r => ⟨(spoilBsPack_keepsOutside (s.setDone false)).setRegs _ _, rfl⟩
  have hpacks := PacksFile.of_bsPackBody ht
  exact ⟨hpacks.toKeepsOutside.setRegs _ _, by rw [State.setDone, hpacks.regs]; rfl⟩

theorem bsUnpack_leaves : BsUnpackLeaves s (runCommand bsUnpackBody spoilBsUnpack s) := by
  refine runCommand_ends hf (fun t ht => ?_) fun r => ⟨(spoilBsUnpack_keepsOutside (s.setDone false)).setRegs _ _, rfl⟩
  have hunpacks := UnpacksFile.of_bsUnpackBody ht
  exact ⟨hunpacks.toKeepsOutside.setRegs _ _, by rw [State.setDone, hunpacks.regs]; rfl⟩

end

/-- Settles O53, by what the bodies write and what the faults leave. -/
theorem fileCommandsFrame : Obligations.FileCommandsFrame := by
  intro s t hf
  constructor
  · intro ht
    obtain rfl : runCommand bsPackBody spoilBsPack s = t := by simpa [exec, execBsPack] using ht
    obtain ⟨⟨hcfg, ⟨hhost, hresponses⟩, hothers, harrays⟩, hregs⟩ := bsPack_leaves hf
    exact ⟨hregs, harrays, hothers, hcfg, hhost, hresponses⟩
  · intro ht
    obtain rfl : runCommand bsUnpackBody spoilBsUnpack s = t := by simpa [exec, execBsUnpack] using ht
    obtain ⟨⟨hcfg, ⟨hhost, hresponses⟩, hothers, harrays⟩, hregs⟩ := bsUnpack_leaves hf
    exact ⟨hregs, harrays, hothers, hcfg, hhost, hresponses⟩

end Sys2Proof.Machine
end

section
/-! PROOFS. The control commands and the commands as a family (R54, R135 to R137, R140): what `NOP` and `SRESET` do,
that a set `FAULT` makes dispatch ignore a command, and from both who may write what and who may clear `FAULT`. -/

namespace Sys2Proof.Machine

/-! ### Dispatch, `NOP` and `SRESET` (R135 to R137) -/

/-- Settles O6: each kind of move has an answer, and so has each command. -/
theorem everyStepAnswersANextState : Obligations.EveryStepAnswersANextState := by
  intro s
  match hh : s.host with
  | [] => exact ⟨_, step_idle hh⟩
  | op :: rest =>
    cases hc : commandWord s.cfg op with
    | none => exact ⟨_, step_move hh hc⟩
    | some w =>
      cases hd : decode w with
      | error e => exact ⟨_, step_illegal hh hc hd⟩
      | ok i =>
        obtain ⟨t, ht⟩ := exec_next i { s with host := rest }
        exact ⟨t.respond .ok, by rw [step_command hh hc hd, ht]; rfl⟩

/-- Settles O7, by dispatch. -/
theorem faultIgnoresEveryCommandButSreset : Obligations.FaultIgnoresEveryCommandButSreset := by
  intro s i hf hi
  obtain ⟨body, spoil, hx⟩ := exec_eq_runCommand i hi
  rw [hx, runCommand_ignored hf]

/-- Settles O9, by dispatch of a body that changes nothing. -/
theorem nopSetsDoneOnly : Obligations.NopSetsDoneOnly := by
  intro s
  refine ⟨fun hf => ?_, fun hf => faultIgnoresEveryCommandButSreset s .nop hf (by decide)⟩
  rw [exec, execNop, runCommand_completes hf rfl]
  rfl

/-- `SRESET` does what leaving the fault state does (R137, R153). -/
theorem exec_sreset (s : State) : exec .sreset s = .next (resetRegs s) := rfl

/-- Settles O10: the reset values of the registers, written out. -/
theorem sresetRestoresEveryRegister : Obligations.SresetRestoresEveryRegister :=
  exec_sreset

/-! ### Who may write what (R54, R140, R151) -/

/-- The commands that write an array (R54). -/
def Arr.writers : Arr → List Instr
  | .symmem => [.rcDec, .bpDec]
  | .bitmem => [.rcEnc, .bpEnc, .bsUnpack]
  | .filemem => [.bsPack]
  | .msym | .mfreq | .mcum | .csym | .clen | .cbits => []

/-- `q` keeps what command `i`, other than `SRESET`, never writes of the counts and lengths in `r` (R140). -/
structure CountsKept (i : Instr) (r q : Regs) : Prop where
  tables : q.total = r.total ∧ q.mcount = r.mcount ∧ q.ccount = r.ccount
  symbols : i ≠ .bpDec → q.symcnt = r.symcnt ∧ q.resid = r.resid
  file : i ≠ .bsPack → q.filelen = r.filelen

/-- The registers that every command may write are no counts. -/
theorem CountsKept.of_working (i : Instr) (r : Regs) (done fault : Bool) (err : BitVec 8)
    (errinfo bitlen low high value bptr sidx : Word) :
    CountsKept i r { r with
      done := done, fault := fault, err := err, errinfo := errinfo, bitlen := bitlen, low := low, high := high
      value := value, bptr := bptr, sidx := sidx } :=
  ⟨⟨rfl, rfl, rfl⟩, fun _ => ⟨rfl, rfl⟩, fun _ => rfl⟩

/-- What command `i` may have changed between the two states, whether it completed or faulted. -/
structure WritesOwn (i : Instr) (s t : State) : Prop where
  arrays (a : Arr) : i ∉ a.writers → SameArray a s t
  counts : i ≠ .sreset → CountsKept i s.regs t.regs

theorem WritesOwn.refl (i : Instr) (s : State) : WritesOwn i s s where
  arrays _ _ _ := rfl
  counts _ := .of_working i s.regs ..

/-- A command that is not ignored writes its own only, by the frame of its group. -/
theorem WritesOwn.of_not_ignored {i : Instr} {s t : State} (hf : s.regs.fault = false) (hi : i ≠ .sreset)
    (ht : exec i s = .next t) : WritesOwn i s t := by
  have hother {b : Arr} (hb : i ∈ b.writers) (h : ∀ a, a ≠ b → SameArray a s t) (a : Arr)
      (ha : i ∉ a.writers) : SameArray a s t := h a fun hab => ha (hab ▸ hb)
  cases i with
  | nop =>
    rw [(nopSetsDoneOnly s).1 hf] at ht
    obtain rfl := Host.Outcome.next.inj ht
    exact ⟨fun _ _ _ => rfl, fun _ => .of_working _ s.regs ..⟩
  | rcEnc =>
    obtain ⟨hregs, harr, _⟩ := (rangeCommandsFrame s t hf).1 ht
    exact ⟨hother (by decide) harr, fun _ => by rw [hregs]; exact .of_working ..⟩
  | rcDec =>
    obtain ⟨hregs, harr, _⟩ := (rangeCommandsFrame s t hf).2 ht
    exact ⟨hother (by decide) harr, fun _ => by rw [hregs]; exact .of_working ..⟩
  | bpEnc =>
    obtain ⟨hregs, harr, _⟩ := (tableCommandsFrame s t hf).1 ht
    exact ⟨hother (by decide) harr, fun _ => by rw [hregs]; exact .of_working ..⟩
  | bpDec =>
    obtain ⟨hregs, harr, _⟩ := (tableCommandsFrame s t hf).2 ht
    refine ⟨hother (by decide) harr, fun _ => ?_⟩
    rw [hregs]
    exact ⟨⟨rfl, rfl, rfl⟩, fun hne => absurd rfl hne, fun _ => rfl⟩
  | bsPack =>
    obtain ⟨hregs, harr, _⟩ := (fileCommandsFrame s t hf).1 ht
    refine ⟨hother (by decide) harr, fun _ => ?_⟩
    rw [hregs]
    exact ⟨⟨rfl, rfl, rfl⟩, fun _ => ⟨rfl, rfl⟩, fun hne => absurd rfl hne⟩
  | bsUnpack =>
    obtain ⟨hregs, harr, _⟩ := (fileCommandsFrame s t hf).2 ht
    exact ⟨hother (by decide) harr, fun _ => by rw [hregs]; exact .of_working ..⟩
  | sreset => exact absurd rfl hi

theorem exec_writesOwn {i : Instr} {s t : State} (ht : exec i s = .next t) : WritesOwn i s t := by
  by_cases hi : i = .sreset
  · subst hi
    rw [exec_sreset] at ht
    obtain rfl := Host.Outcome.next.inj ht
    exact ⟨fun _ _ _ => rfl, fun hne => absurd rfl hne⟩
  · cases hf : s.regs.fault with
    | false => exact .of_not_ignored hf hi ht
    | true =>
      rw [faultIgnoresEveryCommandButSreset s i hf hi] at ht
      obtain rfl := Host.Outcome.next.inj ht
      exact .refl i s

/-- Settles O54: an array changes by its writers only, and a count by the one command that writes it. -/
theorem commandsWriteOnlyTheirOwn : Obligations.CommandsWriteOnlyTheirOwn := by
  intro i s t ht
  obtain ⟨harr, hcounts⟩ := exec_writesOwn ht
  refine ⟨fun a ha => harr a ?_, fun h1 h2 => harr .symmem ?_, fun h1 h2 h3 => harr .bitmem ?_,
    fun h1 => harr .filemem ?_, fun hi => (hcounts hi).tables, fun hi => (hcounts hi).symbols,
    fun hi => (hcounts hi).file⟩
  · rcases ha with rfl | rfl | rfl | rfl | rfl | rfl <;> exact List.not_mem_nil
  · simp [Arr.writers, h1, h2]
  · simp [Arr.writers, h1, h2, h3]
  · simp [Arr.writers, h1]

/-! ### Who may clear `FAULT` (R137, R152, R153) -/

/-- Only a write to address 0 issues a command (R18). -/
theorem eq_write_of_commandWord {c : Config} {op : HostOp} {w : Word} (h : commandWord c op = some w) :
    op = .write 0 w := by
  cases op with
  | read addr => exact absurd h (by simp [commandWord])
  | reset => exact absurd h (by simp [commandWord])
  | write addr data =>
    obtain ⟨hl, rfl⟩ : locate c addr = some (.reg .cmd) ∧ data = w := by simpa [commandWord] using h
    obtain ⟨_, ⟨r, hr, haddr⟩ | ⟨a, i, hne, _⟩⟩ := locate_some hl
    · obtain rfl : Reg.cmd = r := by simpa using hr
      rw [show addr = 0 from BitVec.eq_of_toNat_eq haddr]
    · exact absurd hne (by simp)

/-- A move that issues no command and is no reset leaves `FAULT` (R17). -/
theorem plainMove_fault {op : HostOp} (h : op ≠ .reset) (s : State) :
    (plainMove op s).regs.fault = s.regs.fault := by
  cases op with
  | read addr => rfl
  | reset => exact absurd rfl h
  | write addr data =>
    obtain ⟨t, resp, he, hruns⟩ := hostWrite_runs s addr data
    obtain ⟨_, hfault, _, _⟩ := hruns.flag_eqs
    rw [plainMove, he]
    exact hfault

/-- Settles O55, by the cases of a step: a command or an illegal word that is ignored keeps `FAULT`, and so does a
transaction; a reset and `SRESET` remain. -/
theorem onlySresetOrResetClearsFault : Obligations.OnlySresetOrResetClearsFault := by
  intro s t _ h hset hclear
  have hkept (hk : t.regs.fault = s.regs.fault) : False := by
    rw [hk, hset] at hclear
    exact absurd hclear (by decide)
  rcases step_cases h with ⟨_, rfl⟩ | ⟨op, rest, hs, _, rfl⟩ | ⟨op, rest, w, i, u, hs, hc, hd, hx, rfl⟩ |
    ⟨op, rest, w, e, _, _, _, rfl⟩
  · exact (hkept rfl).elim
  · by_cases hop : op = .reset
    · exact .inl (by simp [hs, hop])
    · exact (hkept (plainMove_fault hop _)).elim
  · by_cases hi : i = .sreset
    · subst hi
      obtain rfl : w = encode .sreset := (decode_eq_ok_iff w .sreset).1 hd
      right
      rw [hs, eq_write_of_commandWord hc]
      rfl
    · rw [faultIgnoresEveryCommandButSreset { s with host := rest } i hset hi] at hx
      obtain rfl := Host.Outcome.next.inj hx
      exact (hkept rfl).elim
  · refine (hkept ?_).elim
    rw [illegalCommand, runCommand_ignored (s := { s with host := rest }) hset]
    rfl

end Sys2Proof.Machine
end

section
/-! PROOFS. Which faults a command can enter (R145, R147): the counts it checks first and their `BAD_LENGTH`, and what
it can raise once they are within bounds; and the engine at rest (R162). -/

namespace Sys2Proof.Machine

/-! ### What a body can raise once its counts are within bounds (R145) -/

theorem RaisesAmong.mono {α : Type} {cs ds : List Cause} {x : Except Raise α} (h : RaisesAmong cs x) (hsub : cs ⊆ ds) :
    RaisesAmong ds x :=
  fun r hr => hsub (h r hr)

theorem checkModel_raises {cs : List Cause} (h : Cause.modelInvalid ∈ cs) (s : State) :
    RaisesAmong cs (checkModel s) := by
  by_cases hok : ModelOk s
  · rw [checkModel_ok hok]
    exact .ok ()
  · rw [checkModel_error hok]
    exact .error h

theorem checkTable_raises {cs : List Cause} (h : Cause.tableInvalid ∈ cs) (s : State) :
    RaisesAmong cs (checkTable s) := by
  by_cases hok : CodeOk s
  · rw [checkTable_ok hok]
    exact .ok ()
  · rw [checkTable_error hok]
    exact .error h

section
variable {s : State}

theorem rcEncBody_raises (hlen : s.regs.symcnt.toNat ≤ s.cfg.sMax) :
    RaisesAmong [.modelInvalid, .symbolMiss, .rangeCollapse, .overflow] (rcEncBody s) := by
  rcases Nat.eq_zero_or_pos s.regs.symcnt.toNat with hnone | hsome
  · rw [rcEncBody_nothing hnone]
    exact .ok _
  · rw [rcEncBody_start hlen hsome]
    have hloop := RaisesAmong.forLoop encodeSymbol_raises s.regs.symcnt.toNat 0 (encStart s)
    exact (checkModel_raises (by decide) _).bind fun _ => (hloop.mono (by decide)).bind (flush_raises (by decide))

theorem rcDecBody_raises (hlen : s.regs.symcnt.toNat ≤ s.cfg.sMax) (hbits : s.regs.bitlen.toNat ≤ 8 * s.cfg.bMax) :
    RaisesAmong [.modelInvalid, .rangeCollapse, .desync] (rcDecBody s) := by
  rcases Nat.eq_zero_or_pos s.regs.symcnt.toNat with hnone | hsome
  · rw [rcDecBody_nothing hnone hbits]
    exact .ok _
  · rw [rcDecBody_start hlen hbits hsome]
    have hloop := RaisesAmong.forLoop decodeSymbol_raises s.regs.symcnt.toNat 0 (decStart s)
    exact (checkModel_raises (by decide) _).bind fun _ => hloop.mono (by decide)

theorem bpEncBody_raises (hlen : s.regs.symcnt.toNat ≤ s.cfg.sMax) :
    RaisesAmong [.tableInvalid, .symbolMiss, .overflow] (bpEncBody s) := by
  rw [bpEncBody_start hlen]
  have hloop := RaisesAmong.forLoop packSymbol_raises s.regs.symcnt.toNat 0 (packStart s)
  exact (checkTable_raises (by decide) s).bind fun _ => hloop.mono (by decide)

theorem bpDecBody_raises (hbits : s.regs.bitlen.toNat ≤ 8 * s.cfg.bMax) :
    RaisesAmong [.tableInvalid, .overflow] (bpDecBody s) := by
  rw [bpDecBody_start hbits]
  have hloop := RaisesAmong.forLoop unpackBit_raises s.regs.bitlen.toNat 0 (unpackStart s, [])
  exact (checkTable_raises (by decide) s).bind fun _ => (hloop.mono (by decide)).bind fun _ => .ok _

theorem bsPackBody_raises (hbits : s.regs.bitlen.toNat ≤ 8 * s.cfg.bMax) : RaisesAmong [.overflow] (bsPackBody s) := by
  rcases Nat.lt_or_ge s.cfg.fMax (1 + bytesOf s.regs.bitlen.toNat) with hfull | hroom
  · rw [bsPackBody_overflows hbits hfull]
    exact .error (by decide)
  · obtain ⟨t, ht, _⟩ := bsPackBody_packs hbits hroom
    rw [ht]
    exact .ok t

theorem bsUnpackBody_raises (hlen : s.regs.filelen.toNat ≤ s.cfg.fMax) :
    RaisesAmong [.format, .overflow] (bsUnpackBody s) := by
  rcases Nat.eq_zero_or_pos s.regs.filelen.toNat with hempty | hone
  · rw [bsUnpackBody_empty hempty]
    exact .ok _
  · by_cases hbad : BadHeader s
    · rw [bsUnpackBody_format hlen hone hbad]
      exact .error List.mem_cons_self
    · rcases Nat.lt_or_ge s.cfg.bMax (s.regs.filelen.toNat - 1) with hfull | hfit
      · rw [bsUnpackBody_overflows hlen hone hbad hfull]
        exact .error (by decide)
      · obtain ⟨t, ht, _⟩ := bsUnpackBody_unpacks ⟨hlen, fun _ => ⟨hbad, hfit⟩⟩
        rw [ht]
        exact .ok t

/-! ### The counts a command checks (R147) -/

theorem rcDecBody_symcnt_badLength (h : s.cfg.sMax < s.regs.symcnt.toNat) :
    rcDecBody s = .error { cause := .badLength, info := 0 } := by
  rw [rcDecBody, checkSymcnt, if_pos h, error_bind]

/-- `RC_DEC` checks `BITLEN` after `SYMCNT`. -/
theorem rcDecBody_bitlen_badLength (hlen : s.regs.symcnt.toNat ≤ s.cfg.sMax)
    (h : 8 * s.cfg.bMax < s.regs.bitlen.toNat) : rcDecBody s = .error { cause := .badLength, info := 1 } := by
  rw [rcDecBody, checkSymcnt_ok hlen, ok_bind, checkBitlen, if_pos h, error_bind]

end

/-- The counts the command checks before anything else are within their bounds (R147). -/
def CountsFit (s : State) : Instr → Prop
  | .rcEnc | .bpEnc => s.regs.symcnt.toNat ≤ s.cfg.sMax
  | .rcDec => s.regs.symcnt.toNat ≤ s.cfg.sMax ∧ s.regs.bitlen.toNat ≤ 8 * s.cfg.bMax
  | .bpDec | .bsPack => s.regs.bitlen.toNat ≤ 8 * s.cfg.bMax
  | .bsUnpack => s.regs.filelen.toNat ≤ s.cfg.fMax
  | .nop | .sreset => True

/-- The faults other than `BAD_LENGTH` that the command can enter (R145, column "Raised by"; for `RC_DEC` with the two
that R96 writes and R98 excludes). -/
def laterFaults : Instr → List Cause
  | .rcEnc => [.modelInvalid, .symbolMiss, .rangeCollapse, .overflow]
  | .rcDec => [.modelInvalid, .rangeCollapse, .desync]
  | .bpEnc => [.tableInvalid, .symbolMiss, .overflow]
  | .bpDec => [.tableInvalid, .overflow]
  | .bsPack => [.overflow]
  | .bsUnpack => [.format, .overflow]
  | .nop | .sreset => []

theorem badLength_notMem_laterFaults (i : Instr) : Cause.badLength ∉ laterFaults i := by
  cases i <;> decide

section
variable {s : State} {i : Instr} {c : Cause} {info : Word} (hf : s.regs.fault = false)
include hf

/-- With its counts within bounds a command enters none but its later faults. -/
theorem Raises.mem_laterFaults (hfit : CountsFit s i) (hr : Raises i s c info) : c ∈ laterFaults i := by
  cases i with
  | nop =>
    obtain ⟨t, ht, hdone, _⟩ := hr
    rw [(nopSetsDoneOnly s).1 hf] at ht
    obtain rfl := Host.Outcome.next.inj ht
    exact absurd hdone.symm Bool.false_ne_true
  | rcEnc => exact rcEncBody_raises (s := s.setDone false) hfit _ ((raises_rcEnc_iff hf).1 hr)
  | rcDec =>
    obtain ⟨hlen, hbits⟩ := hfit
    exact rcDecBody_raises (s := s.setDone false) hlen hbits _ ((raises_rcDec_iff hf).1 hr)
  | bpEnc => exact bpEncBody_raises (s := s.setDone false) hfit _ ((raises_bpEnc_iff hf).1 hr)
  | bpDec => exact bpDecBody_raises (s := s.setDone false) hfit _ ((raises_bpDec_iff hf).1 hr)
  | bsPack => exact bsPackBody_raises (s := s.setDone false) hfit _ ((raises_bsPack_iff hf).1 hr)
  | bsUnpack => exact bsUnpackBody_raises (s := s.setDone false) hfit _ ((raises_bsUnpack_iff hf).1 hr)
  | sreset =>
    obtain ⟨t, ht, _, hfault, _⟩ := hr
    rw [exec_sreset] at ht
    obtain rfl := Host.Outcome.next.inj ht
    exact absurd hfault Bool.false_ne_true

theorem not_raises_badLength (hfit : CountsFit s i) : ¬ Raises i s .badLength info :=
  fun hr => badLength_notMem_laterFaults i (hr.mem_laterFaults hf hfit)

end

/-! ### The obligations -/

/-- Settles O21: each body starts with its checks, and with the counts within bounds `BAD_LENGTH` is not among its
faults. -/
theorem entryChecksRaiseBadLength : Obligations.EntryChecksRaiseBadLength := by
  intro s hf
  refine ⟨fun i hi => ⟨fun hlong => ?_, fun hlen info => not_raises_badLength hf ?_⟩, fun hlong => ?_,
    fun hlen hlong => ?_, fun hlen hbits info => not_raises_badLength hf ⟨hlen, hbits⟩,
    fun i hi => ⟨fun hlong => ?_, fun hbits info => not_raises_badLength hf ?_⟩, fun hlong => ?_,
    fun hlen info => not_raises_badLength (i := .bsUnpack) hf hlen⟩
  · rcases hi with rfl | rfl
    · exact (raises_rcEnc_iff hf).2 (rcEncBody_badLength (s := s.setDone false) hlong)
    · exact (raises_bpEnc_iff hf).2 (bpEncBody_badLength (s := s.setDone false) hlong)
  · rcases hi with rfl | rfl <;> exact hlen
  · exact (raises_rcDec_iff hf).2 (rcDecBody_symcnt_badLength (s := s.setDone false) hlong)
  · exact (raises_rcDec_iff hf).2 (rcDecBody_bitlen_badLength (s := s.setDone false) hlen hlong)
  · rcases hi with rfl | rfl
    · exact (raises_bpDec_iff hf).2 (bpDecBody_badLength (s := s.setDone false) hlong)
    · exact (raises_bsPack_iff hf).2 (bsPackBody_badLength (s := s.setDone false) hlong)
  · rcases hi with rfl | rfl <;> exact hbits
  · exact (raises_bsUnpack_iff hf).2 (bsUnpackBody_badLength (s := s.setDone false) hlong)

/-- A command whose counts are not within bounds enters `BAD_LENGTH`. -/
theorem raises_badLength_of_not_countsFit {s : State} {i : Instr} (hf : s.regs.fault = false) (h : ¬ CountsFit s i) :
    ∃ info, Raises i s .badLength info := by
  obtain ⟨hsymbols, hdecSymbols, hdecBits, _, hbits, hfile, _⟩ := entryChecksRaiseBadLength s hf
  cases i with
  | nop | sreset => exact absurd trivial h
  | rcEnc => exact ⟨0, (hsymbols .rcEnc (.inl rfl)).1 (Nat.not_le.1 h)⟩
  | bpEnc => exact ⟨0, (hsymbols .bpEnc (.inr rfl)).1 (Nat.not_le.1 h)⟩
  | rcDec =>
    rcases Nat.lt_or_ge s.cfg.sMax s.regs.symcnt.toNat with hlong | hlen
    · exact ⟨0, hdecSymbols hlong⟩
    · exact ⟨1, hdecBits hlen (Nat.not_le.1 fun hle => h ⟨hlen, hle⟩)⟩
  | bpDec => exact ⟨1, (hbits .bpDec (.inl rfl)).1 (Nat.not_le.1 h)⟩
  | bsPack => exact ⟨1, (hbits .bsPack (.inr rfl)).1 (Nat.not_le.1 h)⟩
  | bsUnpack => exact ⟨2, hfile (Nat.not_le.1 h)⟩

/-- A command enters `BAD_LENGTH` or one of its later faults. -/
theorem Raises.mem_faults {s : State} {i : Instr} {c : Cause} {info : Word} (hf : s.regs.fault = false)
    (hr : Raises i s c info) : c ∈ Cause.badLength :: laterFaults i := by
  by_cases hfit : CountsFit s i
  · exact List.mem_cons_of_mem _ (hr.mem_laterFaults hf hfit)
  · obtain ⟨_, hlength⟩ := raises_badLength_of_not_countsFit hf hfit
    obtain ⟨rfl, _⟩ := hr.inj hlength
    exact List.mem_cons_self

/-- Settles O24: the lists of each command's faults, written out. -/
theorem eachCommandRaisesItsOwnFaults : Obligations.EachCommandRaisesItsOwnFaults := by
  intro s c info hf
  refine ⟨fun hr => ?_, fun hr => ?_, fun hr => ?_, fun hr => ?_, fun hr => ?_, fun hr => ?_,
    fun hr => List.not_mem_nil (hr.mem_laterFaults (i := .nop) hf trivial)⟩ <;>
  simpa [laterFaults] using hr.mem_faults hf

/-- Settles O13, by the idle case of a step. -/
theorem idleEngineKeepsItsState : Obligations.IdleEngineKeepsItsState := fun _ => step_idle

end Sys2Proof.Machine
end

section
/-! PROOFS. Reset and runs (R39, R170, R171, R183): what a reset move leaves, that each move of the host takes one step
and a transaction gets one response, and that a command with no input completes and gives no output. -/

namespace Sys2Proof.Machine

/-- Settles O12: a reset move is the hard reset, and a draw of all arrays reads its free values. -/
theorem resetDrawsTheMemoriesAfresh : Obligations.ResetDrawsTheMemoriesAfresh :=
  fun _ _ hs _ => ⟨_, step_move hs rfl, rfl, rfl, rfl, rfl, rfl, memRead_unspecified rfl⟩

/-! ### One step takes one move (R46, R183) -/

/-- A read or a write; a reset is no transaction (R46, R55). -/
def HostOp.isTransaction (op : HostOp) : Bool := decide (op ≠ .reset)

/-- A host write is answered once and leaves the moves still to take. -/
theorem hostWrite_port (s : State) (addr data : Word) :
    ∃ t resp, hostWrite s addr data = t.respond resp ∧ SamePort s t := by
  unfold hostWrite
  split
  · exact ⟨s, _, rfl, rfl, rfl⟩
  · split
    · exact ⟨_, _, rfl, rfl, rfl⟩
    · exact ⟨s, _, rfl, rfl, rfl⟩
  · split
    · exact ⟨_, _, rfl, SamePort.memWrite ⟨rfl, rfl⟩ _ _ _⟩
    · exact ⟨s, _, rfl, rfl, rfl⟩

/-- A move that issues no command leaves the moves still to take, and is answered once if it is a transaction. -/
theorem plainMove_port (op : HostOp) (s : State) :
    (plainMove op s).host = s.host ∧
      (plainMove op s).responses.length = s.responses.length + if op.isTransaction then 1 else 0 := by
  cases op with
  | read addr => exact ⟨rfl, rfl⟩
  | reset => exact ⟨rfl, rfl⟩
  | write addr data =>
    obtain ⟨t, resp, he, hhost, hresp⟩ := hostWrite_port s addr data
    rw [plainMove, he]
    exact ⟨hhost, congrArg (List.length <| resp :: ·) hresp⟩

/-- A step takes the next move, a command or not, and answers it once if it is a transaction. -/
theorem step_takesMove {s : State} {op : HostOp} {rest : List HostOp} (h : s.host = op :: rest) :
    ∃ t, step s = .next t ∧ t.host = rest ∧
      t.responses.length = s.responses.length + if op.isTransaction then 1 else 0 := by
  cases hc : commandWord s.cfg op with
  | none => exact ⟨_, step_move h hc, plainMove_port op { s with host := rest }⟩
  | some w =>
    obtain rfl := eq_write_of_commandWord hc
    obtain ⟨t, ht, hresp, hhost⟩ := step_write_cmd h
    exact ⟨t, ht, hhost, congrArg List.length hresp⟩

/-- A run goes on from the state that its first step reaches. -/
theorem run_succ {s t : State} (h : step s = .next t) (k : Nat) :
    Host.Core.run Sys2Proof.core (k + 1) s = Host.Core.run Sys2Proof.core k t := by
  have hcore : Sys2Proof.core.step s = .next t := h
  simp only [Host.Core.run, hcore]

/-- A run with a step for each pending move takes them all. -/
theorem run_takesMoves {ops : List HostOp} {s : State} (h : s.host = ops) :
    ∃ t : State, Host.Core.run Sys2Proof.core ops.length s = .next t ∧ t.host = [] ∧
      t.responses.length = s.responses.length + ops.countP HostOp.isTransaction := by
  induction ops generalizing s with
  | nil => exact ⟨s, rfl, h, rfl⟩
  | cons op rest ih =>
    obtain ⟨t, ht, hhost, hcount⟩ := step_takesMove h
    obtain ⟨u, hu, hdone, htotal⟩ := ih hhost
    refine ⟨u, (run_succ ht _).trans hu, hdone, ?_⟩
    rw [htotal, hcount, List.countP_cons]
    omega

/-- Settles O56, by induction on the pending moves. -/
theorem everyRunEnds : Obligations.EveryRunEnds := by
  intro s
  rw [← List.countP_eq_length_filter]
  exact run_takesMoves rfl

/-! ### Commands with no input (R91, R171) -/

/-- No symbol, no bit, no file, and no entry in the code table. -/
structure NoInput (s : State) : Prop where
  symcnt : s.regs.symcnt = 0
  bitlen : s.regs.bitlen = 0
  filelen : s.regs.filelen = 0
  ccount : s.regs.ccount = 0

/-- The reset values of the registers are such (R39). -/
theorem NoInput.of_reset {s : State} (h : s.regs = Regs.reset) : NoInput s := by
  constructor <;> rw [h] <;> rfl

/-- The second state has no symbol and no bit, and the symbol and bit memories of the first. -/
structure StaysEmpty (s t : State) : Prop where
  bitlen : t.regs.bitlen = 0
  symcnt : t.regs.symcnt = 0
  symmem : SameArray .symmem s t
  bitmem : SameArray .bitmem s t

/-- Writing registers changes no memory. -/
theorem StaysEmpty.setRegs {s : State} {r : Regs} (hbits : r.bitlen = 0) (hsyms : r.symcnt = 0) :
    StaysEmpty s { s with regs := r } :=
  ⟨hbits, hsyms, fun _ => rfl, fun _ => rfl⟩

section
variable {s : State} (h : NoInput s)
include h

theorem NoInput.symcnt_toNat : s.regs.symcnt.toNat = 0 := congrArg BitVec.toNat h.symcnt

theorem NoInput.bitlen_toNat : s.regs.bitlen.toNat = 0 := congrArg BitVec.toNat h.bitlen

theorem NoInput.symcnt_fits : s.regs.symcnt.toNat ≤ s.cfg.sMax := h.symcnt_toNat ▸ Nat.zero_le _

theorem NoInput.bitlen_fits : s.regs.bitlen.toNat ≤ 8 * s.cfg.bMax := h.bitlen_toNat ▸ Nat.zero_le _

/-- `BP_ENC` has a valid table, the empty one, and no symbol to code (R111). -/
theorem bpEncBody_nothing : bpEncBody s = .ok (packStart s) := by
  rw [bpEncBody_valid h.symcnt_fits (codeOk_of_empty h.ccount), h.symcnt_toNat, forLoop_zero]

/-- `BP_DEC` has a valid table, the empty one, and no bit to read (R114 (a)). -/
theorem bpDecBody_nothing : bpDecBody s = .ok (unpackEnd (unpackStart s, [])) := by
  rw [bpDecBody_valid h.bitlen_fits (codeOk_of_empty h.ccount), h.bitlen_toNat, forLoop_zero, ok_bind]

/-- `BS_PACK` writes the header alone, for which any file memory has room (R5, R125). -/
theorem bsPackBody_nothing (hc : s.cfg.Ok) :
    ∃ t, bsPackBody s = .ok t ∧ StaysEmpty s t ∧ t.regs.filelen = 1 ∧ memRead t .filemem 0 = 0 := by
  obtain ⟨_, _, _, _, _, _, ⟨hroom, _⟩, _⟩ := hc
  have hbytes : bytesOf s.regs.bitlen.toNat = 0 := by rw [h.bitlen_toNat]; rfl
  obtain ⟨t, ht, hpacks⟩ := bsPackBody_packs h.bitlen_fits (by rwa [hbytes])
  have hregs := hpacks.regs
  rw [hbytes] at hregs
  refine ⟨t, ht, ⟨?_, ?_, hpacks.arrays .symmem (by decide), hpacks.arrays .bitmem (by decide)⟩, ?_, ?_⟩
  · rw [hregs, h.bitlen]
  · rw [hregs, h.symcnt]
  · rw [hregs]
    rfl
  · rw [hpacks.written 0 (by omega), fileByte, h.bitlen_toNat]
    rfl

end

/-- Every command but `SRESET` is dispatched with a body that with no input goes through and leaves the state empty. -/
theorem exec_dispatches_nothing (i : Instr) (hi : i ≠ .sreset) :
    ∃ body spoil, (∀ s, exec i s = .next (runCommand body spoil s)) ∧ (∀ s, Yields (Runs s) (body s)) ∧
      ∀ s, s.cfg.Ok → NoInput s → ∃ t, body s = .ok t ∧ StaysEmpty s t := by
  cases i with
  | nop =>
    exact ⟨_, _, fun _ => rfl, fun s => .ok (Runs.refl s), fun _ _ h => ⟨_, rfl, .setRegs h.bitlen h.symcnt⟩⟩
  | rcEnc =>
    exact ⟨_, _, fun _ => rfl, rcEncBody_yields, fun _ _ h =>
      ⟨_, rcEncBody_nothing h.symcnt_toNat, .setRegs rfl h.symcnt⟩⟩
  | rcDec =>
    exact ⟨_, _, fun _ => rfl, rcDecBody_yields, fun _ _ h =>
      ⟨_, rcDecBody_nothing h.symcnt_toNat h.bitlen_fits, .setRegs h.bitlen h.symcnt⟩⟩
  | bpEnc =>
    exact ⟨_, _, fun _ => rfl, bpEncBody_yields, fun _ _ h => ⟨_, bpEncBody_nothing h, .setRegs rfl h.symcnt⟩⟩
  | bpDec =>
    exact ⟨_, _, fun _ => rfl, bpDecBody_yields, fun _ _ h => ⟨_, bpDecBody_nothing h, .setRegs h.bitlen rfl⟩⟩
  | bsPack =>
    refine ⟨_, _, fun _ => rfl, bsPackBody_yields, fun s hc h => ?_⟩
    obtain ⟨t, ht, hempty, _⟩ := bsPackBody_nothing h hc
    exact ⟨t, ht, hempty⟩
  | bsUnpack =>
    exact ⟨_, _, fun _ => rfl, bsUnpackBody_yields, fun _ _ h =>
      ⟨_, bsUnpackBody_empty (congrArg BitVec.toNat h.filelen), .setRegs rfl h.symcnt⟩⟩
  | sreset => exact absurd rfl hi

/-- Settles O14: the reset values of the registers are no input. -/
theorem commandsCompleteRightAfterReset : Obligations.CommandsCompleteRightAfterReset := by
  intro s hreset hc
  have hf : s.regs.fault = false := by rw [hreset]; rfl
  have hnone : NoInput (s.setDone false) := by
    obtain ⟨hsyms, hbits, hfile, hcodes⟩ := NoInput.of_reset hreset
    exact ⟨hsyms, hbits, hfile, hcodes⟩
  refine ⟨fun i hi => ?_, ?_, ?_⟩
  · obtain ⟨body, spoil, hx, hb, hnothing⟩ := exec_dispatches_nothing i hi
    obtain ⟨t, ht, hempty⟩ := hnothing (s.setDone false) hc hnone
    obtain ⟨hexec, hdone⟩ := completes_of_body hx hf hb ht
    exact ⟨_, hexec, hdone, hempty.bitlen, hempty.symcnt, hempty.symmem, hempty.bitmem⟩
  · rw [exec_sreset, resetRegs, ← hreset]
  · obtain ⟨t, ht, _, hfile, hheader⟩ := bsPackBody_nothing hnone hc
    obtain ⟨hexec, _⟩ := completes_of_body (i := .bsPack) (fun _ => rfl) hf bsPackBody_yields ht
    exact ⟨_, hexec, hfile, hheader⟩

end Sys2Proof.Machine
end
